-- ==== Sys2Proof/Word.lean ====
section
/-! DEFINITION. The word type of the block: rule R8 of spec/00_scope.md ("All values are unsigned; the block has no
signed quantity") and rule R107 of spec/30_encoding.md (all arithmetic is on unsigned 8-bit values). -/

namespace Sys2Proof

/-- An 8-bit value: a command byte, an operand byte, a bus byte, an 8-bit register. -/
abbrev Byte := BitVec 8

end Sys2Proof
end

