-- ==== Sys2Proof/Config.lean ====
section
/-! DEFINITION. What no rule of the spec gives a value: the OPEN parameters of rule R7 (spec/00_scope.md) and the
environment's answers of rule R45 (spec/10_state.md). Every constant here is opaque: no proof can see a value of it.
The parameters that the spec DOES give a value stand in Sys2Proof/Machine/Params.lean. -/

namespace Sys2Proof

/-- `DIV_SLOW`, the divisor loaded for the slow speed: OPEN (R7, R26; decision D7). Log entry 15. -/
opaque Config.divSlow : Byte

/-- `DIV_FAST`, the divisor loaded for the fast speed: OPEN (R7, R26; decision D7). Log entry 15. -/
opaque Config.divFast : Byte

/-- `PRESCALE_FIXED`, the "fixed prescaler" setting: OPEN (R7, R26; decision D7). Log entry 15. -/
opaque Config.prescaleFixed : BitVec 2

/-- `READ_ACK`, whether the block acknowledges the byte it receives: OPEN (R7, R124; decision D13). It shows on the
wires only (R74), never in the trace. Log entry 15. -/
opaque Config.readAck : Bool

/-- `T_CHAR_US`, the inter-character delay of PRINT in microseconds: OPEN (R7, R171; decision D28). Log entry 15. -/
opaque Config.tCharUs : Nat

/-- The frequency of `clk` in cycles per second: "not specified" (R90, R211). Log entry 15. -/
opaque Config.clkHz : Nat

/-- Free value: whether the `n`-th wait past the answers that State holds ever ends (R202, "the spec puts no law on the
choice"; decision D31). Log entry 3. -/
opaque Config.waitEnds : Nat → Bool

/-- Free value: the `n`-th acknowledge bit past the answers that State holds (`draw_bit()`, R9, R30, R62).
Log entry 3. -/
opaque Config.ackBit : Nat → Bool

/-- Free value: the `n`-th received byte past the answers that State holds (`draw_byte()`, R9, R62, R124).
Log entry 3. -/
opaque Config.readByte : Nat → Byte

/-- Free value: whether the bus engine has a pending stop condition on the wires by the `n`-th time it is asked past
the answers that State holds (R32). Log entries 3 and 8. -/
opaque Config.stopEnds : Nat → Bool

/-- Free value: a row offset outside the four entries of `ROW_OFFSET` (R7 `MAX_ROWS`). R163 keeps every index inside
the table in every state where `ROWS` is 1 to 4, and no run leaves those. Log entry 14. -/
opaque Config.rowOffsetOutside : Byte → Byte

end Sys2Proof
end

