-- ==== Sys2Proof/Syntax.lean ====
section
/-! DEFINITION. The 22 commands of rule R92 (spec/30_encoding.md), one constructor for each row of
spec/opcode_table.json, in the table's order. Operands are whole bytes, as the host gives them (R94): which values are
legal is Sys2Proof/WellFormed.lean's business and, in the order rule R207 fixes, each meaning's. -/

namespace Sys2Proof

/-- A command of the block (R92). -/
inductive Instr where
  /-- CONFIGURE `addr`, `speed` (R120). -/
  | configure (addr speed : Byte)
  /-- START (R121). -/
  | start
  /-- WBYTE `b` (R122). -/
  | wbyte (b : Byte)
  /-- STOP (R123). -/
  | stop
  /-- RBYTE (R124). -/
  | rbyte
  /-- SENDNIBBLE `x` (R140). -/
  | sendNibble (x : Byte)
  /-- PULSELATCH `x` (R141). -/
  | pulseLatch (x : Byte)
  /-- SENDBYTE `v`, `m` (R142). -/
  | sendByte (v m : Byte)
  /-- SETBACKLIGHT `on` (R143). -/
  | setBacklight (on : Byte)
  /-- INIT `rows`, `cols`, `font` (R160). -/
  | init (rows cols font : Byte)
  /-- CLEAR (R161). -/
  | clear
  /-- HOME (R162). -/
  | home
  /-- SETCURSOR `col`, `row` (R163). -/
  | setCursor (col row : Byte)
  /-- DISPLAY `on` (R164). -/
  | display (on : Byte)
  /-- CURSOR `on` (R165). -/
  | cursor (on : Byte)
  /-- BLINK `on` (R166). -/
  | blink (on : Byte)
  /-- ENTRYDIR `ltr` (R167). -/
  | entryDir (ltr : Byte)
  /-- AUTOSCROLL `on` (R168). -/
  | autoscroll (on : Byte)
  /-- SCROLL `right` (R169). -/
  | scroll (right : Byte)
  /-- LOADGLYPH `slot`, `p0` … `p7` (R170). -/
  | loadGlyph (slot p0 p1 p2 p3 p4 p5 p6 p7 : Byte)
  /-- PRINT `n`, `c1` … `cn` (R171). The operand `n` is the length of the list `cs`, so an `Instr` cannot hold a
  count that differs from its characters; `WellFormed` bounds it by 255. -/
  | print (cs : List Byte)
  /-- BACKLIGHT `on` (R172). -/
  | backlight (on : Byte)
  deriving DecidableEq, Repr

end Sys2Proof
end

