-- ==== Sys2Proof/Machine/State.lean ====
section
/-! DEFINITION. The state of the block: the 21 registers of rule R20 (spec/10_state.md), the bus trace (R61), the ports
(R90, R91, R96) and the environment's answers (R45), all plain data; the reasons a step can stop; the state after
reset (R46, R220). One-bit registers whose bits no rule does arithmetic on are `Bool`, `true` for 1. -/

namespace Sys2Proof.Machine

/-- `PHASE` (R40). -/
inductive Phase where
  /-- After reset, until an INIT completes: 0. -/
  | uninitialized
  /-- After a completed INIT: 1. -/
  | ready
  deriving DecidableEq, Repr

/-- A bus event of the trace (R61). -/
inductive Event where
  /-- `S`: a start condition was asserted. -/
  | start
  /-- `W(b)`: the byte `b` was shifted out and one acknowledge bit clocked in. -/
  | write (b : Byte)
  /-- `R(v)`: the byte `v` was clocked in. -/
  | read (v : Byte)
  /-- `P`: a stop condition was issued. -/
  | stop
  /-- `D(n)`: nothing happened on the bus for at least `us` microseconds (R228). -/
  | delay (us : Nat)
  deriving DecidableEq, Repr

/-- `USEQ`, the micro-sequencer (R23): "idle between commands", else the command that is executing, its operands, and
the position inside its pseudocode, here the number of its `wait_done()`s that have completed (log entry 19). -/
inductive USeq where
  /-- No command is executing. -/
  | idle
  /-- `cmd` is executing and `waits` of its waits have completed. -/
  | executing (cmd : Instr) (waits : Nat)
  deriving DecidableEq, Repr

/-- The environment's answers of one kind (R45): those it has already given, oldest first, then a free value of
Config for each number from `drawn` on (log entry 3). The model's own structure, no register of the block. -/
structure Feed (α : Type) where
  given : List α
  drawn : Nat
  deriving DecidableEq, Repr

/-- The state of the block and of its inputs. -/
structure State where
  /-- `CP`: the index of the next command to be accepted (R21, R22). -/
  cp : Nat
  /-- `USEQ` (R23). -/
  useq : USeq
  /-- `ADDR[6:0]`: the target address (R24). -/
  addr : BitVec 7
  /-- `SPEED[7:0]`: the speed selector as given (R25). -/
  speed : Byte
  /-- `BITRATE[7:0]`: the clock-rate divisor (R26). -/
  bitrate : Byte
  /-- `PRESCALE[1:0]`: the prescaler setting (R26). -/
  prescale : BitVec 2
  /-- `BUS_EN`: the bus peripheral is enabled (R28). -/
  busEn : Bool
  /-- `DONE`: the completion flag (R27). -/
  done : Bool
  /-- `DATA[7:0]`: the shift register (R29). -/
  data : Byte
  /-- `ACK_RX`: the acknowledge bit of the last written byte, 1 = not acknowledged (R30). -/
  ackRx : Bool
  /-- `TXN`: a transaction is open (R31). -/
  txn : Bool
  /-- `STOP_PEND`: a stop was requested and the engine has not finished it (R32). -/
  stopPend : Bool
  /-- `RESP[7:0]`: the byte last returned by RBYTE (R33). -/
  resp : Byte
  /-- `BL`: the persisted backlight flag (R34). -/
  bl : Bool
  /-- `ROWS[7:0]`: the configured number of rows (R35). -/
  rows : Byte
  /-- `COLS[7:0]`: the configured number of columns (R35). -/
  cols : Byte
  /-- `FONT`: the glyph-cell size selector, 1 = tall (R36). -/
  font : Bool
  /-- `FUNC[7:0]`: the cached function-set command byte (R37). -/
  func : Byte
  /-- `CTRL[7:0]`: the cached display-control command byte (R38). -/
  ctrl : Byte
  /-- `MODE[7:0]`: the cached entry-mode command byte (R39). -/
  mode : Byte
  /-- `PHASE` (R40). -/
  phase : Phase
  /-- `TRACE`: the bus events since reset, oldest first (R61). -/
  trace : List Event
  /-- The response port's `rsp_valid` (R91, R96; log entry 10). -/
  rspValid : Bool
  /-- The bytes taken of a command whose last byte has not been taken yet (R90; log entry 5). -/
  cmdBuf : List Byte
  /-- Input: `rst_n`, `false` while the host holds reset (R90, R220; log entry 5). -/
  rstN : Bool
  /-- Input: the bytes that the host presents on `cmd_data` and the block has not taken, in order (R90; log entry 5). -/
  cmdIn : List Byte
  /-- Environment: does each coming wait end (R202; log entry 3). -/
  waits : Feed Bool
  /-- Environment: the coming acknowledge bits (R30, R62; log entry 3). -/
  acks : Feed Bool
  /-- Environment: the coming received bytes (R62, R124; log entry 3). -/
  bytes : Feed Byte
  /-- Environment: is the pending stop on the wires, each time the engine is asked (R32; log entries 3 and 8). -/
  stops : Feed Bool
  deriving DecidableEq, Repr

/-- The ways the machine stops with a fault. There is none: "No command raises a synchronous exception ... A model has
no fault outcome for this block" (R200). -/
inductive Fault where
  deriving DecidableEq, Repr

/-- The cases that the spec gives no meaning (R205); every one is safe: no claim can be made about what follows. -/
inductive Refusal where
  /-- Raised by an arm of `exec` whose instruction has no meaning yet (none is left). Safe. -/
  | notModelled (mnemonic : String)
  /-- Raised by `step`: the opcode byte is none of the 22 (R95, R205). Safe. -/
  | reservedOpcode (opcode : Byte)
  /-- Raised by CONFIGURE (`addr`), SETBACKLIGHT, DISPLAY, CURSOR, BLINK, ENTRYDIR, AUTOSCROLL, SCROLL, BACKLIGHT (their
  boolean), INIT (`rows`, `font`): an operand value marked "reserved" (R94, R205). Safe. -/
  | reservedOperand (operand : String)
  /-- Raised by CONFIGURE when `BUS_EN = 1`: "BusConfig is immutable once a bus session begins" (R120, R205). Safe. -/
  | busConfigImmutable
  /-- Raised by START, and by every ExpanderFramer and DisplayController command at its first START, or in place of it
  where a PRINT has no characters, when `TXN = 1` (R121, R125, R205). Safe. -/
  | startInOpenTransaction
  /-- Raised by WBYTE and RBYTE when `TXN = 0` (R122, R124, R125, R205). Safe. -/
  | byteOutsideTransaction
  /-- Raised by STOP when `TXN = 0` (R123, R125, R205). Safe. -/
  | stopOutsideTransaction
  /-- Raised by every DisplayController command but INIT when `PHASE = Uninitialized` (R177, R205). Safe. -/
  | displayNotInitialised
  deriving DecidableEq, Repr

/-- A feed of which nothing has been given or drawn (log entry 4). -/
def Feed.fresh {α : Type} : Feed α := ⟨[], 0⟩

/-- The machine right after reset: the table of R46 for the registers and TRACE, R220 for `rsp_valid`. The inputs and
the environment's feeds are the model's (log entries 4 and 5): reset released, nothing presented, nothing answered. -/
def State.reset : State where
  cp := 0
  useq := .idle
  addr := 0
  speed := 0
  bitrate := 0
  prescale := 0
  busEn := false
  done := false
  data := 0
  ackRx := false
  txn := false
  stopPend := false
  resp := 0
  bl := false
  rows := 0
  cols := 0
  font := false
  func := 0
  ctrl := 0
  mode := 0
  phase := .uninitialized
  trace := []
  rspValid := false
  cmdBuf := []
  rstN := true
  cmdIn := []
  waits := .fresh
  acks := .fresh
  bytes := .fresh
  stops := .fresh

end Sys2Proof.Machine
end

