-- ==== Sys2Proof/Machine/Params.lean ====
section
/-! DEFINITION. The implementation parameters of rule R7 (spec/00_scope.md) that the spec gives a value: masks, delays,
command codes, row offsets. "A model should hold them in a configuration record so that an audit can change them in
one place" (U19). The masks (D15) and the command codes (D18) are the spec's decisions from general knowledge (log
entry 16); the delays and the row offsets are the source's. The OPEN parameters stand in Sys2Proof/Config.lean. -/

namespace Sys2Proof.Config

/-! ## Expander byte masks (R100; decision D15) -/

/-- `BIT_RS`: register-select, "mode". -/
def bitRS : Byte := 0x01

/-- `BIT_RW`: read/write. No command sets it on its own (R100). -/
def bitRW : Byte := 0x02

/-- `BIT_EN`: enable. -/
def bitEN : Byte := 0x04

/-- `BIT_BL`: backlight. -/
def bitBL : Byte := 0x08

/-! ## Delays in microseconds, each a minimum (R229) -/

/-- `T_EN_HIGH_US`: after the enable-set send. -/
def tEnHighUs : Nat := 1

/-- `T_EN_LOW_US`: after the enable-clear send. -/
def tEnLowUs : Nat := 50

/-- `T_POWER_US`: at the start of INIT. -/
def tPowerUs : Nat := 40000

/-- `T_INIT1_US`: after the first handshake nibble. -/
def tInit1Us : Nat := 4500

/-- `T_INIT2_US`: after the second handshake nibble. -/
def tInit2Us : Nat := 4500

/-- `T_INIT3_US`: after the third handshake nibble. -/
def tInit3Us : Nat := 150

/-- `T_HOME_US`: after a clear or home command. -/
def tHomeUs : Nat := 2000

/-! ## Logical display bytes (R103, R104; decision D18, the handshake nibbles and row offsets from the source) -/

/-- The three "8-bit interface" handshake nibbles, in expander-byte position (R104). -/
def nibble8Bit : Byte := 0x30

/-- The "switch to 4-bit interface" handshake nibble, in expander-byte position (R104). -/
def nibble4Bit : Byte := 0x20

/-- Clear display. -/
def cmdClear : Byte := 0x01

/-- Return home. -/
def cmdHome : Byte := 0x02

/-- Class code of entry mode set. -/
def classEntryMode : Byte := 0x04

/-- Entry mode `ID`: left to right. -/
def flagLtr : Byte := 0x02

/-- Entry mode `S`: autoscroll. -/
def flagAutoscroll : Byte := 0x01

/-- Class code of display control. -/
def classDisplayControl : Byte := 0x08

/-- Display control `D`: display on. -/
def flagDisplay : Byte := 0x04

/-- Display control `C`: cursor shown. -/
def flagCursor : Byte := 0x02

/-- Display control `B`: cursor blink. -/
def flagBlink : Byte := 0x01

/-- Class code of the shift command, with its "shift the display, not the cursor" bit 0x08. -/
def cmdShiftDisplay : Byte := 0x18

/-- The shift command's `RL`: right. -/
def flagRight : Byte := 0x04

/-- Class code of function set. -/
def classFunctionSet : Byte := 0x20

/-- Function set `N`: more than one line. -/
def flagLines : Byte := 0x08

/-- Function set `F`: tall font. -/
def flagTall : Byte := 0x04

/-- Class code of set CGRAM address. -/
def cmdSetCgram : Byte := 0x40

/-- Class code of set DDRAM address. -/
def cmdSetDdram : Byte := 0x80

/-- `ROW_OFFSET[0..3]`: "hard-codes four rows regardless of configured geometry" (R71). Past `MAX_ROWS` there is no
entry: the value is free, and only a state that no run reaches asks for it (log entry 14). -/
def rowOffset (r : Byte) : Byte :=
  match r.toNat with
  | 0 => 0x00
  | 1 => 0x40
  | 2 => 0x14
  | 3 => 0x54
  | _ => rowOffsetOutside r

end Sys2Proof.Config
end

