-- ==== Sys2Proof/Machine/Operands.lean ====
section
/-! DEFINITION. How operands become the bytes that the block sends: the address byte (R67), nibble assembly (R101), the
backlight mask (R102), the cursor address (R163, R107) and the glyph address (R170), with the tests that rule R94 puts
on operands as each meaning applies them. -/

namespace Sys2Proof.Machine

/-- A boolean operand is above 1: reserved (R94). -/
def badBool (v : Byte) : Bool := 1 < v.toNat

/-- A boolean operand as a flag: bit 0 of 0x00 or 0x01 (R143 `on[0]`, R160 `font[0]`). -/
def flagOf (v : Byte) : Bool := v.getLsbD 0

/-- CONFIGURE's `addr` has bit 7 set: reserved (R120). -/
def badAddr (addr : Byte) : Bool := addr.getLsbD 7

/-- CONFIGURE's `addr[6:0]` (R120). -/
def addrOf (addr : Byte) : BitVec 7 := addr.setWidth 7

/-- INIT's `rows` is 0 or above 4: reserved (R160). -/
def badRows (rows : Byte) : Bool := rows.toNat = 0 || 4 < rows.toNat

/-- The address byte `(ADDR << 1) & 0xFE`, read/write bit 0 (R67). -/
def addrByte (addr : BitVec 7) : Byte := (addr.setWidth 8 <<< 1) &&& 0xFE

/-- `BL ? BIT_BL : 0x00` (R140). -/
def blMask (bl : Bool) : Byte := if bl then Config.bitBL else 0x00

/-- The high nibble of a logical byte with the mode bits, `(v & 0xF0) | m` (R101). -/
def hiNibble (v m : Byte) : Byte := (v &&& 0xF0) ||| m

/-- The low nibble of a logical byte with the mode bits, `((v << 4) & 0xF0) | m` (R101). -/
def loNibble (v m : Byte) : Byte := ((v <<< 4) &&& 0xF0) ||| m

/-- The operand with the enable bit set: the first send of a latch pulse (R141). -/
def enableSet (x : Byte) : Byte := x ||| Config.bitEN

/-- The operand with the enable bit cleared: the second send of a latch pulse (R141). -/
def enableClear (x : Byte) : Byte := x &&& ~~~Config.bitEN

/-- `min(row, ROWS - 1)`, unsigned, the subtraction on 8 bits (R163, R107). -/
def clampRow (row rows : Byte) : Byte := if row.toNat ≤ (rows - 1).toNat then row else rows - 1

/-- SETCURSOR's logical byte, `0x80 | ((col + ROW_OFFSET[r]) mod 256)` (R163). -/
def cursorByte (col row rows : Byte) : Byte := Config.cmdSetDdram ||| (col + Config.rowOffset (clampRow row rows))

/-- LOADGLYPH's address command, `0x40 | ((slot & 0x07) << 3)` (R170). -/
def glyphByte (slot : Byte) : Byte := Config.cmdSetCgram ||| ((slot &&& 0x07) <<< 3)

/-- SCROLL's logical byte: 0x1C right, 0x18 left (R169, R103). -/
def scrollByte (right : Byte) : Byte :=
  if flagOf right then Config.cmdShiftDisplay ||| Config.flagRight else Config.cmdShiftDisplay

end Sys2Proof.Machine
end

