-- ==== Sys2Proof/Machine/Flags.lean ====
section
/-! DEFINITION. The cached command bytes `FUNC`, `CTRL`, `MODE` and their flag fields: rules R37, R38, R39
(spec/10_state.md) and the flag laws of R107. The block has no condition codes (R43). -/

namespace Sys2Proof.Machine

/-- Setting or clearing one flag of a cached byte: `v | f` or `v & ~f` (R107, R164 to R168). -/
def setFlag (f : Byte) (on : Bool) (v : Byte) : Byte := if on then v ||| f else v &&& ~~~f

/-- INIT's function-set byte: `0x20 | (ROWS > 1 ? 0x08 : 0) | ((FONT = 1 and ROWS = 1) ? 0x04 : 0)` (R160, R107). -/
def functionSet (rows : Byte) (font : Bool) : Byte :=
  Config.classFunctionSet ||| (if 1 < rows.toNat then Config.flagLines else 0)
    ||| (if font && rows.toNat = 1 then Config.flagTall else 0)

/-- INIT's display-control byte: display on, cursor off, blink off (R160). -/
def initialCtrl : Byte := Config.classDisplayControl ||| Config.flagDisplay

/-- INIT's entry-mode byte: left to right, no autoscroll (R160). -/
def initialMode : Byte := Config.classEntryMode ||| Config.flagLtr

/-- Whether a cached byte has the flag `f` set. -/
def hasFlag (f v : Byte) : Bool := v &&& f ≠ 0

/-- `FUNC.N`: more than one line (R37). -/
def State.manyLines (s : State) : Bool := hasFlag Config.flagLines s.func

/-- `FUNC.F`: tall font (R37). -/
def State.tallFont (s : State) : Bool := hasFlag Config.flagTall s.func

/-- `CTRL.D`: display on (R38). -/
def State.displayOn (s : State) : Bool := hasFlag Config.flagDisplay s.ctrl

/-- `CTRL.C`: cursor shown (R38). -/
def State.cursorShown (s : State) : Bool := hasFlag Config.flagCursor s.ctrl

/-- `CTRL.B`: cursor blinking (R38). -/
def State.blinking (s : State) : Bool := hasFlag Config.flagBlink s.ctrl

/-- `MODE.ID`: left to right (R39). -/
def State.leftToRight (s : State) : Bool := hasFlag Config.flagLtr s.mode

/-- `MODE.S`: autoscroll (R39). -/
def State.autoscrolling (s : State) : Bool := hasFlag Config.flagAutoscroll s.mode

/-- A command byte of class "function set" with a 4-bit interface, as `FUNC` holds it in Ready: bits 7:5 are 0b001,
`DL` and bits 1:0 are 0 (R37). -/
def isFunctionSet (v : Byte) : Bool := v &&& 0xF3 = Config.classFunctionSet

/-- A command byte of class "display control", as `CTRL` holds it in Ready: bits 7:4 are 0, bit 3 is 1 (R38). -/
def isDisplayControl (v : Byte) : Bool := v &&& 0xF8 = Config.classDisplayControl

/-- A command byte of class "entry mode set", as `MODE` holds it in Ready: bits 7:3 are 0, bit 2 is 1 (R39). -/
def isEntryMode (v : Byte) : Bool := v &&& 0xFC = Config.classEntryMode

end Sys2Proof.Machine
end

