-- ==== Sys2Proof/Machine/Ops.lean ====
section
/-! DEFINITION. The primitives of rule R9 (spec/00_scope.md) over State: register write, `emit`, `wait_done`,
`delay_us`, `draw_bit`, `draw_byte`, `refuse`, `respond`, the three outcomes of a command's body (R10), and what the
bus engine does on its own (R32).

TAKING AN EXCEPTION: there is none to take and none to return from (R200, R210). The two ways a command does not
complete are `Flow.stuck`, made by `waitDone` alone, and `Flow.refused`, made by `require` alone. -/

namespace Sys2Proof.Machine

/-! ## The environment's answers (R45) -/

/-- The next answer of a feed: the oldest given, else the free value of the feed's next number. -/
def Feed.head {α : Type} (free : Nat → α) (f : Feed α) : α :=
  match f.given with
  | a :: _ => a
  | [] => free f.drawn

/-- The feed after its next answer is taken. -/
def Feed.tail {α : Type} (f : Feed α) : Feed α :=
  match f.given with
  | _ :: rest => { given := rest, drawn := f.drawn }
  | [] => { given := [], drawn := f.drawn + 1 }

/-- The feed after `n` answers are taken. -/
def Feed.skip {α : Type} : Nat → Feed α → Feed α
  | 0, f => f
  | n + 1, f => Feed.skip n f.tail

/-- Each of the next `n` answers is `true`. -/
def Feed.allTrue (free : Nat → Bool) : Nat → Feed Bool → Bool
  | 0, _ => true
  | n + 1, f => f.head free && Feed.allTrue free n f.tail

/-- The environment lets each of the next `n` waits end: the premise that R202 asks of every claim that a command
completes. -/
def State.waitsEnd (s : State) (n : Nat) : Bool := s.waits.allTrue Config.waitEnds n

/-! ## Outcomes of a command's body (R10) -/

/-- How a piece of pseudocode ends. -/
inductive Flow where
  /-- It ran to its end. -/
  | done (s : State)
  /-- It waits for ever inside a `wait_done()`, in the state it has reached (R202). -/
  | stuck (s : State)
  /-- The spec gives the case no meaning (R205). -/
  | refused (r : Refusal)
  deriving DecidableEq, Repr

/-- What follows runs only after what precedes has ended ("Nothing after `refuse` executes", R9; a stuck wait never
returns, R9). -/
def Flow.andThen (f : Flow) (g : State → Flow) : Flow :=
  match f with
  | .done s => g s
  | .stuck s => .stuck s
  | .refused r => .refused r

/-- The lines of a command's pseudocode, in order. -/
def steps : List (State → Flow) → State → Flow
  | [], s => .done s
  | f :: fs, s => (f s).andThen (steps fs)

/-- A register write, `REG <- v` (R9). -/
def assign (f : State → State) (s : State) : Flow := .done (f s)

/-- `if … then refuse(r)`, the condition given by what must hold instead (R9, R205). -/
def require (ok : State → Bool) (r : Refusal) (s : State) : Flow := if ok s then .done s else .refused r

/-! ## Trace, waits and delays -/

/-- `emit(e)`: the event goes to the end of the trace (R9, R63). -/
def emit (e : Event) (s : State) : State := { s with trace := s.trace ++ [e] }

/-- The position of the micro-sequencer after one more wait has completed (R23; log entry 19). -/
def USeq.advance : USeq → USeq
  | .idle => .idle
  | .executing cmd n => .executing cmd (n + 1)

/-- The block hands a request to the bus engine and clears the completion flag (R27). -/
def State.request (s : State) : State := { s with done := false }

/-- A wait has ended: the engine has set `DONE` (R27), the environment's answer is used up, the micro-sequencer is one
position on. -/
def State.waitEnded (s : State) : State := { s with done := true, waits := s.waits.tail, useq := s.useq.advance }

/-- The environment has answered that a wait never ends: `DONE` never becomes 1 (R202). -/
def State.waitNever (s : State) : State := { s with waits := s.waits.tail }

/-- `wait_done()` after the request has been handed to the engine (R9, R202): with the peripheral enabled the
environment decides whether it ends; "While `BUS_EN = 0` the engine never sets `DONE`" (R28; log entry 21). -/
def waitDone (s : State) : Flow :=
  if s.busEn then
    if s.waits.head Config.waitEnds then .done s.waitEnded else .stuck s.waitNever
  else .stuck s

/-- The bus engine, on its own, may have finished the pending stop condition (R32); whether it has is the
environment's (log entry 8). -/
def engine (s : State) : State :=
  { s with stopPend := s.stopPend && !s.stops.head Config.stopEnds
           stops := if s.stopPend then s.stops.tail else s.stops }

/-- `delay_us(n)`: `D(n)` is recorded and the engine may finish a pending stop meanwhile (R228, R64). -/
def delayUs (n : Nat) (s : State) : Flow := .done (emit (.delay n) (engine s))

/-! ## A command from start to end (R10, R22, R23) -/

/-- The state in which the body of command `i` starts: `USEQ` at its first position, `rsp_valid` back at 0. -/
def State.begin (i : Instr) (s : State) : State := { s with useq := .executing i 0, rspValid := false }

/-- "When a command completes, `CP <- CP + 1` and the block becomes ready for the next command" (R22). -/
def State.complete (s : State) : State := { s with cp := s.cp + 1, useq := .idle }

/-- The outcome of a command whose body is given. A stuck command "never advances `CP`" (R22): its state stays with
`USEQ` at the wait that never ends (log entry 2). -/
def perform (i : Instr) (body : State → Flow) (s : State) : Host.Outcome State Fault Refusal :=
  match body (s.begin i) with
  | .done t => .next t.complete
  | .stuck t => .next t
  | .refused r => .refused r

end Sys2Proof.Machine
end

