-- ==== Sys2Proof/Machine/BusDriver.lean ====
section
/-! DEFINITION. The BusDriver commands CONFIGURE, START, WBYTE, STOP, RBYTE: rules R120 to R126
(spec/40_busdriver.md). The bodies are written line for line from the rules' pseudocode. -/

namespace Sys2Proof.Machine

/-- The divisor that CONFIGURE loads: "unsupported values are a no-op" (R120; log entry 12). -/
def divisorFor (speed old : Byte) : Byte :=
  if speed = 0x00 then Config.divSlow else if speed = 0x01 then Config.divFast else old

/-- CONFIGURE's register writes (R120). -/
def State.configured (addr speed : Byte) (s : State) : State :=
  { s with addr := addrOf addr, speed := speed, bitrate := divisorFor speed s.bitrate,
           prescale := Config.prescaleFixed, done := false, busEn := true }

/-- The body of CONFIGURE (R120). -/
def configure (addr speed : Byte) : State → Flow :=
  steps [
    require (fun _ => !badAddr addr) (.reservedOperand "addr"),
    require (fun s => !s.busEn) .busConfigImmutable,
    assign (State.configured addr speed)]

/-- The check that no transaction is open: START's own (R121), and what R205 asks of every command above the
BusDriver. -/
def requireClosed : State → Flow := require (fun s => !s.txn) .startInOpenTransaction

/-- What START leaves once its wait has ended: the pending stop is over, since the engine "first finishes a pending
stop", the event is recorded and the transaction is open (R121). -/
def State.started (s : State) : State := emit .start { s with stopPend := false, txn := true }

/-- The body of START (R121). -/
def start : State → Flow :=
  steps [
    requireClosed,
    assign State.request,
    waitDone,
    assign State.started]

/-- "loads the byte into the shift register" (R122, R29). -/
def State.load (b : Byte) (s : State) : State := { s with data := b }

/-- What WBYTE leaves once its wait has ended: the acknowledge bit drawn and kept, the event recorded (R122). -/
def State.wrote (b : Byte) (s : State) : State :=
  emit (.write b) { s with ackRx := s.acks.head Config.ackBit, acks := s.acks.tail }

/-- The body of WBYTE (R122): the acknowledge bit is looked at by nothing. -/
def writeByte (b : Byte) : State → Flow :=
  steps [
    require (fun s => s.txn) .byteOutsideTransaction,
    assign (State.load b),
    assign State.request,
    waitDone,
    assign (State.wrote b)]

/-- What STOP leaves (R123). -/
def State.stopped (s : State) : State := emit .stop { s with done := false, stopPend := true, txn := false }

/-- The body of STOP (R123): it "does not wait for completion". -/
def stop : State → Flow :=
  steps [
    require (fun s => s.txn) .stopOutsideTransaction,
    assign State.stopped]

/-- What RBYTE leaves once its wait has ended: the drawn byte in the shift register, on the response port and in the
trace (R124, R96). -/
def State.received (s : State) : State :=
  emit (.read (s.bytes.head Config.readByte))
    { s with data := s.bytes.head Config.readByte, resp := s.bytes.head Config.readByte,
             bytes := s.bytes.tail, rspValid := true }

/-- The body of RBYTE (R124). -/
def readByte : State → Flow :=
  steps [
    require (fun s => s.txn) .byteOutsideTransaction,
    assign State.request,
    waitDone,
    assign State.received]

/-- CONFIGURE (R120). -/
def execConfigure (addr speed : Byte) (s : State) : Host.Outcome State Fault Refusal :=
  perform (.configure addr speed) (configure addr speed) s

/-- START (R121). -/
def execStart (s : State) : Host.Outcome State Fault Refusal := perform .start start s

/-- WBYTE (R122). -/
def execWbyte (b : Byte) (s : State) : Host.Outcome State Fault Refusal := perform (.wbyte b) (writeByte b) s

/-- STOP (R123). -/
def execStop (s : State) : Host.Outcome State Fault Refusal := perform .stop stop s

/-- RBYTE (R124). -/
def execRbyte (s : State) : Host.Outcome State Fault Refusal := perform .rbyte readByte s

end Sys2Proof.Machine
end

