-- ==== Sys2Proof/Machine/ExpanderFramer.lean ====
section
/-! DEFINITION. The ExpanderFramer commands SENDNIBBLE, PULSELATCH, SENDBYTE, SETBACKLIGHT: rules R140 to R143
(spec/41_expander_framer.md). None of them looks at `PHASE`. -/

namespace Sys2Proof.Machine

/-- The body of SENDNIBBLE (R140): "the sole point where the backlight state is mixed into outgoing data, and the sole
point where a bus transaction boundary is drawn". -/
def sendNibble (x : Byte) (s : State) : Flow :=
  steps [
    start,
    writeByte (addrByte s.addr),
    writeByte (x ||| blMask s.bl),
    stop] s

/-- The body of PULSELATCH (R141). -/
def pulseLatch (x : Byte) : State → Flow :=
  steps [
    sendNibble (enableSet x),
    delayUs Config.tEnHighUs,
    sendNibble (enableClear x),
    delayUs Config.tEnLowUs]

/-- The body of SENDBYTE (R142): high nibble, then low nibble, "in that fixed order". -/
def sendByte (v m : Byte) : State → Flow :=
  steps [
    sendNibble (hiNibble v m),
    pulseLatch (hiNibble v m),
    sendNibble (loNibble v m),
    pulseLatch (loNibble v m)]

/-- `BL <- v` (R143). -/
def State.setBl (v : Bool) (s : State) : State := { s with bl := v }

/-- The body of SETBACKLIGHT (R143): the flag changes before the transaction, which is sent even when it did not
change. -/
def setBacklight (on : Byte) : State → Flow :=
  steps [
    require (fun _ => !badBool on) (.reservedOperand "on"),
    assign (State.setBl (flagOf on)),
    sendNibble 0x00]

/-- SENDNIBBLE (R140). -/
def execSendNibble (x : Byte) (s : State) : Host.Outcome State Fault Refusal :=
  perform (.sendNibble x) (sendNibble x) s

/-- PULSELATCH (R141). -/
def execPulseLatch (x : Byte) (s : State) : Host.Outcome State Fault Refusal :=
  perform (.pulseLatch x) (pulseLatch x) s

/-- SENDBYTE (R142). -/
def execSendByte (v m : Byte) (s : State) : Host.Outcome State Fault Refusal :=
  perform (.sendByte v m) (sendByte v m) s

/-- SETBACKLIGHT (R143). -/
def execSetBacklight (on : Byte) (s : State) : Host.Outcome State Fault Refusal :=
  perform (.setBacklight on) (setBacklight on) s

end Sys2Proof.Machine
end

