-- ==== Sys2Proof/Machine/DisplayController.lean ====
section
/-! DEFINITION. The DisplayController commands INIT, CLEAR, HOME, SETCURSOR, DISPLAY, CURSOR, BLINK, ENTRYDIR,
AUTOSCROLL, SCROLL, LOADGLYPH, PRINT, BACKLIGHT: rules R160 to R172 and R177 (spec/42_display_controller.md). Every one
but INIT begins with the phase check, then its operand checks, then its body (R207). -/

namespace Sys2Proof.Machine

/-- `command(b)` = `call SENDBYTE(b, 0x00)` (spec/42_display_controller.md, before R160). -/
def command (b : Byte) : State → Flow := sendByte b 0x00

/-- `write(b)` = `call SENDBYTE(b, BIT_RS)` (spec/42_display_controller.md, before R160). -/
def writeData (b : Byte) : State → Flow := sendByte b Config.bitRS

/-- `ROWS <- rows ; COLS <- cols ; FONT <- font` (R160). -/
def State.setGeometry (rows cols : Byte) (font : Bool) (s : State) : State :=
  { s with rows := rows, cols := cols, font := font }

/-- `FUNC <- v` (R160). -/
def State.setFunc (v : Byte) (s : State) : State := { s with func := v }

/-- `CTRL <- v` (R160, R164 to R166). -/
def State.setCtrl (v : Byte) (s : State) : State := { s with ctrl := v }

/-- `MODE <- v` (R160, R167, R168). -/
def State.setMode (v : Byte) (s : State) : State := { s with mode := v }

/-- `PHASE <- Ready` (R160). -/
def State.setReady (s : State) : State := { s with phase := .ready }

/-- The phase check of R177. -/
def requireReady : State → Flow := require (fun s => s.phase = .ready) .displayNotInitialised

/-- The check of a boolean operand (R94). -/
def requireBool (name : String) (v : Byte) : State → Flow := require (fun _ => !badBool v) (.reservedOperand name)

/-- One nibble transfer: SENDNIBBLE, then PULSELATCH, of the same byte (R11, R102). -/
def nibbleTransfer (x : Byte) : State → Flow := steps [sendNibble x, pulseLatch x]

/-- The body of CLEAR (R161), which INIT calls too. -/
def clearBody : State → Flow := steps [command Config.cmdClear, delayUs Config.tHomeUs]

/-- The body of HOME (R162), which INIT calls too. -/
def homeBody : State → Flow := steps [command Config.cmdHome, delayUs Config.tHomeUs]

/-- The power-on handshake of INIT: the wait, the forced backlight, the four nibbles with their settle delays (R160). -/
def handshake : State → Flow :=
  steps [
    delayUs Config.tPowerUs,
    setBacklight 0x01,
    nibbleTransfer Config.nibble8Bit, delayUs Config.tInit1Us,
    nibbleTransfer Config.nibble8Bit, delayUs Config.tInit2Us,
    nibbleTransfer Config.nibble8Bit, delayUs Config.tInit3Us,
    nibbleTransfer Config.nibble4Bit]

/-- The body of INIT (R160). -/
def initialize4Bit (rows cols font : Byte) : State → Flow :=
  steps [
    require (fun _ => !badRows rows) (.reservedOperand "rows"),
    requireBool "font" font,
    assign (State.setGeometry rows cols (flagOf font)),
    handshake,
    assign (fun s => s.setFunc (functionSet s.rows s.font)),
    fun s => command s.func s,
    assign (State.setCtrl initialCtrl),
    fun s => command s.ctrl s,
    clearBody,
    assign (State.setMode initialMode),
    fun s => command s.mode s,
    homeBody,
    assign State.setReady]

/-- CLEAR with its phase check (R161, R177). -/
def clear : State → Flow := steps [requireReady, clearBody]

/-- HOME with its phase check (R162, R177). -/
def home : State → Flow := steps [requireReady, homeBody]

/-- SETCURSOR (R163): the row is clamped silently, the column is not looked at. -/
def setCursor (col row : Byte) : State → Flow :=
  steps [requireReady, fun s => command (cursorByte col row s.rows) s]

/-- A display-control toggle: one flag of `CTRL` set or cleared, and the whole byte sent at once, "never left pending"
(R164 to R166). -/
def controlFlag (f on : Byte) : State → Flow :=
  steps [
    requireReady,
    requireBool "on" on,
    assign (fun s => s.setCtrl (setFlag f (flagOf on) s.ctrl)),
    fun s => command s.ctrl s]

/-- An entry-mode toggle: one flag of `MODE` set or cleared, and the whole byte sent at once (R167, R168). -/
def modeFlag (name : String) (f on : Byte) : State → Flow :=
  steps [
    requireReady,
    requireBool name on,
    assign (fun s => s.setMode (setFlag f (flagOf on) s.mode)),
    fun s => command s.mode s]

/-- SCROLL (R169): no register changes. -/
def scroll (right : Byte) : State → Flow :=
  steps [requireReady, requireBool "right" right, command (scrollByte right)]

/-- `write(p)` for each byte of a list, in order (R170). -/
def writeAll : List Byte → State → Flow
  | [], s => .done s
  | p :: ps, s => (writeData p s).andThen (writeAll ps)

/-- LOADGLYPH (R170): the set-CGRAM-address command, then the eight pattern bytes as data. -/
def loadGlyph (slot : Byte) (pattern : List Byte) : State → Flow :=
  steps [requireReady, command (glyphByte slot), writeAll pattern]

/-- PRINT's loop: each character as data, each followed by the inter-character delay (R171). -/
def printAll : List Byte → State → Flow
  | [], s => .done s
  | c :: cs, s => (steps [writeData c, delayUs Config.tCharUs] s).andThen (printAll cs)

/-- PRINT (R171). R205 refuses "any ExpanderFramer or DisplayController command when `TXN = 1`"; the first START of the
others is what refuses them (R125), and a PRINT of no characters has none, so PRINT checks for itself (log entry 22). -/
def print (cs : List Byte) : State → Flow := steps [requireReady, requireClosed, printAll cs]

/-- BACKLIGHT: the phase check, then SETBACKLIGHT (R172). -/
def backlight (on : Byte) : State → Flow := steps [requireReady, setBacklight on]

/-- INIT (R160): accepted in both phases. -/
def execInit (rows cols font : Byte) (s : State) : Host.Outcome State Fault Refusal :=
  perform (.init rows cols font) (initialize4Bit rows cols font) s

/-- CLEAR (R161). -/
def execClear (s : State) : Host.Outcome State Fault Refusal := perform .clear clear s

/-- HOME (R162). -/
def execHome (s : State) : Host.Outcome State Fault Refusal := perform .home home s

/-- SETCURSOR (R163). -/
def execSetCursor (col row : Byte) (s : State) : Host.Outcome State Fault Refusal :=
  perform (.setCursor col row) (setCursor col row) s

/-- DISPLAY (R164). -/
def execDisplay (on : Byte) (s : State) : Host.Outcome State Fault Refusal :=
  perform (.display on) (controlFlag Config.flagDisplay on) s

/-- CURSOR (R165). -/
def execCursor (on : Byte) (s : State) : Host.Outcome State Fault Refusal :=
  perform (.cursor on) (controlFlag Config.flagCursor on) s

/-- BLINK (R166). -/
def execBlink (on : Byte) (s : State) : Host.Outcome State Fault Refusal :=
  perform (.blink on) (controlFlag Config.flagBlink on) s

/-- ENTRYDIR (R167). -/
def execEntryDir (ltr : Byte) (s : State) : Host.Outcome State Fault Refusal :=
  perform (.entryDir ltr) (modeFlag "ltr" Config.flagLtr ltr) s

/-- AUTOSCROLL (R168). -/
def execAutoscroll (on : Byte) (s : State) : Host.Outcome State Fault Refusal :=
  perform (.autoscroll on) (modeFlag "on" Config.flagAutoscroll on) s

/-- SCROLL (R169). -/
def execScroll (right : Byte) (s : State) : Host.Outcome State Fault Refusal :=
  perform (.scroll right) (scroll right) s

/-- LOADGLYPH (R170). -/
def execLoadGlyph (slot p0 p1 p2 p3 p4 p5 p6 p7 : Byte) (s : State) : Host.Outcome State Fault Refusal :=
  perform (.loadGlyph slot p0 p1 p2 p3 p4 p5 p6 p7) (loadGlyph slot [p0, p1, p2, p3, p4, p5, p6, p7]) s

/-- PRINT (R171). -/
def execPrint (cs : List Byte) (s : State) : Host.Outcome State Fault Refusal := perform (.print cs) (print cs) s

/-- BACKLIGHT (R172). -/
def execBacklight (on : Byte) (s : State) : Host.Outcome State Fault Refusal :=
  perform (.backlight on) (backlight on) s

end Sys2Proof.Machine
end

