-- ==== Sys2Proof/Machine/Dispatch.lean ====
section
/-! DEFINITION. The dispatch of the 22 commands (R92) to their meanings, one arm a command. -/

namespace Sys2Proof.Machine

def exec (i : Instr) (s : State) : Host.Outcome State Fault Refusal :=
  match i with
  -- BusDriver (spec/40_busdriver.md)
  | .configure addr speed => Sys2Proof.Machine.execConfigure addr speed s
  | .start => Sys2Proof.Machine.execStart s
  | .wbyte b => Sys2Proof.Machine.execWbyte b s
  | .stop => Sys2Proof.Machine.execStop s
  | .rbyte => Sys2Proof.Machine.execRbyte s
  -- ExpanderFramer (spec/41_expander_framer.md)
  | .sendNibble x => Sys2Proof.Machine.execSendNibble x s
  | .pulseLatch x => Sys2Proof.Machine.execPulseLatch x s
  | .sendByte v m => Sys2Proof.Machine.execSendByte v m s
  | .setBacklight on => Sys2Proof.Machine.execSetBacklight on s
  -- DisplayController (spec/42_display_controller.md)
  | .init rows cols font => Sys2Proof.Machine.execInit rows cols font s
  | .clear => Sys2Proof.Machine.execClear s
  | .home => Sys2Proof.Machine.execHome s
  | .setCursor col row => Sys2Proof.Machine.execSetCursor col row s
  | .display on => Sys2Proof.Machine.execDisplay on s
  | .cursor on => Sys2Proof.Machine.execCursor on s
  | .blink on => Sys2Proof.Machine.execBlink on s
  | .entryDir ltr => Sys2Proof.Machine.execEntryDir ltr s
  | .autoscroll on => Sys2Proof.Machine.execAutoscroll on s
  | .scroll right => Sys2Proof.Machine.execScroll right s
  | .loadGlyph slot p0 p1 p2 p3 p4 p5 p6 p7 => Sys2Proof.Machine.execLoadGlyph slot p0 p1 p2 p3 p4 p5 p6 p7 s
  | .print cs => Sys2Proof.Machine.execPrint cs s
  | .backlight on => Sys2Proof.Machine.execBacklight on s

end Sys2Proof.Machine
end

