-- ==== Sys2Proof/WellFormed.lean ====
section
/-! DEFINITION. Which commands the spec gives a meaning as encodings: the operand table of rule R94
(spec/30_encoding.md). -/

namespace Sys2Proof

/-- A boolean operand's legal values: 0x00 and 0x01; "0x02 to 0xFF: reserved" (R94). -/
def legalBool (v : Byte) : Bool := v.toNat ≤ 1

/-- CONFIGURE's `addr` is a 7-bit address: "0x00 to 0x7F" (R94). -/
def legalAddr (v : Byte) : Bool := v.toNat < 0x80

/-- INIT's `rows`: "0x01 to 0x04" (R94). -/
def legalRows (v : Byte) : Bool := 1 ≤ v.toNat && v.toNat ≤ 4

/-- PRINT's count `n` is one byte: "0 to 255" (R94). -/
def legalCount (cs : List Byte) : Bool := cs.length ≤ 255

/-- A command that has an encoding: every command but a PRINT of more than 255 characters (R93 format CV). -/
def Instr.encodable : Instr → Bool
  | .print cs => legalCount cs
  | .configure _ _ | .start | .wbyte _ | .stop | .rbyte
  | .sendNibble _ | .pulseLatch _ | .sendByte _ _ | .setBacklight _
  | .init _ _ _ | .clear | .home | .setCursor _ _ | .display _ | .cursor _ | .blink _
  | .entryDir _ | .autoscroll _ | .scroll _ | .loadGlyph _ _ _ _ _ _ _ _ _ | .backlight _ => true

/-- A command whose every operand has a legal value (R94). -/
def Instr.wellFormed : Instr → Bool
  | .configure addr _ => legalAddr addr
  | .start => true
  | .wbyte _ => true
  | .stop => true
  | .rbyte => true
  | .sendNibble _ => true
  | .pulseLatch _ => true
  | .sendByte _ _ => true
  | .setBacklight on => legalBool on
  | .init rows _ font => legalRows rows && legalBool font
  | .clear => true
  | .home => true
  | .setCursor _ _ => true
  | .display on => legalBool on
  | .cursor on => legalBool on
  | .blink on => legalBool on
  | .entryDir ltr => legalBool ltr
  | .autoscroll on => legalBool on
  | .scroll right => legalBool right
  | .loadGlyph _ _ _ _ _ _ _ _ _ => true
  | .print cs => legalCount cs
  | .backlight on => legalBool on

end Sys2Proof
end

