-- ==== Sys2Proof/Decode.lean ====
section
/-! DEFINITION. The command encoding of rules R92 to R95 (spec/30_encoding.md): the decoder, total on every list of
bytes, then the encoder. A command is its opcode byte followed by its operand bytes; nothing else changes decoding
(R93: "no prefixes, no compressed forms and no mode that changes decoding"). -/

namespace Sys2Proof

/-- What the decoder finds at the front of the bytes that the host has presented. -/
inductive Decoded where
  /-- A whole command, and the bytes after it. -/
  | command (i : Instr) (rest : List Byte)
  /-- The bytes are a proper beginning of a command (none at all included): more operand bytes must come (R90). -/
  | incomplete
  /-- The first byte is none of the 22 opcodes of R92 (R95). -/
  | reserved (opcode : Byte)
  deriving DecidableEq, Repr

/-- Format C1 of R93: one operand byte. -/
def decode1 (f : Byte → Instr) : List Byte → Decoded
  | a :: rest => .command (f a) rest
  | [] => .incomplete

/-- Format C2 of R93: two operand bytes. -/
def decode2 (f : Byte → Byte → Instr) : List Byte → Decoded
  | a :: b :: rest => .command (f a b) rest
  | _ => .incomplete

/-- Format C3 of R93: three operand bytes. -/
def decode3 (f : Byte → Byte → Byte → Instr) : List Byte → Decoded
  | a :: b :: c :: rest => .command (f a b c) rest
  | _ => .incomplete

/-- Format C9 of R93: `slot`, then `p0` to `p7`. -/
def decode9 (f : Byte → Byte → Byte → Byte → Byte → Byte → Byte → Byte → Byte → Instr) : List Byte → Decoded
  | a :: p0 :: p1 :: p2 :: p3 :: p4 :: p5 :: p6 :: p7 :: rest => .command (f a p0 p1 p2 p3 p4 p5 p6 p7) rest
  | _ => .incomplete

/-- The first `n` bytes and the bytes after them; none where there are fewer than `n`. -/
def splitBytes : Nat → List Byte → Option (List Byte × List Byte)
  | 0, bs => some ([], bs)
  | _ + 1, [] => none
  | n + 1, b :: bs =>
    match splitBytes n bs with
    | some (cs, rest) => some (b :: cs, rest)
    | none => none

/-- Format CV of R93: the count `n`, then `n` bytes (the length is "known from byte 1"). -/
def decodeV (f : List Byte → Instr) : List Byte → Decoded
  | n :: bs =>
    match splitBytes n.toNat bs with
    | some (cs, rest) => .command (f cs) rest
    | none => .incomplete
  | [] => .incomplete

/-- The decoder: the opcode column of R92, each opcode with its format. Every other opcode byte is reserved (R95). -/
def decode : List Byte → Decoded
  | [] => .incomplete
  | op :: rest =>
    match op.toNat with
    | 0x01 => decode2 .configure rest
    | 0x02 => .command .start rest
    | 0x03 => decode1 .wbyte rest
    | 0x04 => .command .stop rest
    | 0x05 => .command .rbyte rest
    | 0x11 => decode1 .sendNibble rest
    | 0x12 => decode1 .pulseLatch rest
    | 0x13 => decode2 .sendByte rest
    | 0x14 => decode1 .setBacklight rest
    | 0x20 => decode3 .init rest
    | 0x21 => .command .clear rest
    | 0x22 => .command .home rest
    | 0x23 => decode2 .setCursor rest
    | 0x24 => decode1 .display rest
    | 0x25 => decode1 .cursor rest
    | 0x26 => decode1 .blink rest
    | 0x27 => decode1 .entryDir rest
    | 0x28 => decode1 .autoscroll rest
    | 0x29 => decode1 .scroll rest
    | 0x2A => decode9 .loadGlyph rest
    | 0x2B => decodeV .print rest
    | 0x2C => decode1 .backlight rest
    | _ => .reserved op

/-- The opcode column of R92. -/
def opcode : Instr → Byte
  | .configure _ _ => 0x01
  | .start => 0x02
  | .wbyte _ => 0x03
  | .stop => 0x04
  | .rbyte => 0x05
  | .sendNibble _ => 0x11
  | .pulseLatch _ => 0x12
  | .sendByte _ _ => 0x13
  | .setBacklight _ => 0x14
  | .init _ _ _ => 0x20
  | .clear => 0x21
  | .home => 0x22
  | .setCursor _ _ => 0x23
  | .display _ => 0x24
  | .cursor _ => 0x25
  | .blink _ => 0x26
  | .entryDir _ => 0x27
  | .autoscroll _ => 0x28
  | .scroll _ => 0x29
  | .loadGlyph _ _ _ _ _ _ _ _ _ => 0x2A
  | .print _ => 0x2B
  | .backlight _ => 0x2C

/-- The operand bytes, "in the order of rule R92's 'operands' column" (R93). -/
def operands : Instr → List Byte
  | .configure addr speed => [addr, speed]
  | .start => []
  | .wbyte b => [b]
  | .stop => []
  | .rbyte => []
  | .sendNibble x => [x]
  | .pulseLatch x => [x]
  | .sendByte v m => [v, m]
  | .setBacklight on => [on]
  | .init rows cols font => [rows, cols, font]
  | .clear => []
  | .home => []
  | .setCursor col row => [col, row]
  | .display on => [on]
  | .cursor on => [on]
  | .blink on => [on]
  | .entryDir ltr => [ltr]
  | .autoscroll on => [on]
  | .scroll right => [right]
  | .loadGlyph slot p0 p1 p2 p3 p4 p5 p6 p7 => [slot, p0, p1, p2, p3, p4, p5, p6, p7]
  | .print cs => BitVec.ofNat 8 cs.length :: cs
  | .backlight on => [on]

/-- The bytes of a command on the command port: "one opcode byte, then operand bytes" (R93). -/
def encode (i : Instr) : List Byte := opcode i :: operands i

/-- The bytes of a program, a list of commands in order of arrival (R21). -/
def encodeProgram : List Instr → List Byte
  | [] => []
  | i :: rest => encode i ++ encodeProgram rest

/-- The low `k` bytes of a number, the least significant first. -/
def littleEndianBytes : Nat → Nat → List Byte
  | 0, _ => []
  | k + 1, w => BitVec.ofNat 8 w :: littleEndianBytes k (w / 256)

/-- The longest command in bytes: a PRINT of 255 characters (R93: 2 + n). -/
def longestCommand : Nat := 257

/-- The bytes of a table word: its `nbits` bits in whole bytes, first byte in bits 7..0, then zeros up to the longest
command. -/
def tableWordBytes (nbits w : Nat) : List Byte := littleEndianBytes longestCommand (w % 2 ^ nbits)

/-- The command that the decoder reads from a word of spec/opcode_table.json; none where it refuses. -/
def decodeTableWord (nbits w : Nat) : Option Instr :=
  match decode (tableWordBytes nbits w) with
  | .command i _ => some i
  | .incomplete => none
  | .reserved _ => none

/-- The bytes of the one command that a table word holds, without the zeros after it; where the decoder refuses the
word, its own bytes. -/
def tableCommandBytes (nbits w : Nat) : List Byte :=
  match decode (tableWordBytes nbits w) with
  | .command i _ => encode i
  | .incomplete => littleEndianBytes ((nbits + 7) / 8) (w % 2 ^ nbits)
  | .reserved _ => littleEndianBytes ((nbits + 7) / 8) (w % 2 ^ nbits)

end Sys2Proof
end

