-- ==== Sys2Proof/Machine/Port.lean ====
section
/-! DEFINITION. The block's ports: the host command port (R90), the other outputs (R91, R96, R73), what the host can do
to the block (R236) and reset (R220). -/

namespace Sys2Proof.Machine

/-! ## Outputs -/

/-- `USEQ` is idle. -/
def USeq.isIdle : USeq → Bool
  | .idle => true
  | .executing _ _ => false

/-- `busy`: "1 while a command is executing (`USEQ` not idle)" (R91). -/
def State.busy (s : State) : Bool := !s.useq.isIdle

/-- `cmd_ready`: 0 during reset (R220) and from a command's last byte until it completes (R90). -/
def State.cmdReady (s : State) : Bool := s.rstN && s.useq.isIdle

/-- `rsp_data` is `RESP` (R91, R96). -/
def State.rspData (s : State) : Byte := s.resp

/-- Both bus lines are released "whenever `TXN = 0` and `STOP_PEND = 0`" (R73). -/
def State.linesReleased (s : State) : Bool := !s.txn && !s.stopPend

/-! ## What the host does (R236) -/

/-- The host presents more bytes on the command port, after those it presents already (R90). -/
def State.present (bs : List Byte) (s : State) : State := { s with cmdIn := s.cmdIn ++ bs }

/-- The host drives `rst_n` (R90, R220): `true` is 1, released. -/
def State.driveReset (level : Bool) (s : State) : State := { s with rstN := level }

/-! ## Taking bytes (R90) -/

/-- The bytes of the command stream that the block has not executed: those it has taken, then those the host
presents. -/
def State.arrived (s : State) : List Byte := s.cmdBuf ++ s.cmdIn

/-- The state in which a command whose last byte has just been taken starts; `rest` are the bytes after it. -/
def State.take (rest : List Byte) (s : State) : State := { s with cmdBuf := [], cmdIn := rest }

/-- The block takes every presented byte and waits for more: they do not make a whole command (log entry 9). With
nothing presented it idles (R46: "the block idles until the first command"). Time passes, so `rsp_valid` is over
(R96). -/
def State.takeAll (s : State) : State := { s with cmdBuf := s.arrived, cmdIn := [], rspValid := false }

/-! ## Reset (R220) -/

/-- While `rst_n = 0`: every register, the trace and the response port at their reset values; the host's inputs and
the environment's answers are not the block's to reset (log entry 5). -/
def State.holdReset (s : State) : State :=
  { State.reset with rstN := s.rstN, cmdIn := s.cmdIn, waits := s.waits, acks := s.acks, bytes := s.bytes,
                     stops := s.stops }

end Sys2Proof.Machine
end

