-- ==== Sys2Proof/Machine/Step.lean ====
section
/-! DEFINITION. One step of the block, and the placing of a table word where the step takes its next command from. The
block fetches from no memory (R72): its commands are the bytes that the host presents (R90, log entry 6). -/

namespace Sys2Proof.Machine

/-- One step. In reset, the registers stay at their reset values (R220). A command that waits for ever waits on
(R202), the engine alone going on (R32). Otherwise the block takes the next whole command from the port and executes it
(R90); without one it waits for the host; a reserved opcode byte has no meaning (R95). -/
def step (s : State) : Host.Outcome State Fault Refusal :=
  if s.rstN then
    match s.useq with
    | .executing _ _ => .next (engine s)
    | .idle =>
      match decode s.arrived with
      | .command i rest => exec i ((engine s).take rest)
      | .incomplete => .next (engine s).takeAll
      | .reserved op => .refused (.reservedOpcode op)
  else .next s.holdReset

/-- `s` with the command of a table word presented first on the command port, and the block ready to take it: reset
released, sequencer idle, no half-taken command (log entry 6). -/
def State.withFetchWord (s : State) (nbits w : Nat) : State :=
  { s with rstN := true, useq := .idle, cmdBuf := [], cmdIn := tableCommandBytes nbits w ++ s.cmdIn }

end Sys2Proof.Machine
end

