-- ==== Sys2Proof/Machine/Assembly.lean ====
section
/-! DEFINITION. The assembly syntax of rule R97 (spec/30_encoding.md, decision D36), in which test programs are
written: one command a line, operands separated by commas, `;` starts a comment, PRINT may take a string, three
pseudo-commands. No part of the block: `assembleLine` turns the text of a line into the command it stands for. -/

namespace Sys2Proof.Machine

/-! ## Pseudo-commands (R97) -/

/-- `COMMAND v` stands for `SENDBYTE v, 0x00`. -/
def pseudoCommand (v : Byte) : Instr := .sendByte v 0x00

/-- `WRITE v` stands for `SENDBYTE v, 0x01`. -/
def pseudoWrite (v : Byte) : Instr := .sendByte v 0x01

/-- `PUTC c` stands for `PRINT 1, c`. -/
def pseudoPutc (c : Byte) : Instr := .print [c]

/-- A character's 7-bit ASCII code; none above it (R97, G8). -/
def asciiOf (c : Char) : Option Byte := if c.toNat < 128 then some (BitVec.ofNat 8 c.toNat) else none

/-- The codes of a string's characters; none where one has none. -/
def asciiBytes : List Char → Option (List Byte)
  | [] => some []
  | c :: cs =>
    match asciiOf c, asciiBytes cs with
    | some b, some bs => some (b :: bs)
    | _, _ => none

/-! ## Lexing -/

/-- The text without its comment; a `;` inside a double-quoted string starts none (log entry 25). -/
def stripComment : Bool → List Char → List Char
  | _, [] => []
  | quoted, c :: cs =>
    if c = ';' && !quoted then [] else c :: stripComment (if c = '"' then !quoted else quoted) cs

/-- A space or a tab. -/
def isBlank (c : Char) : Bool := c = ' ' || c = '\t'

/-- The text without blanks at either end. -/
def trim (cs : List Char) : List Char := ((cs.dropWhile isBlank).reverse.dropWhile isBlank).reverse

/-- The pieces of a text between its commas. -/
def splitCommas : List Char → List (List Char)
  | [] => [[]]
  | c :: cs =>
    if c = ',' then [] :: splitCommas cs
    else
      match splitCommas cs with
      | piece :: more => (c :: piece) :: more
      | [] => [[c]]

/-- The value of a digit in a base up to 16; none for another character. -/
def digitOf (c : Char) : Option Nat :=
  if '0' ≤ c && c ≤ '9' then some (c.toNat - '0'.toNat)
  else if 'A' ≤ c && c ≤ 'F' then some (c.toNat - 'A'.toNat + 10)
  else if 'a' ≤ c && c ≤ 'f' then some (c.toNat - 'a'.toNat + 10)
  else none

/-- The number that digits stand for after a value read so far; none where a digit is not of the base. -/
def digitsFrom (base : Nat) : Nat → List Char → Option Nat
  | acc, [] => some acc
  | acc, c :: cs =>
    match digitOf c with
    | some d => if d < base then digitsFrom base (acc * base + d) cs else none
    | none => none

/-- A number of one byte, hexadecimal after `0x` or decimal (R97). -/
def byteOf (cs : List Char) : Option Byte :=
  let n := match cs with
    | '0' :: 'x' :: d :: ds => digitsFrom 16 0 (d :: ds)
    | d :: ds => digitsFrom 10 0 (d :: ds)
    | [] => none
  match n with
  | some k => if k < 256 then some (BitVec.ofNat 8 k) else none
  | none => none

/-- The operands of a line: none at all, or numbers separated by commas. -/
def operandBytes (cs : List Char) : Option (List Byte) :=
  if trim cs = [] then some [] else (splitCommas cs).mapM fun piece => byteOf (trim piece)

/-! ## Commands -/

/-- The command of a mnemonic (R92) or pseudo-command with its operand bytes; none where their number is wrong.
PRINT's first operand is the count of those after it. -/
def commandOf (mnemonic : String) (ops : List Byte) : Option Instr :=
  match mnemonic, ops with
  | "CONFIGURE", [addr, speed] => some (.configure addr speed)
  | "START", [] => some .start
  | "WBYTE", [b] => some (.wbyte b)
  | "STOP", [] => some .stop
  | "RBYTE", [] => some .rbyte
  | "SENDNIBBLE", [x] => some (.sendNibble x)
  | "PULSELATCH", [x] => some (.pulseLatch x)
  | "SENDBYTE", [v, m] => some (.sendByte v m)
  | "SETBACKLIGHT", [on] => some (.setBacklight on)
  | "INIT", [rows, cols, font] => some (.init rows cols font)
  | "CLEAR", [] => some .clear
  | "HOME", [] => some .home
  | "SETCURSOR", [col, row] => some (.setCursor col row)
  | "DISPLAY", [on] => some (.display on)
  | "CURSOR", [on] => some (.cursor on)
  | "BLINK", [on] => some (.blink on)
  | "ENTRYDIR", [ltr] => some (.entryDir ltr)
  | "AUTOSCROLL", [on] => some (.autoscroll on)
  | "SCROLL", [right] => some (.scroll right)
  | "LOADGLYPH", [slot, p0, p1, p2, p3, p4, p5, p6, p7] => some (.loadGlyph slot p0 p1 p2 p3 p4 p5 p6 p7)
  | "PRINT", n :: cs => if cs.length = n.toNat then some (.print cs) else none
  | "BACKLIGHT", [on] => some (.backlight on)
  | "COMMAND", [v] => some (pseudoCommand v)
  | "WRITE", [v] => some (pseudoWrite v)
  | "PUTC", [c] => some (pseudoPutc c)
  | _, _ => none

/-- The string operand of `PRINT "…"`: what stands between two double quotes, with no third. -/
def quotedOf : List Char → Option (List Char)
  | '"' :: cs =>
    match cs.reverse with
    | '"' :: rev => if rev.contains '"' then none else some rev.reverse
    | _ => none
  | _ => none

/-- What a line of a program is. -/
inductive AsmLine where
  /-- Nothing, or a comment alone. -/
  | blank
  /-- One command. -/
  | command (i : Instr)
  /-- Not of the syntax of R97. -/
  | error
  deriving DecidableEq, Repr

/-- One line of a program (R97). -/
def assembleLine (line : List Char) : AsmLine :=
  let text := trim (stripComment false line)
  if text = [] then .blank
  else
    let word := text.takeWhile fun c => !isBlank c
    let rest := trim (text.dropWhile fun c => !isBlank c)
    let found :=
      match quotedOf rest with
      | some cs =>
        if word = "PRINT".toList then
          match asciiBytes cs with
          | some bs => if bs.length ≤ 255 then some (.print bs) else none
          | none => none
        else none
      | none =>
        match operandBytes rest with
        | some ops => commandOf (String.ofList word) ops
        | none => none
    match found with
    | some i => .command i
    | none => .error

end Sys2Proof.Machine
end

