-- ==== Sys2Proof/Machine/Reading.lean ====
section
/-! DEFINITION. Reading a trace (spec/20_memory.md): the framing language of R125, the expander's output latch of R75,
what the display latches by R77, the counts and the least delay of R144 and R175, and the events of each command.
Nothing here is part of the step: these are the functions in which claims about a trace are stated. -/

namespace Sys2Proof.Machine

/-! ## Framing (R66, R125) -/

/-- One event of the language `( S (W | R)* P )*`, `D` events left out: `some open` is a well-framed beginning with a
transaction open or not, `none` one that leaves the language (R125). -/
def Event.frame : Option Bool → Event → Option Bool
  | some false, .start => some true
  | some true, .write _ => some true
  | some true, .read _ => some true
  | some true, .stop => some false
  | p, .delay _ => p
  | _, _ => none

/-- Whether a trace is a word of R125's language, and whether it ends inside a transaction. -/
def framing (t : List Event) : Option Bool := t.foldl Event.frame (some false)

/-- Whether an event is waited for: START, WBYTE and RBYTE each wait, STOP and delays do not (R27, R64). -/
def Event.waited : Event → Bool
  | .start | .write _ | .read _ => true
  | .stop | .delay _ => false

/-- The events of a trace before the one whose wait is number `k`, counted from 0: what stands in the trace when that
wait never ends ("the events before the stuck wait stay in `TRACE`", R140). -/
def beforeWait : Nat → List Event → List Event
  | _, [] => []
  | k, e :: t =>
    if e.waited then
      match k with
      | 0 => []
      | k + 1 => e :: beforeWait k t
    else e :: beforeWait k t

/-- A trace of whole transactions `S, W(a), W(b), P` and delays alone, `a` being the address byte: the only shape that
the ExpanderFramer produces (R66). -/
def isBusWrites (a : Byte) : List Event → Bool
  | [] => true
  | .delay _ :: t => isBusWrites a t
  | .start :: .write a' :: .write _ :: .stop :: t => a' = a && isBusWrites a t
  | _ => false

/-! ## The expander's outputs (R75) -/

/-- Where in the bus traffic a trace stands, as the target at one address sees it. -/
inductive BusPos where
  /-- Outside a transaction. -/
  | closed
  /-- After a start condition, before the address byte. -/
  | opened
  /-- In a write transaction to the target. -/
  | addressed
  /-- In a transaction to something else. -/
  | elsewhere
  deriving DecidableEq, Repr

/-- The position after an event, for the target whose address byte is `a`. -/
def BusPos.after (a : Byte) : BusPos → Event → BusPos
  | _, .start => .opened
  | _, .stop => .closed
  | .opened, .write b => if b = a then .addressed else .elsewhere
  | p, _ => p

/-- The bytes that the target whose address byte is `a` receives: "each further `W(b)` of that transaction sets the
expander's eight outputs to `b`" (R75). -/
def targetBytes (a : Byte) : BusPos → List Event → List Byte
  | _, [] => []
  | p, e :: t =>
    match p, e with
    | .addressed, .write b => b :: targetBytes a .addressed t
    | _, _ => targetBytes a (p.after a e) t

/-- The expander's outputs after a trace: the last byte it received, none where it has received none and they are as
the block's reset found them (R221). -/
def expanderOutputs (a : Byte) (t : List Event) : Option Byte := (targetBytes a .closed t).getLast?

/-! ## The trace of each kind of send, as the rules write it out, with the rules' own numbers -/

/-- `BusWrite(ADDR, b)`: `S, W({ADDR,0}), W(b), P` (R9, R66). -/
def busWriteEvents (addr : BitVec 7) (b : Byte) : List Event :=
  [.start, .write (addrByte addr), .write b, .stop]

/-- SENDNIBBLE's four events (R140). -/
def sendNibbleEvents (addr : BitVec 7) (bl : Bool) (x : Byte) : List Event :=
  busWriteEvents addr (x ||| blMask bl)

/-- PULSELATCH's ten events (R141). -/
def pulseLatchEvents (addr : BitVec 7) (bl : Bool) (x : Byte) : List Event :=
  sendNibbleEvents addr bl (x ||| 0x04) ++ [.delay 1]
    ++ sendNibbleEvents addr bl (x &&& 0xFB) ++ [.delay 50]

/-- One nibble transfer's fourteen events (R102). -/
def nibbleTransferEvents (addr : BitVec 7) (bl : Bool) (x : Byte) : List Event :=
  sendNibbleEvents addr bl x ++ pulseLatchEvents addr bl x

/-- SENDBYTE's twenty-eight events: the high nibble's transfer, then the low nibble's (R142). -/
def sendByteEvents (addr : BitVec 7) (bl : Bool) (v m : Byte) : List Event :=
  nibbleTransferEvents addr bl (hiNibble v m) ++ nibbleTransferEvents addr bl (loNibble v m)

/-- `command(b)`'s events. -/
def commandEvents (addr : BitVec 7) (bl : Bool) (b : Byte) : List Event := sendByteEvents addr bl b 0x00

/-- `write(b)`'s events. -/
def dataEvents (addr : BitVec 7) (bl : Bool) (b : Byte) : List Event := sendByteEvents addr bl b Config.bitRS

/-- PRINT's events: each character's, each followed by the inter-character delay (R171). -/
def printEvents (addr : BitVec 7) (bl : Bool) (cs : List Byte) : List Event :=
  cs.flatMap fun c => dataEvents addr bl c ++ [.delay Config.tCharUs]

/-- LOADGLYPH's events: the address command, then the pattern bytes as data (R170). -/
def loadGlyphEvents (addr : BitVec 7) (bl : Bool) (slot : Byte) (pattern : List Byte) : List Event :=
  commandEvents addr bl (glyphByte slot) ++ pattern.flatMap (dataEvents addr bl)

/-- CLEAR's and HOME's events: the command byte, then the long delay (R161, R162). -/
def homingEvents (addr : BitVec 7) (bl : Bool) (b : Byte) : List Event :=
  commandEvents addr bl b ++ [.delay 2000]

/-- The handshake part of INIT's events, the backlight being on from its first transaction on (R160). -/
def handshakeEvents (addr : BitVec 7) : List Event :=
  [.delay 40000] ++ sendNibbleEvents addr true 0x00
    ++ nibbleTransferEvents addr true 0x30 ++ [.delay 4500]
    ++ nibbleTransferEvents addr true 0x30 ++ [.delay 4500]
    ++ nibbleTransferEvents addr true 0x30 ++ [.delay 150]
    ++ nibbleTransferEvents addr true 0x20

/-- INIT's 206 events (R160). -/
def initEvents (addr : BitVec 7) (rows : Byte) (font : Bool) : List Event :=
  handshakeEvents addr ++ commandEvents addr true (functionSet rows font)
    ++ commandEvents addr true 0x0C ++ homingEvents addr true 0x01
    ++ commandEvents addr true 0x06 ++ homingEvents addr true 0x02

/-! ## What the display latches (R76, R77) -/

/-- A latched nibble: register-select (`true` = data) and the four data lines. -/
abbrev Latched := Bool × BitVec 4

/-- The register-select line and the data lines of an expander byte (R77). -/
def latchOf (b : Byte) : Latched := (hasFlag Config.bitRS b, b.extractLsb' 4 4)

/-- `latched` of R77 over the bytes the expander receives, `prev` being the byte before them: a nibble is latched
where the enable bit falls. -/
def latchFrom : Byte → List Byte → List Latched
  | _, [] => []
  | prev, b :: bs =>
    if hasFlag Config.bitEN prev && !hasFlag Config.bitEN b then latchOf b :: latchFrom b bs else latchFrom b bs

/-- `latched(TRACE)` of R77 for the target whose address byte is `a`, from an expander whose enable line is low. -/
def latched (a : Byte) (t : List Event) : List Latched := latchFrom 0 (targetBytes a .closed t)

/-- "Pairing successive outputs ... as `(high << 4) | low` with equal `rs` gives back the logical display bytes"
(R77). A pair whose halves differ in `rs` is no logical byte and is left out. -/
def pairNibbles : List Latched → List (Bool × Byte)
  | (rs, h) :: (rs', l) :: rest => if rs = rs' then (rs, h ++ l) :: pairNibbles rest else pairNibbles rest
  | _ => []

/-- The pieces of a trace between the handshakes `hs` that stand in it; the number says how many events of a handshake
are still to be passed over. There is one piece more than there are handshakes. -/
def betweenHandshakes (hs : List Event) : Nat → List Event → List (List Event)
  | _, [] => [[]]
  | k + 1, _ :: t => betweenHandshakes hs k t
  | 0, e :: t =>
    if hs.isPrefixOf (e :: t) then [] :: betweenHandshakes hs (hs.length - 1) t
    else
      match betweenHandshakes hs 0 t with
      | piece :: more => (e :: piece) :: more
      | [] => [[e]]

/-- The pieces of a trace between the handshakes of INITs that the block at `addr` ran: nothing but INIT produces the
events of a handshake, whatever `T_CHAR_US` is (log entry 23). -/
def piecesOf (addr : BitVec 7) (t : List Event) : List (List Event) := betweenHandshakes (handshakeEvents addr) 0 t

/-- The logical bytes that a trace delivers to the display: R77's pairing, "(after the four handshake nibbles of
INIT)". Each handshake's own nibbles belong to no logical byte (R42), and pairing starts afresh after it. -/
def logicalBytes (addr : BitVec 7) (t : List Event) : List (Bool × Byte) :=
  (piecesOf addr t).flatMap fun piece => pairNibbles (latched (addrByte addr) piece)

/-- The last command byte among logical bytes that is of a class. -/
def lastOfClass (isClass : Byte → Bool) (l : List (Bool × Byte)) : Option Byte :=
  ((l.filter fun x => !x.1 && isClass x.2).map Prod.snd).getLast?

/-! ## Counts and least delay (R144, R175) -/

/-- The number of transactions, counted by their start conditions. -/
def transactions (t : List Event) : Nat := t.countP (· = .start)

/-- The minimum duration that an event stands for, in microseconds. -/
def Event.minimumUs : Event → Nat
  | .delay n => n
  | .start | .write _ | .read _ | .stop => 0

/-- The least total delay of a trace, in microseconds (R144, R175, R238). -/
def leastDelayUs (t : List Event) : Nat := (t.map Event.minimumUs).sum

/-! ## What a trace says of the bus registers -/

/-- The shift register after a trace, from its value before: the last byte written or read (R29). -/
def dataAfter (d : Byte) (t : List Event) : Byte :=
  t.foldl (fun d e => match e with | .write b => b | .read v => v | .start | .stop | .delay _ => d) d

/-- The completion flag after a trace, from its value before: "after a completed START, WBYTE or RBYTE, `DONE = 1`;
after STOP ... `DONE = 0`" (R27). -/
def doneAfter (d : Bool) (t : List Event) : Bool :=
  t.foldl (fun d e => match e with | .start | .write _ | .read _ => true | .stop => false | .delay _ => d) d

/-- The number of bytes written, each of which has drawn one acknowledge bit (R62). -/
def writesIn (t : List Event) : Nat :=
  t.countP fun e => match e with | .write _ => true | .start | .read _ | .stop | .delay _ => false

/-! ## The events of each command -/

/-- The events that a command appends when it runs from state `s` to its end, as its rule lists them (R120 to R124, R140
to R143, R160 to R172). -/
def eventsOf (s : State) : Instr → List Event
  | .configure _ _ => []
  | .start => [.start]
  | .wbyte b => [.write b]
  | .stop => [.stop]
  | .rbyte => [.read (s.bytes.head Config.readByte)]
  | .sendNibble x => sendNibbleEvents s.addr s.bl x
  | .pulseLatch x => pulseLatchEvents s.addr s.bl x
  | .sendByte v m => sendByteEvents s.addr s.bl v m
  | .setBacklight on => sendNibbleEvents s.addr (decide (on = 1)) 0x00
  | .init rows _ font => initEvents s.addr rows (decide (font = 1))
  | .clear => homingEvents s.addr s.bl 0x01
  | .home => homingEvents s.addr s.bl 0x02
  | .setCursor col row => commandEvents s.addr s.bl (cursorByte col row s.rows)
  | .display on => commandEvents s.addr s.bl (if on = 1 then s.ctrl ||| 0x04 else s.ctrl &&& 0xFB)
  | .cursor on => commandEvents s.addr s.bl (if on = 1 then s.ctrl ||| 0x02 else s.ctrl &&& 0xFD)
  | .blink on => commandEvents s.addr s.bl (if on = 1 then s.ctrl ||| 0x01 else s.ctrl &&& 0xFE)
  | .entryDir ltr => commandEvents s.addr s.bl (if ltr = 1 then s.mode ||| 0x02 else s.mode &&& 0xFD)
  | .autoscroll on => commandEvents s.addr s.bl (if on = 1 then s.mode ||| 0x01 else s.mode &&& 0xFE)
  | .scroll right => commandEvents s.addr s.bl (if right = 1 then 0x1C else 0x18)
  | .loadGlyph slot p0 p1 p2 p3 p4 p5 p6 p7 => loadGlyphEvents s.addr s.bl slot [p0, p1, p2, p3, p4, p5, p6, p7]
  | .print cs => printEvents s.addr s.bl cs
  | .backlight on => sendNibbleEvents s.addr (decide (on = 1)) 0x00

end Sys2Proof.Machine
end

