-- ==== Sys2Proof/Machine/Timing.lean ====
section
/-! DEFINITION. Time: every delay is a lower bound and there is no upper bound (R228, R238, U16); the delay unit rounds
microseconds up to clock cycles (R211, decision D30). State carries no time: this file says which times of issue a
trace allows. -/

namespace Sys2Proof.Machine

/-- A trace with the time, in microseconds, at which each event was issued. -/
abbrev TimedTrace := List (Nat × Event)

/-- The times respect every minimum: `t` is the earliest time at which the next event may be issued; after `D(n)` it is
`n` microseconds later than `D(n)` itself (R228), after any other event no earlier than that event (R63). -/
def respectsDelays : Nat → TimedTrace → Bool
  | _, [] => true
  | t, (at_, e) :: rest => t ≤ at_ && respectsDelays (at_ + e.minimumUs) rest

/-- The clock cycles for which the delay unit stalls for `n` microseconds: "round up, never down" (R211). -/
def delayCycles (n : Nat) : Nat := (n * Config.clkHz + 999999) / 1000000

end Sys2Proof.Machine
end

