-- ==== Sys2Proof/Machine/Wires.lean ====
section
/-! DEFINITION. Below the trace: the two lines (R73) and each event on them (R74, decision D14, general knowledge). The
step does not use this file: the wires are a function of the trace and of what the environment answered. A level is
`true` for 1, a released line. -/

namespace Sys2Proof.Machine

/-- The levels of the two bus lines at one moment (R73). -/
structure Lines where
  scl : Bool
  sda : Bool
  deriving DecidableEq, Repr

/-- Both lines released (R73). -/
def Lines.released : Lines := ⟨true, true⟩

/-- One clock pulse with the data line at a level: SCL 0, then 1, then 0 (R74). -/
def pulse (sda : Bool) : List Lines := [⟨false, sda⟩, ⟨true, sda⟩, ⟨false, sda⟩]

/-- The bits of a byte, most significant first (R68 (a)). -/
def bitsMsbFirst (b : Byte) : List Bool :=
  [b.getLsbD 7, b.getLsbD 6, b.getLsbD 5, b.getLsbD 4, b.getLsbD 3, b.getLsbD 2, b.getLsbD 1, b.getLsbD 0]

/-- The level of SDA in the ninth pulse of a received byte: driven to 0 "if `READ_ACK` says acknowledge", else
released (R74). -/
def readAckLevel : Bool := !Config.readAck

/-- An event on the wires (R74). `ack` is the acknowledge bit that the target gave to a written byte, 0 for
acknowledged (R30); the other events do not use it. -/
def wave (ack : Bool) : Event → List Lines
  | .start => [⟨true, true⟩, ⟨true, false⟩, ⟨false, false⟩]
  | .write b => (bitsMsbFirst b ++ [ack]).flatMap pulse
  | .read v => (bitsMsbFirst v ++ [readAckLevel]).flatMap pulse
  | .stop => [⟨false, false⟩, ⟨true, false⟩, ⟨true, true⟩]
  | .delay _ => []

/-- The levels of SDA at the rising edges of SCL: what a receiver clocks in. -/
def sampled : List Lines → List Bool
  | a :: b :: rest => if !a.scl && b.scl then b.sda :: sampled (b :: rest) else sampled (b :: rest)
  | _ => []

/-- A start condition in a wave: SDA falls while SCL is 1 (R74). -/
def startConditions : List Lines → Nat
  | a :: b :: rest => (if a.scl && b.scl && a.sda && !b.sda then 1 else 0) + startConditions (b :: rest)
  | _ => 0

/-- A stop condition in a wave: SDA rises while SCL is 1 (R74). -/
def stopConditions : List Lines → Nat
  | a :: b :: rest => (if a.scl && b.scl && !a.sda && b.sda then 1 else 0) + stopConditions (b :: rest)
  | _ => 0

/-- The wave of a trace, given the acknowledge bit of each event. -/
def waveOf (t : List (Event × Bool)) : List Lines := t.flatMap fun x => wave x.2 x.1

end Sys2Proof.Machine
end

