-- ==== Sys2Proof/Safety.lean ====
section
/-! DEFINITION. The terms in which claims are made: how a command ended (R10), what stayed the same (R47), when a run
ends (R21), which states a run can reach, and the invariants of the block. -/

namespace Sys2Proof.Machine

/-! ## How a command ended (R10) -/

/-- Command `i` from `s` completed in `t`: outcome (a) of R10, with `CP` advanced and the sequencer idle (R22). -/
def Completes (i : Instr) (s t : State) : Prop :=
  exec i s = .next t ∧ t.cp = s.cp + 1 ∧ t.useq = .idle

/-- Command `i` from `s` is stuck in `t` after `k` of its waits: outcome (b) of R10, `CP` not advanced (R22). -/
def Hangs (i : Instr) (s : State) (k : Nat) (t : State) : Prop :=
  exec i s = .next t ∧ t.cp = s.cp ∧ t.useq = .executing i k

/-- The bus is configured, no transaction is open, and the environment lets each of the next `n` waits end: what a
command of `n` waits above the BusDriver needs to run to its end (R125, R126, R202). -/
def BusReady (s : State) (n : Nat) : Prop := s.busEn = true ∧ s.txn = false ∧ s.waitsEnd n = true

/-- Commands `i` and `j` end alike from `s`: each completes exactly where the other does and in the same state, is
refused for the same reasons, and is stuck at the same wait with the same trace. -/
def EndAlike (i j : Instr) (s : State) : Prop :=
  (∀ t, Completes i s t ↔ Completes j s t) ∧
  (∀ r, exec i s = .refused r ↔ exec j s = .refused r) ∧
  (∀ k tr, (∃ t, Hangs i s k t ∧ t.trace = tr) ↔ ∃ t, Hangs j s k t ∧ t.trace = tr)

/-! ## What stayed the same (R47) -/

/-- The BusConfig registers (R24 to R26, R28). -/
def SameBusConfig (s t : State) : Prop :=
  t.addr = s.addr ∧ t.speed = s.speed ∧ t.bitrate = s.bitrate ∧ t.prescale = s.prescale ∧ t.busEn = s.busEn

/-- The geometry and the function byte (R35 to R37). -/
def SameGeometry (s t : State) : Prop :=
  t.rows = s.rows ∧ t.cols = s.cols ∧ t.font = s.font ∧ t.func = s.func

/-- The DisplayController's registers (R35 to R40). -/
def SameDisplay (s t : State) : Prop :=
  SameGeometry s t ∧ t.ctrl = s.ctrl ∧ t.mode = s.mode ∧ t.phase = s.phase

/-- The host's inputs and the half-taken command (R90). -/
def SameInputs (s t : State) : Prop := t.rstN = s.rstN ∧ t.cmdIn = s.cmdIn ∧ t.cmdBuf = s.cmdBuf

/-- The response port and what it is fed from; a command other than RBYTE leaves `rsp_valid` at 0 (R96). -/
def SameResponse (s t : State) : Prop := t.resp = s.resp ∧ t.bytes = s.bytes ∧ t.rspValid = false

/-- The trace only grew (R63). -/
def TraceGrows (s t : State) : Prop := s.trace <+: t.trace

/-- What a command of the upper layers leaves alone besides the registers its rule names (R47): everything but the
bus registers `DATA`, `DONE`, `ACK_RX`, `TXN`, `STOP_PEND`, the trace, `CP` and `USEQ`. -/
def SameButBus (s t : State) : Prop :=
  SameBusConfig s t ∧ SameResponse s t ∧ SameInputs s t ∧ TraceGrows s t

/-- What a command that only sends has done when it has completed: it appended `evs` and nothing else to the trace
after `n` waits, the shift register, `DONE` and the acknowledge bits went along with them, no transaction is open, and
the configuration, the response port and the inputs are as before. -/
structure AfterSending (n : Nat) (evs : List Event) (s t : State) : Prop where
  trace : t.trace = s.trace ++ evs
  data : t.data = dataAfter s.data evs
  done : t.done = doneAfter s.done evs
  txn : t.txn = false
  waits : t.waits = s.waits.skip n
  acks : t.acks = s.acks.skip (writesIn evs)
  config : SameBusConfig s t
  response : SameResponse s t
  inputs : SameInputs s t

/-! ## Runs (R21) -/

/-- `n` steps, as long as each gives a next state. -/
def runSteps : Nat → State → Host.Outcome State Fault Refusal
  | 0, s => .next s
  | n + 1, s =>
    match step s with
    | .next t => runSteps n t
    | .fault f => .fault f
    | .refused r => .refused r

/-- A run of a program of `n` commands has ended: "when `CP = n` and no command is executing" (R21). -/
def RunEnded (n : Nat) (s : State) : Prop := s.cp = n ∧ s.useq = .idle

/-- The states that the block can be in: reset with any answers of the environment to come, any step, and between
steps anything the host may do to its inputs (R90, R220, R236). -/
inductive Reachable : State → Prop where
  | reset (w a : Feed Bool) (b : Feed Byte) (e : Feed Bool) :
      Reachable { State.reset with waits := w, acks := a, bytes := b, stops := e }
  | step {s t : State} : Reachable s → step s = .next t → Reachable t
  | host {s : State} (level : Bool) (bs : List Byte) : Reachable s → Reachable { s with rstN := level, cmdIn := bs }

/-! ## Invariants -/

/-- The bus registers: the trace is framed as R125 says and `TXN` tells whether it ends inside a transaction; `TXN = 1`
implies `BUS_EN = 1` (R126); a pending stop belongs to a closed transaction on an enabled peripheral (R32, R123);
`DONE = 1` only inside a transaction (R27), and between commands inside one `DONE = 1` (R27); a command that waits for
ever has `DONE = 0` (R202). -/
structure BusInv (s : State) : Prop where
  framed : framing s.trace = some s.txn
  txn_enabled : s.txn = true → s.busEn = true
  stop_enabled : s.stopPend = true → s.busEn = true ∧ s.txn = false
  done_txn : s.done = true → s.txn = true
  idle_done : s.useq = .idle → s.txn = true → s.done = true
  stuck_done : s.useq ≠ .idle → s.done = false

/-- The display registers: in Ready the peripheral is enabled, the row count indexes the offset table (R35, R163) and
each cached byte is of its class (R37, R38, R39); in Ready with no command executing `FUNC` is INIT's function of the
geometry (R160); before any INIT has begun, that is in Uninitialized with no command executing, every display register
still has its reset value (R46). -/
structure DisplayInv (s : State) : Prop where
  ready_enabled : s.phase = .ready → s.busEn = true
  ready_rows : s.phase = .ready → 1 ≤ s.rows.toNat ∧ s.rows.toNat ≤ 4
  ready_func : s.phase = .ready → isFunctionSet s.func = true
  ready_ctrl : s.phase = .ready → isDisplayControl s.ctrl = true
  ready_mode : s.phase = .ready → isEntryMode s.mode = true
  idle_func : s.phase = .ready → s.useq = .idle → s.func = functionSet s.rows s.font
  idle_unset : s.phase = .uninitialized → s.useq = .idle →
    s.rows = 0 ∧ s.cols = 0 ∧ s.font = false ∧ s.func = 0 ∧ s.ctrl = 0 ∧ s.mode = 0

/-- The ports: what has been taken is a proper beginning of a command (R90), and while `rsp_valid` is 1 the shift
register and `RESP` hold the same byte (R96, R124). -/
structure PortInv (s : State) : Prop where
  half_taken : decode s.cmdBuf = .incomplete
  valid_idle : s.rspValid = true → s.useq = .idle ∧ s.resp = s.data

/-- Before CONFIGURE nothing has reached the bus: the configuration is at its reset values and the trace holds delays
only (R126, R120). -/
structure ConfigInv (s : State) : Prop where
  unset : s.busEn = false → s.addr = 0 ∧ s.speed = 0 ∧ s.bitrate = 0 ∧ s.prescale = 0
  quiet : s.busEn = false → ∀ e ∈ s.trace, ∃ n, e = .delay n

/-- The invariants of the block, all together. -/
structure Inv (s : State) : Prop where
  bus : BusInv s
  display : DisplayInv s
  port : PortInv s
  config : ConfigInv s

/-! ## The cache invariant (R41) -/

/-- The logical bytes that the block has sent to the target at `ADDR` since reset (R77). -/
def State.sentBytes (s : State) : List (Bool × Byte) := logicalBytes s.addr s.trace

/-- The nibbles that the target at `ADDR` has latched since the last handshake of an INIT, or since reset. -/
def State.lastNibbles (s : State) : List Latched := latched (addrByte s.addr) ((piecesOf s.addr s.trace).getLastD [])

/-- The bytes that the target at `ADDR` has received since reset. -/
def State.busBytes (s : State) : List Byte := targetBytes (addrByte s.addr) .closed s.trace

/-- A command byte of the class "function set", whatever its fields: bits 7:5 are 0b001 (R37). -/
def functionSetClass (v : Byte) : Bool := v &&& 0xE0 = Config.classFunctionSet

/-- R41's cache invariant, read off the trace: each cached byte is "the last logical command byte of its class that the
block sent". -/
def CacheCurrent (s : State) : Prop :=
  lastOfClass functionSetClass s.sentBytes = some s.func ∧
  lastOfClass isDisplayControl s.sentBytes = some s.ctrl ∧
  lastOfClass isEntryMode s.sentBytes = some s.mode

/-- The trace stands at the boundary of a logical byte: no transaction is open, the nibbles latched since the last
handshake pair up, and the enable line is low (R231). -/
def ByteBoundary (s : State) : Prop :=
  framing s.trace = some false ∧ 2 ∣ s.lastNibbles.length ∧ hasFlag Config.bitEN (s.busBytes.getLast?.getD 0) = false

/-! ## Kinds of command -/

/-- The commands of the DisplayController (R92, layer 2). -/
def isDisplayCommand : Instr → Bool
  | .init _ _ _ | .clear | .home | .setCursor _ _ | .display _ | .cursor _ | .blink _ | .entryDir _
  | .autoscroll _ | .scroll _ | .loadGlyph _ _ _ _ _ _ _ _ _ | .print _ | .backlight _ => true
  | .configure _ _ | .start | .wbyte _ | .stop | .rbyte | .sendNibble _ | .pulseLatch _ | .sendByte _ _
  | .setBacklight _ => false

/-- The commands to which the phase check of R177 applies: the DisplayController's but INIT. -/
def isPhaseChecked : Instr → Bool
  | .clear | .home | .setCursor _ _ | .display _ | .cursor _ | .blink _ | .entryDir _ | .autoscroll _ | .scroll _
  | .loadGlyph _ _ _ _ _ _ _ _ _ | .print _ | .backlight _ => true
  | .configure _ _ | .start | .wbyte _ | .stop | .rbyte | .sendNibble _ | .pulseLatch _ | .sendByte _ _
  | .setBacklight _ | .init _ _ _ => false

/-- The commands above the BusDriver: those of the ExpanderFramer and the DisplayController (R92, layers 1 and 2). -/
def isUpperCommand : Instr → Bool
  | .sendNibble _ | .pulseLatch _ | .sendByte _ _ | .setBacklight _ | .init _ _ _ | .clear | .home | .setCursor _ _
  | .display _ | .cursor _ | .blink _ | .entryDir _ | .autoscroll _ | .scroll _ | .loadGlyph _ _ _ _ _ _ _ _ _
  | .print _ | .backlight _ => true
  | .configure _ _ | .start | .wbyte _ | .stop | .rbyte => false

/-- The rows of R205's table that speak of a command `i` in a state `s`: a reserved operand value; CONFIGURE with the bus
enabled; START or any command above the BusDriver with a transaction open, WBYTE, RBYTE or STOP with none; a
DisplayController command but INIT in Uninitialized. -/
def RefusedCase (i : Instr) (s : State) : Prop :=
  i.wellFormed = false ∨
  ((∃ addr speed, i = .configure addr speed) ∧ s.busEn = true) ∨
  ((i = .start ∨ isUpperCommand i = true) ∧ s.txn = true) ∨
  (((∃ b, i = .wbyte b) ∨ i = .rbyte ∨ i = .stop) ∧ s.txn = false) ∨
  (isPhaseChecked i = true ∧ s.phase = .uninitialized)

/-- The commands that begin with a START, directly or by a call: those of the ExpanderFramer and the DisplayController
(R125), but for a PRINT of no characters, which sends nothing (R171; log entry 22). -/
def opensTransaction : Instr → Bool
  | .print cs => !cs.isEmpty
  | .sendNibble _ | .pulseLatch _ | .sendByte _ _ | .setBacklight _ | .init _ _ _ | .clear | .home | .setCursor _ _
  | .display _ | .cursor _ | .blink _ | .entryDir _ | .autoscroll _ | .scroll _ | .loadGlyph _ _ _ _ _ _ _ _ _
  | .backlight _ => true
  | .configure _ _ | .start | .wbyte _ | .stop | .rbyte => false

/-- The commands that write no register of the ExpanderFramer or the DisplayController (R47's rows for SENDNIBBLE,
PULSELATCH, SENDBYTE and CLEAR, HOME, SCROLL, LOADGLYPH, PRINT, SETCURSOR). -/
def isPlainSend : Instr → Bool
  | .sendNibble _ | .pulseLatch _ | .sendByte _ _ | .clear | .home | .setCursor _ _ | .scroll _
  | .loadGlyph _ _ _ _ _ _ _ _ _ | .print _ => true
  | .configure _ _ | .start | .wbyte _ | .stop | .rbyte | .setBacklight _ | .init _ _ _ | .display _ | .cursor _
  | .blink _ | .entryDir _ | .autoscroll _ | .backlight _ => false

/-! ## States that differ in what nothing reads -/

/-- `s` with another acknowledge bit received and other acknowledge bits to come (R30). -/
def State.withAcks (bit : Bool) (coming : Feed Bool) (s : State) : State := { s with ackRx := bit, acks := coming }

/-- `s` with other values of the registers that no rule reads: `SPEED`, `BITRATE`, `PRESCALE`, `COLS` (R25, R26, R35). -/
def State.withUnread (speed bitrate : Byte) (prescale : BitVec 2) (cols : Byte) (s : State) : State :=
  { s with speed := speed, bitrate := bitrate, prescale := prescale, cols := cols }

end Sys2Proof.Machine
end

