-- ==== Sys2Proof/Certificates/Slice0/Obligations.lean ====
section
/-! DEFINITION. The statements about the model, one `Obligations.<Name>` each; OBLIGATIONS.json says of each which rule
of the spec it formalises. Numbers stand in them as the rules write them, so that a wrong constant of the model makes
a statement false. Free values of the environment and OPEN parameters stand in them only under universal quantifiers
(the answers in State) or by name. -/

open Sys2Proof Sys2Proof.Machine

/-! ## Encoding -/

/-- Words written out from R92 and R93: for each of the 22 opcodes, its bytes decode to the command they stand for. -/
def Obligations.SpecBytesDecodeToTheirCommands : Prop :=
  decode [0x01, 0x27, 0x00] = .command (.configure 0x27 0x00) [] ∧
  decode [0x02, 0x04] = .command .start [0x04] ∧
  decode [0x03, 0x4E] = .command (.wbyte 0x4E) [] ∧
  decode [0x04] = .command .stop [] ∧
  decode [0x05] = .command .rbyte [] ∧
  decode [0x11, 0x30] = .command (.sendNibble 0x30) [] ∧
  decode [0x12, 0x34, 0x21] = .command (.pulseLatch 0x34) [0x21] ∧
  decode [0x13, 0x48, 0x01] = .command (.sendByte 0x48 0x01) [] ∧
  decode [0x14, 0x01] = .command (.setBacklight 0x01) [] ∧
  decode [0x20, 0x02, 0x10, 0x00] = .command (.init 2 16 0) [] ∧
  decode [0x21] = .command .clear [] ∧
  decode [0x22] = .command .home [] ∧
  decode [0x23, 0x05, 0x01, 0x2B, 0x02, 0x48, 0x69] = .command (.setCursor 5 1) [0x2B, 0x02, 0x48, 0x69] ∧
  decode [0x24, 0x00] = .command (.display 0x00) [] ∧
  decode [0x25, 0x01] = .command (.cursor 0x01) [] ∧
  decode [0x26, 0x01] = .command (.blink 0x01) [] ∧
  decode [0x27, 0x00] = .command (.entryDir 0x00) [] ∧
  decode [0x28, 0x01] = .command (.autoscroll 0x01) [] ∧
  decode [0x29, 0x01] = .command (.scroll 0x01) [] ∧
  decode [0x2A, 0x01, 0x00, 0x0A, 0x1F, 0x1F, 0x0E, 0x04, 0x00, 0x00] =
    .command (.loadGlyph 1 0x00 0x0A 0x1F 0x1F 0x0E 0x04 0x00 0x00) [] ∧
  decode [0x2B, 0x02, 0x48, 0x69] = .command (.print [0x48, 0x69]) [] ∧
  decode [0x2C, 0x00] = .command (.backlight 0x00) [] ∧
  decode [0x2B, 0x02, 0x48] = .incomplete ∧
  decode [0x2D] = .reserved 0x2D

/-- Decoding the encoding of any command that has one gives it back, with every operand, whatever follows. -/
def Obligations.DecodeOfEncodeIsTheCommand : Prop :=
  ∀ (i : Instr) (rest : List Byte), i.encodable = true → decode (encode i ++ rest) = .command i rest

/-- The decoder reads a command only from that command's own encoding: no byte sequence has two readings. -/
def Obligations.DecodedBytesAreTheEncoding : Prop :=
  ∀ (bs : List Byte) (i : Instr) (rest : List Byte), decode bs = .command i rest →
    bs = encode i ++ rest ∧ i.encodable = true

/-- The reserved opcodes are exactly those that R95 lists, whatever bytes follow. -/
def Obligations.ReservedOpcodesAreExactlyThoseListed : Prop :=
  ∀ (op : Byte) (rest : List Byte), decode (op :: rest) = .reserved op ↔
    op.toNat = 0x00 ∨ (0x06 ≤ op.toNat ∧ op.toNat ≤ 0x10) ∨ (0x15 ≤ op.toNat ∧ op.toNat ≤ 0x1F) ∨ 0x2D ≤ op.toNat

/-- The pseudo-commands of R97 encode to the bytes of the command each stands for. -/
def Obligations.PseudoCommandsStandForOneCommand : Prop :=
  ∀ v : Byte, encode (pseudoCommand v) = [0x13, v, 0x00] ∧ encode (pseudoWrite v) = [0x13, v, 0x01] ∧
    encode (pseudoPutc v) = [0x2B, 0x01, v]

/-! ## Reset and the step -/

/-- The table of R46 and the ports of R220, at the state after reset. -/
def Obligations.ResetLeavesTheListedValues : Prop :=
  let s := State.reset
  s.cp = 0 ∧ s.useq = .idle ∧ s.addr = 0 ∧ s.speed = 0 ∧ s.bitrate = 0 ∧ s.prescale = 0 ∧ s.busEn = false ∧
  s.done = false ∧ s.data = 0 ∧ s.ackRx = false ∧ s.txn = false ∧ s.stopPend = false ∧ s.resp = 0 ∧ s.bl = false ∧
  s.rows = 0 ∧ s.cols = 0 ∧ s.font = false ∧ s.func = 0 ∧ s.ctrl = 0 ∧ s.mode = 0 ∧ s.phase = .uninitialized ∧
  s.trace = [] ∧ s.busy = false ∧ s.cmdReady = true ∧ s.rspValid = false ∧ s.rspData = 0 ∧ s.linesReleased = true

/-- Reset may be asserted in every state, a stuck one too, and puts every register, the trace and the response port at
its reset value, `cmd_ready` being 0; when it is released the block takes commands again. The model's choice: the bytes
of a half-presented command are forgotten and the presented ones stay (log entry 5), the environment's answers stay
(log entry 4). -/
def Obligations.ResetWorksFromEveryState : Prop :=
  ∀ s : State, ∃ t, step (s.driveReset false) = .next t ∧ t.cmdReady = false ∧ t.busy = false ∧
    t.driveReset true = { State.reset with cmdIn := s.cmdIn, waits := s.waits, acks := s.acks, bytes := s.bytes,
                                           stops := s.stops } ∧
    (t.driveReset true).cmdReady = true

/-- A step of an idle block out of reset takes the next whole command from the port and executes it: when the bytes
that have arrived begin with the encoding of a command, the step is that command's meaning, in the state that has taken
those bytes and in which the engine may have finished a pending stop. -/
def Obligations.StepRunsTheDecodedCommand : Prop :=
  ∀ (s : State) (i : Instr) (rest : List Byte), s.rstN = true → s.useq = .idle → i.encodable = true →
    s.cmdBuf ++ s.cmdIn = encode i ++ rest →
    step s = exec i { engine s with cmdBuf := [], cmdIn := rest }

/-- With no whole command arrived the block keeps what it has taken, and is ready and idle; no register of R20 but
`STOP_PEND`, no event: nothing changes. That one step takes every presented byte at once is the model's choice (log
entry 9). A reserved opcode byte has no meaning. -/
def Obligations.StepWaitsForAWholeCommand : Prop :=
  ∀ s : State, s.rstN = true → s.useq = .idle →
    (decode (s.cmdBuf ++ s.cmdIn) = .incomplete →
      ∃ t, step s = .next t ∧ t.cmdBuf = s.cmdBuf ++ s.cmdIn ∧ t.cmdIn = [] ∧ t.cmdReady = true ∧ t.cp = s.cp ∧
        t.trace = s.trace ∧ t.txn = s.txn ∧ t.done = s.done ∧ t.data = s.data ∧ t.ackRx = s.ackRx ∧
        t.resp = s.resp ∧ t.bl = s.bl ∧ SameBusConfig s t ∧ SameDisplay s t ∧
        (s.stopPend = false → t.stopPend = false)) ∧
    (∀ op, decode (s.cmdBuf ++ s.cmdIn) = .reserved op → step s = .refused (.reservedOpcode op))

/-- A stuck block stays stuck: whatever number of steps it takes with reset released, it stays busy in the same command
at the same wait and takes no byte, and no register but `STOP_PEND` changes. -/
def Obligations.StuckForEverUntilReset : Prop :=
  ∀ (s : State) (i : Instr) (k n : Nat), s.rstN = true → s.useq = .executing i k →
    ∃ t, runSteps n s = .next t ∧ t.useq = .executing i k ∧ t.cmdReady = false ∧ t.busy = true ∧
      t.cmdIn = s.cmdIn ∧ t.cmdBuf = s.cmdBuf ∧ t.cp = s.cp ∧ t.trace = s.trace ∧ t.txn = s.txn ∧ t.done = s.done ∧
      t.data = s.data ∧ t.ackRx = s.ackRx ∧ t.resp = s.resp ∧ t.bl = s.bl ∧ SameBusConfig s t ∧ SameDisplay s t

/-- No step faults, and no step is refused but in the cases of R205's table: a reserved opcode byte, and the listed
cases of the command that has arrived. In those every step is refused; in every other state, in reset, waiting, stuck
or with any other command arrived, the step gives a next state. -/
def Obligations.EveryStepGoesOnButForTheListedRefusals : Prop :=
  ∀ s : State,
    let refusable : Prop := s.rstN = true ∧ s.useq = .idle ∧
      ((∃ op, decode (s.cmdBuf ++ s.cmdIn) = .reserved op) ∨
        ∃ i rest, decode (s.cmdBuf ++ s.cmdIn) = .command i rest ∧ RefusedCase i s)
    (refusable → ∃ r, step s = .refused r) ∧ (¬ refusable → ∃ t, step s = .next t)

/-! ## BusDriver commands -/

/-- CONFIGURE: its refusals, and otherwise the registers it writes; an unsupported speed keeps the divisor. -/
def Obligations.ConfigureWritesTheBusConfig : Prop :=
  ∀ (addr speed : Byte) (s : State),
    (0x80 ≤ addr.toNat → exec (.configure addr speed) s = .refused (.reservedOperand "addr")) ∧
    (addr.toNat < 0x80 → s.busEn = true → exec (.configure addr speed) s = .refused .busConfigImmutable) ∧
    (addr.toNat < 0x80 → s.busEn = false → ∃ t, Completes (.configure addr speed) s t ∧
      t.addr.toNat = addr.toNat ∧ t.speed = speed ∧ t.prescale = Config.prescaleFixed ∧ t.busEn = true ∧
      t.done = false ∧ t.trace = s.trace ∧
      (speed = 0x00 → t.bitrate = Config.divSlow) ∧ (speed = 0x01 → t.bitrate = Config.divFast) ∧
      (2 ≤ speed.toNat → t.bitrate = s.bitrate))

/-- START: refused inside a transaction; completes when its wait ends, a pending stop being over by then; else stuck
with nothing recorded. -/
def Obligations.StartOpensATransaction : Prop :=
  ∀ s : State,
    (s.txn = true → exec .start s = .refused .startInOpenTransaction) ∧
    (s.txn = false → s.busEn = true → s.waitsEnd 1 = true → ∃ t, Completes .start s t ∧
      t.trace = s.trace ++ [.start] ∧ t.txn = true ∧ t.done = true ∧ t.stopPend = false) ∧
    (s.txn = false → s.busEn = false ∨ s.waitsEnd 1 = false → ∃ t, Hangs .start s 0 t ∧
      t.trace = s.trace ∧ t.txn = false ∧ t.done = false)

/-- WBYTE: refused outside a transaction; completes when its wait ends, whatever the acknowledge bit, which is kept;
stuck otherwise with the byte loaded and nothing recorded. -/
def Obligations.WbyteShiftsTheByteOut : Prop :=
  ∀ (b : Byte) (s : State),
    (s.txn = false → exec (.wbyte b) s = .refused .byteOutsideTransaction) ∧
    (s.txn = true → s.busEn = true → s.waitsEnd 1 = true → ∃ t, Completes (.wbyte b) s t ∧
      t.trace = s.trace ++ [.write b] ∧ t.data = b ∧ t.done = true ∧ t.txn = true ∧
      t.ackRx = s.acks.head Config.ackBit ∧ t.acks = s.acks.tail) ∧
    (s.txn = true → s.busEn = true → s.waitsEnd 1 = false → ∃ t, Hangs (.wbyte b) s 0 t ∧
      t.trace = s.trace ∧ t.data = b ∧ t.done = false ∧ t.txn = true ∧ t.ackRx = s.ackRx)

/-- STOP: refused outside a transaction; inside one it always completes, without a wait. -/
def Obligations.StopClosesWithoutWaiting : Prop :=
  ∀ s : State,
    (s.txn = false → exec .stop s = .refused .stopOutsideTransaction) ∧
    (s.txn = true → ∃ t, Completes .stop s t ∧ t.trace = s.trace ++ [.stop] ∧ t.txn = false ∧ t.done = false ∧
      t.stopPend = true ∧ t.waits = s.waits)

/-- RBYTE: refused outside a transaction; completes when its wait ends, the environment's byte being in the shift
register, on the response port and in the trace; stuck otherwise with no response. -/
def Obligations.RbyteReturnsTheReceivedByte : Prop :=
  ∀ s : State,
    (s.txn = false → exec .rbyte s = .refused .byteOutsideTransaction) ∧
    (s.txn = true → s.busEn = true → s.waitsEnd 1 = true → ∃ t, Completes .rbyte s t ∧
      t.data = s.bytes.head Config.readByte ∧ t.resp = t.data ∧ t.rspData = t.data ∧ t.rspValid = true ∧
      t.trace = s.trace ++ [.read t.data] ∧ t.bytes = s.bytes.tail ∧ t.done = true ∧ t.txn = true) ∧
    (s.txn = true → s.busEn = true → s.waitsEnd 1 = false → ∃ t, Hangs .rbyte s 0 t ∧
      t.trace = s.trace ∧ t.resp = s.resp ∧ t.rspValid = false ∧ t.data = s.data ∧ t.done = false ∧ t.txn = true)

/-! ## ExpanderFramer commands -/

/-- SENDNIBBLE: refused inside a transaction; from a ready bus one transaction of the address byte and the operand with
the backlight bit; stuck at each of its three waits with the events before it recorded. -/
def Obligations.SendNibbleIsOneTransaction : Prop :=
  ∀ (x : Byte) (s : State),
    let a : Byte := (s.addr.setWidth 8 <<< 1) &&& 0xFE
    let d : Byte := x ||| (if s.bl then 0x08 else 0x00)
    (s.txn = true → exec (.sendNibble x) s = .refused .startInOpenTransaction) ∧
    (BusReady s 3 → ∃ t, Completes (.sendNibble x) s t ∧
      AfterSending 3 [.start, .write a, .write d, .stop] s t ∧ t.data = d ∧ t.done = false ∧ t.stopPend = true) ∧
    (s.txn = false → s.busEn = true → s.waitsEnd 1 = false → ∃ t, Hangs (.sendNibble x) s 0 t ∧
      t.trace = s.trace ∧ t.txn = false) ∧
    (s.txn = false → s.busEn = true → s.waitsEnd 1 = true → s.waitsEnd 2 = false →
      ∃ t, Hangs (.sendNibble x) s 1 t ∧ t.trace = s.trace ++ [.start] ∧ t.txn = true) ∧
    (s.txn = false → s.busEn = true → s.waitsEnd 2 = true → s.waitsEnd 3 = false →
      ∃ t, Hangs (.sendNibble x) s 2 t ∧ t.trace = s.trace ++ [.start, .write a] ∧ t.txn = true)

/-- PULSELATCH from a ready bus: the byte with the enable bit set, 1 µs, the byte with it cleared, 50 µs, each send a
whole transaction with the backlight bit. -/
def Obligations.PulseLatchRaisesAndDropsEnable : Prop :=
  ∀ (x : Byte) (s : State), BusReady s 6 →
    let a : Byte := (s.addr.setWidth 8 <<< 1) &&& 0xFE
    let bl : Byte := if s.bl then 0x08 else 0x00
    ∃ t, Completes (.pulseLatch x) s t ∧
      AfterSending 6 [.start, .write a, .write (x ||| 0x04 ||| bl), .stop, .delay 1,
                      .start, .write a, .write ((x &&& 0xFB) ||| bl), .stop, .delay 50] s t ∧
      t.bl = s.bl ∧ SameDisplay s t

/-- SENDBYTE from a ready bus: the 28 events of R142, high nibble before low nibble. -/
def Obligations.SendByteSendsTwoNibbleTransfers : Prop :=
  ∀ (v m : Byte) (s : State), BusReady s 18 →
    let a : Byte := (s.addr.setWidth 8 <<< 1) &&& 0xFE
    let bl : Byte := if s.bl then 0x08 else 0x00
    let h : Byte := (v &&& 0xF0) ||| m
    let l : Byte := ((v <<< 4) &&& 0xF0) ||| m
    let evs : List Event :=
      [.start, .write a, .write (h ||| bl), .stop, .start, .write a, .write (h ||| 0x04 ||| bl), .stop, .delay 1,
       .start, .write a, .write ((h &&& 0xFB) ||| bl), .stop, .delay 50,
       .start, .write a, .write (l ||| bl), .stop, .start, .write a, .write (l ||| 0x04 ||| bl), .stop, .delay 1,
       .start, .write a, .write ((l &&& 0xFB) ||| bl), .stop, .delay 50]
    evs = sendByteEvents s.addr s.bl v m ∧ ∃ t, Completes (.sendByte v m) s t ∧ AfterSending 18 evs s t ∧
      t.bl = s.bl ∧ SameDisplay s t

/-- SETBACKLIGHT: its refusals; from a ready bus the flag and one transaction, sent whether or not the flag changed;
when stuck, the flag has changed already. -/
def Obligations.SetBacklightStoresAndSendsTheFlag : Prop :=
  ∀ (on : Byte) (s : State),
    let a : Byte := (s.addr.setWidth 8 <<< 1) &&& 0xFE
    (2 ≤ on.toNat → exec (.setBacklight on) s = .refused (.reservedOperand "on")) ∧
    (on.toNat ≤ 1 → s.txn = true → exec (.setBacklight on) s = .refused .startInOpenTransaction) ∧
    (on.toNat ≤ 1 → BusReady s 3 → ∃ t, Completes (.setBacklight on) s t ∧ t.bl = decide (on = 1) ∧
      AfterSending 3 [.start, .write a, .write (if on = 1 then 0x08 else 0x00), .stop] s t ∧ t.stopPend = true) ∧
    (on.toNat ≤ 1 → s.txn = false → s.busEn = false ∨ s.waitsEnd 3 = false →
      ∃ k t, Hangs (.setBacklight on) s k t ∧ t.bl = decide (on = 1))

/-! ## DisplayController commands -/

/-- INIT with legal operands from a ready bus, in either phase: its events, each delay where R160 has it, and the
registers it leaves. -/
def Obligations.InitRunsTheHandshakeAndBecomesReady : Prop :=
  ∀ (rows cols font : Byte) (s : State), 1 ≤ rows.toNat → rows.toNat ≤ 4 → font.toNat ≤ 1 → BusReady s 129 →
    let a : Byte := (s.addr.setWidth 8 <<< 1) &&& 0xFE
    let nibble := nibbleTransferEvents s.addr true
    let byte := fun v => sendByteEvents s.addr true v 0x00
    let func : Byte := 0x20 ||| (if 1 < rows.toNat then 0x08 else 0x00) ||| (if font = 1 ∧ rows = 1 then 0x04 else 0x00)
    let evs : List Event :=
      [.delay 40000, .start, .write a, .write 0x08, .stop] ++ nibble 0x30 ++ [.delay 4500] ++ nibble 0x30 ++
        [.delay 4500] ++ nibble 0x30 ++ [.delay 150] ++ nibble 0x20 ++ byte func ++ byte 0x0C ++ byte 0x01 ++
        [.delay 2000] ++ byte 0x06 ++ byte 0x02 ++ [.delay 2000]
    evs = initEvents s.addr rows (decide (font = 1)) ∧ ∃ t, Completes (.init rows cols font) s t ∧
      AfterSending 129 evs s t ∧
      t.rows = rows ∧ t.cols = cols ∧ t.font = decide (font = 1) ∧ t.bl = true ∧ t.ctrl = 0x0C ∧ t.mode = 0x06 ∧
      t.phase = .ready ∧ t.func = func

/-- CLEAR and HOME in Ready from a ready bus: the command byte, then 2 ms; no register of the upper layers changes. -/
def Obligations.ClearAndHomeSendAndWaitTwoMilliseconds : Prop :=
  ∀ s : State, s.phase = .ready → BusReady s 18 →
    (∃ t, Completes .clear s t ∧
      AfterSending 18 (sendByteEvents s.addr s.bl 0x01 0x00 ++ [.delay 2000]) s t ∧ t.bl = s.bl ∧ SameDisplay s t) ∧
    (∃ t, Completes .home s t ∧
      AfterSending 18 (sendByteEvents s.addr s.bl 0x02 0x00 ++ [.delay 2000]) s t ∧ t.bl = s.bl ∧ SameDisplay s t)

/-- SETCURSOR in Ready from a ready bus, with a row count that a Ready state has: the clamped row's offset plus the
column, with bit 7 set, as one command byte; no register changes. -/
def Obligations.SetCursorSendsTheClampedAddress : Prop :=
  ∀ (col row : Byte) (s : State), s.phase = .ready → 1 ≤ s.rows.toNat → s.rows.toNat ≤ 4 → BusReady s 18 →
    let r : Nat := min row.toNat (s.rows.toNat - 1)
    let offset : Byte := if r = 0 then 0x00 else if r = 1 then 0x40 else if r = 2 then 0x14 else 0x54
    ∃ t, Completes (.setCursor col row) s t ∧
      AfterSending 18 (sendByteEvents s.addr s.bl (0x80 ||| (col + offset)) 0x00) s t ∧ t.bl = s.bl ∧ SameDisplay s t

/-- DISPLAY, CURSOR and BLINK in Ready from a ready bus: one flag of `CTRL` set or cleared, the other bits kept, and the
byte sent is the byte cached. -/
def Obligations.ControlFlagsAreCachedAndSent : Prop :=
  ∀ (on : Byte) (s : State), on.toNat ≤ 1 → s.phase = .ready → BusReady s 18 →
    (∃ t, Completes (.display on) s t ∧ t.ctrl = (if on = 1 then s.ctrl ||| 0x04 else s.ctrl &&& 0xFB) ∧
      AfterSending 18 (sendByteEvents s.addr s.bl t.ctrl 0x00) s t ∧ t.bl = s.bl ∧ SameGeometry s t ∧
      t.mode = s.mode ∧ t.phase = s.phase) ∧
    (∃ t, Completes (.cursor on) s t ∧ t.ctrl = (if on = 1 then s.ctrl ||| 0x02 else s.ctrl &&& 0xFD) ∧
      AfterSending 18 (sendByteEvents s.addr s.bl t.ctrl 0x00) s t ∧ t.bl = s.bl ∧ SameGeometry s t ∧
      t.mode = s.mode ∧ t.phase = s.phase) ∧
    (∃ t, Completes (.blink on) s t ∧ t.ctrl = (if on = 1 then s.ctrl ||| 0x01 else s.ctrl &&& 0xFE) ∧
      AfterSending 18 (sendByteEvents s.addr s.bl t.ctrl 0x00) s t ∧ t.bl = s.bl ∧ SameGeometry s t ∧
      t.mode = s.mode ∧ t.phase = s.phase)

/-- ENTRYDIR and AUTOSCROLL in Ready from a ready bus: one flag of `MODE` set or cleared, the other bits kept, and the
byte sent is the byte cached. -/
def Obligations.EntryModeFlagsAreCachedAndSent : Prop :=
  ∀ (on : Byte) (s : State), on.toNat ≤ 1 → s.phase = .ready → BusReady s 18 →
    (∃ t, Completes (.entryDir on) s t ∧ t.mode = (if on = 1 then s.mode ||| 0x02 else s.mode &&& 0xFD) ∧
      AfterSending 18 (sendByteEvents s.addr s.bl t.mode 0x00) s t ∧ t.bl = s.bl ∧ SameGeometry s t ∧
      t.ctrl = s.ctrl ∧ t.phase = s.phase) ∧
    (∃ t, Completes (.autoscroll on) s t ∧ t.mode = (if on = 1 then s.mode ||| 0x01 else s.mode &&& 0xFE) ∧
      AfterSending 18 (sendByteEvents s.addr s.bl t.mode 0x00) s t ∧ t.bl = s.bl ∧ SameGeometry s t ∧
      t.ctrl = s.ctrl ∧ t.phase = s.phase)

/-- SCROLL in Ready from a ready bus: 0x1C to the right, 0x18 to the left; no register changes. -/
def Obligations.ScrollSendsTheShiftCommand : Prop :=
  ∀ (right : Byte) (s : State), right.toNat ≤ 1 → s.phase = .ready → BusReady s 18 →
    ∃ t, Completes (.scroll right) s t ∧
      AfterSending 18 (sendByteEvents s.addr s.bl (if right = 1 then 0x1C else 0x18) 0x00) s t ∧ t.bl = s.bl ∧
      SameDisplay s t

/-- LOADGLYPH in Ready from a ready bus: the address command of the slot's low three bits, then the eight pattern bytes
as data, in operand order; no register changes. -/
def Obligations.LoadGlyphSendsAddressThenPattern : Prop :=
  ∀ (slot p0 p1 p2 p3 p4 p5 p6 p7 : Byte) (s : State), s.phase = .ready → BusReady s 162 →
    let data := fun p => sendByteEvents s.addr s.bl p 0x01
    ∃ t, Completes (.loadGlyph slot p0 p1 p2 p3 p4 p5 p6 p7) s t ∧
      AfterSending 162 (sendByteEvents s.addr s.bl (0x40 ||| ((slot &&& 0x07) <<< 3)) 0x00 ++
        data p0 ++ data p1 ++ data p2 ++ data p3 ++ data p4 ++ data p5 ++ data p6 ++ data p7) s t ∧
      t.bl = s.bl ∧ SameDisplay s t

/-- PRINT in Ready from a ready bus: each character as data, each followed by the inter-character delay, the last too;
no register changes. With no characters and no transaction open it completes with no event, and needs nothing else of
the bus (the model's reading, log entry 22). -/
def Obligations.PrintSendsEachCharacter : Prop :=
  ∀ s : State, s.phase = .ready →
    (∀ cs : List Byte, BusReady s (18 * cs.length) → ∃ t, Completes (.print cs) s t ∧
      AfterSending (18 * cs.length)
        (cs.map fun c => sendByteEvents s.addr s.bl c 0x01 ++ [Event.delay Config.tCharUs]).flatten s t ∧
      t.bl = s.bl ∧ SameDisplay s t) ∧
    (s.txn = false → ∃ t, Completes (.print []) s t ∧ t.trace = s.trace ∧ t.waits = s.waits)

/-- BACKLIGHT in Ready ends as SETBACKLIGHT does, whichever of the three outcomes it is, and from a ready bus it
completes. -/
def Obligations.BacklightIsSetBacklightInReady : Prop :=
  ∀ (on : Byte) (s : State), s.phase = .ready →
    EndAlike (.backlight on) (.setBacklight on) s ∧
    (on.toNat ≤ 1 → BusReady s 3 → ∃ t, Completes (.backlight on) s t ∧ t.bl = decide (on = 1) ∧
      t.trace = s.trace ++ [.start, .write ((s.addr.setWidth 8 <<< 1) &&& 0xFE),
        .write (if on = 1 then 0x08 else 0x00), .stop])

/-! ## Refusals and hangs -/

/-- A reserved operand value is refused, where no earlier check of the command refuses it: in Ready for the
phase-checked commands, in every state for the others. -/
def Obligations.ReservedOperandsAreRefused : Prop :=
  ∀ (i : Instr) (s : State), i.encodable = true → i.wellFormed = false →
    (isPhaseChecked i = true → s.phase = .ready) → ∃ name, exec i s = .refused (.reservedOperand name)

/-- Every DisplayController command but INIT is refused before INIT, whatever its operands and the bus. -/
def Obligations.DisplayCommandsNeedInit : Prop :=
  ∀ (i : Instr) (s : State), isPhaseChecked i = true → s.phase = .uninitialized →
    exec i s = .refused .displayNotInitialised

/-- With a transaction open, every ExpanderFramer and DisplayController command is refused, a PRINT of no characters
too. -/
def Obligations.OpenTransactionRefusesUpperCommands : Prop :=
  ∀ (i : Instr) (s : State), isUpperCommand i = true → i.wellFormed = true → s.txn = true →
    (isPhaseChecked i = true → s.phase = .ready) → exec i s = .refused .startInOpenTransaction

/-- Before CONFIGURE every command that begins a transaction hangs at its first START with no bus event, after INIT's
first delay in the case of INIT. -/
def Obligations.DisabledBusHangsUpperCommands : Prop :=
  ∀ (i : Instr) (s : State), opensTransaction i = true → i.wellFormed = true → s.txn = false → s.busEn = false →
    (isPhaseChecked i = true → s.phase = .ready) →
    ∃ t, Hangs i s 0 t ∧ t.txn = false ∧ t.done = false ∧
      t.trace = s.trace ++ (match i with | .init _ _ _ => [Event.delay 40000] | _ => [])

/-- Every command above the BusDriver records exactly the events that its rule lists, up to the wait at which it stops:
all of them where its waits all end, and where one of them, whichever it is, never ends, those before that wait, the
sequencer standing at it with `DONE = 0`. The registers that the command writes before it sends are then written:
`BL`, `CTRL`, `MODE` by the commands that set them, while INIT, however far it has come, has forced `BL` and left
`PHASE`. -/
def Obligations.StuckSendsKeepTheEventsBefore : Prop :=
  ∀ (i : Instr) (s : State), isUpperCommand i = true → i.wellFormed = true →
    (isPhaseChecked i = true → s.phase = .ready) → s.txn = false → s.busEn = true →
    (s.waitsEnd ((eventsOf s i).countP Event.waited) = true →
      ∃ t, Completes i s t ∧ t.trace = s.trace ++ eventsOf s i) ∧
    ∀ k, k < (eventsOf s i).countP Event.waited → s.waitsEnd k = true → s.waitsEnd (k + 1) = false →
      ∃ t, Hangs i s k t ∧ t.done = false ∧ t.trace = s.trace ++ beforeWait k (eventsOf s i) ∧
        (∀ on, i = .setBacklight on ∨ i = .backlight on → t.bl = decide (on = 1)) ∧
        (∀ on, i = .display on → t.ctrl = if on = 1 then s.ctrl ||| 0x04 else s.ctrl &&& 0xFB) ∧
        (∀ on, i = .cursor on → t.ctrl = if on = 1 then s.ctrl ||| 0x02 else s.ctrl &&& 0xFD) ∧
        (∀ on, i = .blink on → t.ctrl = if on = 1 then s.ctrl ||| 0x01 else s.ctrl &&& 0xFE) ∧
        (∀ ltr, i = .entryDir ltr → t.mode = if ltr = 1 then s.mode ||| 0x02 else s.mode &&& 0xFD) ∧
        (∀ on, i = .autoscroll on → t.mode = if on = 1 then s.mode ||| 0x01 else s.mode &&& 0xFE) ∧
        (∀ rows cols font, i = .init rows cols font → t.bl = true ∧ t.phase = s.phase)

/-! ## Frames (R47): what a command leaves alone whether it completes or hangs -/

/-- CONFIGURE touches the BusConfig registers and `DONE` alone. -/
def Obligations.ConfigureFrame : Prop :=
  ∀ (addr speed : Byte) (s t : State), exec (.configure addr speed) s = .next t →
    t.trace = s.trace ∧ t.data = s.data ∧ t.ackRx = s.ackRx ∧ t.txn = s.txn ∧ t.stopPend = s.stopPend ∧
    t.bl = s.bl ∧ SameDisplay s t ∧ SameResponse s t ∧ SameInputs s t ∧ t.waits = s.waits ∧ t.acks = s.acks ∧
    t.stops = s.stops

/-- START, WBYTE, STOP and RBYTE touch the registers that R47 gives each of them alone. -/
def Obligations.BusPrimitivesFrame : Prop :=
  ∀ s t : State,
    (exec .start s = .next t → SameButBus s t ∧ t.bl = s.bl ∧ SameDisplay s t ∧ t.data = s.data ∧
      t.ackRx = s.ackRx ∧ t.acks = s.acks) ∧
    (∀ b, exec (.wbyte b) s = .next t → SameButBus s t ∧ t.bl = s.bl ∧ SameDisplay s t ∧ t.txn = s.txn ∧
      t.stopPend = s.stopPend) ∧
    (exec .stop s = .next t → SameButBus s t ∧ t.bl = s.bl ∧ SameDisplay s t ∧ t.data = s.data ∧
      t.ackRx = s.ackRx ∧ t.acks = s.acks ∧ t.waits = s.waits) ∧
    (exec .rbyte s = .next t → SameBusConfig s t ∧ SameInputs s t ∧ TraceGrows s t ∧ t.bl = s.bl ∧
      SameDisplay s t ∧ t.txn = s.txn ∧ t.stopPend = s.stopPend ∧ t.ackRx = s.ackRx ∧ t.acks = s.acks)

/-- SENDNIBBLE, PULSELATCH, SENDBYTE, CLEAR, HOME, SETCURSOR, SCROLL, LOADGLYPH and PRINT touch the bus alone. -/
def Obligations.PlainSendsFrame : Prop :=
  ∀ (i : Instr) (s t : State), isPlainSend i = true → exec i s = .next t →
    SameButBus s t ∧ t.bl = s.bl ∧ SameDisplay s t

/-- The commands that write a register of the upper layers touch the bus and that register alone. -/
def Obligations.RegisterWritersFrame : Prop :=
  ∀ (v : Byte) (s t : State),
    (exec (.setBacklight v) s = .next t ∨ exec (.backlight v) s = .next t → SameButBus s t ∧ SameDisplay s t) ∧
    (exec (.display v) s = .next t ∨ exec (.cursor v) s = .next t ∨ exec (.blink v) s = .next t →
      SameButBus s t ∧ t.bl = s.bl ∧ SameGeometry s t ∧ t.mode = s.mode ∧ t.phase = s.phase) ∧
    (exec (.entryDir v) s = .next t ∨ exec (.autoscroll v) s = .next t →
      SameButBus s t ∧ t.bl = s.bl ∧ SameGeometry s t ∧ t.ctrl = s.ctrl ∧ t.phase = s.phase)

/-- INIT leaves the BusConfig, the response port and the inputs alone, and `PHASE` too when it hangs. -/
def Obligations.InitFrame : Prop :=
  ∀ (rows cols font : Byte) (s t : State), exec (.init rows cols font) s = .next t →
    SameButBus s t ∧ t.rows = rows ∧ t.cols = cols ∧ (t.useq ≠ .idle → t.phase = s.phase)

/-- Each register of R24 to R40 is written only by the commands that its rule names, and neither the enable nor Ready is
ever taken back by a command. Of `DONE`, which every command that reaches the bus writes and CONFIGURE too, this says
that a PRINT of no characters leaves it, and with it the other registers of the bus. -/
def Obligations.OnlyTheNamedCommandsWriteEachRegister : Prop :=
  ∀ (i : Instr) (s t : State), exec i s = .next t →
    ((∀ a v, i ≠ .configure a v) → SameBusConfig s t) ∧
    (i ≠ .rbyte → t.resp = s.resp) ∧
    ((∀ v, i ≠ .setBacklight v ∧ i ≠ .backlight v) → (∀ r c f, i ≠ .init r c f) → t.bl = s.bl) ∧
    ((∀ r c f, i ≠ .init r c f) → SameGeometry s t ∧ t.phase = s.phase) ∧
    ((∀ r c f, i ≠ .init r c f) → (∀ v, i ≠ .display v ∧ i ≠ .cursor v ∧ i ≠ .blink v) → t.ctrl = s.ctrl) ∧
    ((∀ r c f, i ≠ .init r c f) → (∀ v, i ≠ .entryDir v ∧ i ≠ .autoscroll v) → t.mode = s.mode) ∧
    ((∃ a v, i = .configure a v) ∨ i = .start ∨ i = .stop → t.data = s.data) ∧
    ((∃ a v, i = .configure a v) ∨ i = .start ∨ i = .stop ∨ i = .rbyte → t.ackRx = s.ackRx) ∧
    ((∃ a v, i = .configure a v) ∨ (∃ b, i = .wbyte b) ∨ i = .rbyte → t.txn = s.txn ∧ t.stopPend = s.stopPend) ∧
    (i = .print [] → t.done = s.done ∧ t.data = s.data ∧ t.ackRx = s.ackRx ∧ t.txn = s.txn ∧
      t.stopPend = s.stopPend) ∧
    (s.busEn = true → t.busEn = true) ∧ (s.phase = .ready → t.phase = .ready) ∧ TraceGrows s t ∧ SameInputs s t

/-- The state machine of R174: INIT alone leads to Ready and only by completing, and from Ready nothing leads back but
reset. -/
def Obligations.PhaseLeavesUninitializedByInitAlone : Prop :=
  (∀ (i : Instr) (s t : State), exec i s = .next t →
    (s.phase = .ready → t.phase = .ready) ∧
    (s.phase = .uninitialized → (t.phase = .ready ↔ (∃ r c f, i = .init r c f) ∧ t.useq = .idle))) ∧
  ∀ s t : State, step s = .next t → s.phase = .ready → t.phase = .uninitialized → s.rstN = false

/-! ## Invariants -/

/-- The state after reset meets the block's invariants. -/
def Obligations.ResetMeetsTheInvariants : Prop := Inv State.reset

/-- Every step keeps the block's invariants, from every state that meets them. -/
def Obligations.EveryStepKeepsTheInvariants : Prop :=
  ∀ s t : State, Inv s → step s = .next t → Inv t

/-- Whatever the host and the environment do, the trace is a word of R125's language with at most one unfinished
transaction, `TXN` tells whether there is one, and `TXN = 1` implies `BUS_EN = 1`. -/
def Obligations.ReachableTracesAreFramed : Prop :=
  ∀ s : State, Reachable s → framing s.trace = some s.txn ∧ (s.txn = true → s.busEn = true)

/-- R41's cache invariant: a completed INIT establishes it, whatever was sent before, and every other completed
DisplayController command keeps it from one byte boundary to the next. -/
def Obligations.DisplayCommandsKeepTheCacheCurrent : Prop :=
  ∀ (i : Instr) (s t : State), isDisplayCommand i = true → Inv s →
    ((∀ r c f, i ≠ .init r c f) → CacheCurrent s ∧ ByteBoundary s) → Completes i s t → CacheCurrent t ∧ ByteBoundary t

/-! ## What nothing reads -/

/-- A completed WBYTE leaves in `ACK_RX` the bit that the environment gave, and acknowledge bits, received or to come,
change nothing but themselves: a step from a state that differs in them has the same outcome but for them. -/
def Obligations.AcknowledgeBitsChangeNothing : Prop :=
  ∀ (s : State) (bit : Bool) (coming : Feed Bool),
    (∀ b t, Completes (.wbyte b) s t → t.ackRx = s.acks.head Config.ackBit) ∧
    (∀ t, step s = .next t → ∃ bit' coming', step (s.withAcks bit coming) = .next (t.withAcks bit' coming')) ∧
    (∀ r, step s = .refused r → step (s.withAcks bit coming) = .refused r)

/-- `SPEED`, `BITRATE`, `PRESCALE` and `COLS` are read by no command: a step from a state that differs in them has the
same outcome but for them. -/
def Obligations.UnreadRegistersChangeNothing : Prop :=
  ∀ (s : State) (speed bitrate : Byte) (prescale : BitVec 2) (cols : Byte),
    (∀ t, step s = .next t → ∃ speed' bitrate' prescale' cols',
      step (s.withUnread speed bitrate prescale cols) = .next (t.withUnread speed' bitrate' prescale' cols')) ∧
    (∀ r, step s = .refused r → step (s.withUnread speed bitrate prescale cols) = .refused r)

/-! ## Equivalences -/

/-- SENDNIBBLE is `BusWrite`: START, WBYTE of the address byte, WBYTE of the data byte and STOP, issued one after the
other by the host, reach the same state, but for `CP`, which has counted four commands. -/
def Obligations.SendNibbleIsBusWriteByHand : Prop :=
  ∀ (x : Byte) (s : State), BusReady s 3 →
    ∃ s1 s2 s3 s4 t, exec .start s = .next s1 ∧
      exec (.wbyte ((s.addr.setWidth 8 <<< 1) &&& 0xFE)) s1 = .next s2 ∧
      exec (.wbyte (x ||| (if s.bl then 0x08 else 0x00))) s2 = .next s3 ∧ exec .stop s3 = .next s4 ∧
      exec (.sendNibble x) s = .next t ∧ s4 = { t with cp := s.cp + 4 }

/-- Printing a text is printing its parts one after the other, but for `CP`. -/
def Obligations.PrintOfConcatenationIsTwoPrints : Prop :=
  ∀ (cs ds : List Byte) (s : State), s.phase = .ready → BusReady s (18 * (cs.length + ds.length)) →
    ∃ t u v, Completes (.print cs) s t ∧ Completes (.print ds) t u ∧ Completes (.print (cs ++ ds)) s v ∧
      u = { v with cp := s.cp + 2 }

/-- Clamping is silent: a row at or above `ROWS` ends as the last row does, and a slot as its low three bits do,
whichever of the three outcomes it is. -/
def Obligations.ClampingIsSilent : Prop :=
  ∀ s : State, s.phase = .ready →
    (∀ col row : Byte, 1 ≤ s.rows.toNat → s.rows.toNat ≤ row.toNat →
      EndAlike (.setCursor col row) (.setCursor col (s.rows - 1)) s) ∧
    (∀ slot p0 p1 p2 p3 p4 p5 p6 p7 : Byte,
      EndAlike (.loadGlyph slot p0 p1 p2 p3 p4 p5 p6 p7) (.loadGlyph (slot &&& 0x07) p0 p1 p2 p3 p4 p5 p6 p7) s)

/-! ## What a trace says -/

/-- A logical byte sent as command or data reaches the display as exactly two latched nibbles, high before low, with its
register-select bit, and every data byte carries the backlight bit as it stands. -/
def Obligations.LogicalByteIsTwoLatchedNibbles : Prop :=
  ∀ (addr : BitVec 7) (bl : Bool) (v m : Byte), m.toNat ≤ 1 →
    let a : Byte := (addr.setWidth 8 <<< 1) &&& 0xFE
    let evs := sendByteEvents addr bl v m
    latched a evs = [(decide (m = 1), v.extractLsb' 4 4), (decide (m = 1), v.extractLsb' 0 4)] ∧
    logicalBytes addr evs = [(decide (m = 1), v)] ∧
    (∀ b ∈ targetBytes a .closed evs, (b &&& 0x08 ≠ 0) ↔ bl = true)

/-- INIT's trace latches the handshake nibbles 3, 3, 3, 2 before any command byte. They belong to no logical byte, and
pairing starts afresh after them: whatever was sent before INIT, a lone nibble too, INIT adds to the logical bytes
exactly function set, display control 0x0C, clear, entry mode 0x06 and home. -/
def Obligations.InitLatchesTheHandshakeFirst : Prop :=
  ∀ (addr : BitVec 7) (rows : Byte) (font : Bool),
    (latched ((addr.setWidth 8 <<< 1) &&& 0xFE) (initEvents addr rows font)).take 4 =
      [(false, 3), (false, 3), (false, 3), (false, 2)] ∧
    ∀ before : List Event, logicalBytes addr (before ++ initEvents addr rows font) = logicalBytes addr before ++
      [(false, functionSet rows font), (false, 0x0C), (false, 0x01), (false, 0x06), (false, 0x02)]

/-- The tables of R144 and R175: events, transactions and least total delay. -/
def Obligations.TraceCountsAreThoseListed : Prop :=
  ∀ (addr : BitVec 7) (bl font : Bool) (v m rows : Byte) (cs : List Byte),
    ((sendNibbleEvents addr bl v).length = 4 ∧ transactions (sendNibbleEvents addr bl v) = 1 ∧
      leastDelayUs (sendNibbleEvents addr bl v) = 0) ∧
    ((pulseLatchEvents addr bl v).length = 10 ∧ transactions (pulseLatchEvents addr bl v) = 2 ∧
      leastDelayUs (pulseLatchEvents addr bl v) = 51) ∧
    ((sendByteEvents addr bl v m).length = 28 ∧ transactions (sendByteEvents addr bl v m) = 6 ∧
      leastDelayUs (sendByteEvents addr bl v m) = 102) ∧
    ((homingEvents addr bl v).length = 29 ∧ transactions (homingEvents addr bl v) = 6 ∧
      leastDelayUs (homingEvents addr bl v) = 2102) ∧
    ((initEvents addr rows font).length = 206 ∧ transactions (initEvents addr rows font) = 43 ∧
      leastDelayUs (initEvents addr rows font) = 53864) ∧
    (cs.length = 8 → (loadGlyphEvents addr bl v cs).length = 252 ∧ transactions (loadGlyphEvents addr bl v cs) = 54 ∧
      leastDelayUs (loadGlyphEvents addr bl v cs) = 918) ∧
    ((printEvents addr bl cs).length = 29 * cs.length ∧ transactions (printEvents addr bl cs) = 6 * cs.length ∧
      leastDelayUs (printEvents addr bl cs) = cs.length * (102 + Config.tCharUs))

/-- Every command above the BusDriver that completes has appended whole transactions of exactly two bytes, the first
the address byte with the read/write bit clear, and delays, and nothing else. -/
def Obligations.UpperCommandsSendTwoByteTransactions : Prop :=
  ∀ (i : Instr) (s t : State), isUpperCommand i = true → Completes i s t →
    ∃ evs, t.trace = s.trace ++ evs ∧ isBusWrites ((s.addr.setWidth 8 <<< 1) &&& 0xFE) evs = true

/-! ## Time and wires -/

/-- A timing that respects every minimum takes at least the least total delay, and the delay unit never stalls for less
than was asked. -/
def Obligations.DelaysAreNeverShortened : Prop :=
  (∀ (t0 at_ : Nat) (tr : TimedTrace) (e : Event), respectsDelays t0 (tr ++ [(at_, e)]) = true →
    t0 + leastDelayUs (tr.map Prod.snd) ≤ at_) ∧
  ∀ n : Nat, n * Config.clkHz ≤ delayCycles n * 1000000

/-- On the wires, a receiver clocks in a byte's bits 7 down to 0 and then the ninth bit: for a written byte the target's
acknowledge bit, for a received one 0 exactly if `READ_ACK` says acknowledge; and a well-framed trace shows exactly its
own start and stop conditions. -/
def Obligations.WiresShowTheTrace : Prop :=
  (∀ (ack : Bool) (b : Byte),
    sampled (wave ack (.write b)) = [b.getLsbD 7, b.getLsbD 6, b.getLsbD 5, b.getLsbD 4, b.getLsbD 3, b.getLsbD 2,
      b.getLsbD 1, b.getLsbD 0, ack] ∧
    sampled (wave ack (.read b)) = [b.getLsbD 7, b.getLsbD 6, b.getLsbD 5, b.getLsbD 4, b.getLsbD 3, b.getLsbD 2,
      b.getLsbD 1, b.getLsbD 0, if Config.readAck then false else true]) ∧
  ∀ t : List (Event × Bool), framing (t.map Prod.fst) ≠ none →
    startConditions (waveOf t) = (t.map Prod.fst).countP (· = .start) ∧
    stopConditions (waveOf t) = (t.map Prod.fst).countP (· = .stop)
end

