-- ==== Sys2Proof/Laws/State.lean ====
section
/-! SUPPORT. What each named update of State leaves in each field, true by `rfl`, so that no later proof unfolds a
record update. One theorem an update, a conjunction of one equation a field: `simp` uses each equation as a rule. -/

namespace Sys2Proof.Machine

/-- The fields after `emit`. -/
@[simp] theorem emit_fields (e : Event) (s : State) :
    (emit e s).cp = s.cp ∧ (emit e s).useq = s.useq ∧ (emit e s).addr = s.addr ∧ (emit e s).speed = s.speed ∧
    (emit e s).bitrate = s.bitrate ∧ (emit e s).prescale = s.prescale ∧ (emit e s).busEn = s.busEn ∧
    (emit e s).done = s.done ∧ (emit e s).data = s.data ∧ (emit e s).ackRx = s.ackRx ∧ (emit e s).txn = s.txn ∧
    (emit e s).stopPend = s.stopPend ∧ (emit e s).resp = s.resp ∧ (emit e s).bl = s.bl ∧ (emit e s).rows = s.rows ∧
    (emit e s).cols = s.cols ∧ (emit e s).font = s.font ∧ (emit e s).func = s.func ∧ (emit e s).ctrl = s.ctrl ∧
    (emit e s).mode = s.mode ∧ (emit e s).phase = s.phase ∧ (emit e s).trace = s.trace ++ [e] ∧
    (emit e s).rspValid = s.rspValid ∧ (emit e s).cmdBuf = s.cmdBuf ∧ (emit e s).rstN = s.rstN ∧
    (emit e s).cmdIn = s.cmdIn ∧ (emit e s).waits = s.waits ∧ (emit e s).acks = s.acks ∧
    (emit e s).bytes = s.bytes ∧ (emit e s).stops = s.stops :=
  by and_intros <;> rfl

/-- The fields after the engine. -/
@[simp] theorem engine_fields (s : State) :
    (engine s).cp = s.cp ∧ (engine s).useq = s.useq ∧ (engine s).addr = s.addr ∧ (engine s).speed = s.speed ∧
    (engine s).bitrate = s.bitrate ∧ (engine s).prescale = s.prescale ∧ (engine s).busEn = s.busEn ∧
    (engine s).done = s.done ∧ (engine s).data = s.data ∧ (engine s).ackRx = s.ackRx ∧ (engine s).txn = s.txn ∧
    (engine s).stopPend = (s.stopPend && !s.stops.head Config.stopEnds) ∧ (engine s).resp = s.resp ∧
    (engine s).bl = s.bl ∧ (engine s).rows = s.rows ∧ (engine s).cols = s.cols ∧ (engine s).font = s.font ∧
    (engine s).func = s.func ∧ (engine s).ctrl = s.ctrl ∧ (engine s).mode = s.mode ∧ (engine s).phase = s.phase ∧
    (engine s).trace = s.trace ∧ (engine s).rspValid = s.rspValid ∧ (engine s).cmdBuf = s.cmdBuf ∧
    (engine s).rstN = s.rstN ∧ (engine s).cmdIn = s.cmdIn ∧ (engine s).waits = s.waits ∧ (engine s).acks = s.acks ∧
    (engine s).bytes = s.bytes ∧ (engine s).stops = if s.stopPend then s.stops.tail else s.stops :=
  by and_intros <;> rfl

/-- The fields after the beginning of a command. -/
@[simp] theorem begin_fields (i : Instr) (s : State) :
    (s.begin i).cp = s.cp ∧ (s.begin i).useq = .executing i 0 ∧ (s.begin i).addr = s.addr ∧
    (s.begin i).speed = s.speed ∧ (s.begin i).bitrate = s.bitrate ∧ (s.begin i).prescale = s.prescale ∧
    (s.begin i).busEn = s.busEn ∧ (s.begin i).done = s.done ∧ (s.begin i).data = s.data ∧
    (s.begin i).ackRx = s.ackRx ∧ (s.begin i).txn = s.txn ∧ (s.begin i).stopPend = s.stopPend ∧
    (s.begin i).resp = s.resp ∧ (s.begin i).bl = s.bl ∧ (s.begin i).rows = s.rows ∧ (s.begin i).cols = s.cols ∧
    (s.begin i).font = s.font ∧ (s.begin i).func = s.func ∧ (s.begin i).ctrl = s.ctrl ∧ (s.begin i).mode = s.mode ∧
    (s.begin i).phase = s.phase ∧ (s.begin i).trace = s.trace ∧ (s.begin i).rspValid = false ∧
    (s.begin i).cmdBuf = s.cmdBuf ∧ (s.begin i).rstN = s.rstN ∧ (s.begin i).cmdIn = s.cmdIn ∧
    (s.begin i).waits = s.waits ∧ (s.begin i).acks = s.acks ∧ (s.begin i).bytes = s.bytes ∧
    (s.begin i).stops = s.stops :=
  by and_intros <;> rfl

/-- The fields after the completion of a command. -/
@[simp] theorem complete_fields (s : State) :
    s.complete.cp = s.cp + 1 ∧ s.complete.useq = .idle ∧ s.complete.addr = s.addr ∧
    s.complete.speed = s.speed ∧ s.complete.bitrate = s.bitrate ∧ s.complete.prescale = s.prescale ∧
    s.complete.busEn = s.busEn ∧ s.complete.done = s.done ∧ s.complete.data = s.data ∧
    s.complete.ackRx = s.ackRx ∧ s.complete.txn = s.txn ∧ s.complete.stopPend = s.stopPend ∧
    s.complete.resp = s.resp ∧ s.complete.bl = s.bl ∧ s.complete.rows = s.rows ∧ s.complete.cols = s.cols ∧
    s.complete.font = s.font ∧ s.complete.func = s.func ∧ s.complete.ctrl = s.ctrl ∧
    s.complete.mode = s.mode ∧ s.complete.phase = s.phase ∧ s.complete.trace = s.trace ∧
    s.complete.rspValid = s.rspValid ∧ s.complete.cmdBuf = s.cmdBuf ∧ s.complete.rstN = s.rstN ∧
    s.complete.cmdIn = s.cmdIn ∧ s.complete.waits = s.waits ∧ s.complete.acks = s.acks ∧
    s.complete.bytes = s.bytes ∧ s.complete.stops = s.stops :=
  by and_intros <;> rfl

/-- The fields after CONFIGURE's writes. -/
@[simp] theorem configured_fields (addr speed : Byte) (s : State) :
    (State.configured addr speed s).cp = s.cp ∧ (State.configured addr speed s).useq = s.useq ∧
    (State.configured addr speed s).addr = addrOf addr ∧ (State.configured addr speed s).speed = speed ∧
    (State.configured addr speed s).bitrate = divisorFor speed s.bitrate ∧
    (State.configured addr speed s).prescale = Config.prescaleFixed ∧ (State.configured addr speed s).busEn = true ∧
    (State.configured addr speed s).done = false ∧ (State.configured addr speed s).data = s.data ∧
    (State.configured addr speed s).ackRx = s.ackRx ∧ (State.configured addr speed s).txn = s.txn ∧
    (State.configured addr speed s).stopPend = s.stopPend ∧ (State.configured addr speed s).resp = s.resp ∧
    (State.configured addr speed s).bl = s.bl ∧ (State.configured addr speed s).rows = s.rows ∧
    (State.configured addr speed s).cols = s.cols ∧ (State.configured addr speed s).font = s.font ∧
    (State.configured addr speed s).func = s.func ∧ (State.configured addr speed s).ctrl = s.ctrl ∧
    (State.configured addr speed s).mode = s.mode ∧ (State.configured addr speed s).phase = s.phase ∧
    (State.configured addr speed s).trace = s.trace ∧ (State.configured addr speed s).rspValid = s.rspValid ∧
    (State.configured addr speed s).cmdBuf = s.cmdBuf ∧ (State.configured addr speed s).rstN = s.rstN ∧
    (State.configured addr speed s).cmdIn = s.cmdIn ∧ (State.configured addr speed s).waits = s.waits ∧
    (State.configured addr speed s).acks = s.acks ∧ (State.configured addr speed s).bytes = s.bytes ∧
    (State.configured addr speed s).stops = s.stops :=
  by and_intros <;> rfl

/-- The fields after START's end. -/
@[simp] theorem started_fields (s : State) :
    s.started.cp = s.cp ∧ s.started.useq = s.useq ∧ s.started.addr = s.addr ∧ s.started.speed = s.speed ∧
    s.started.bitrate = s.bitrate ∧ s.started.prescale = s.prescale ∧ s.started.busEn = s.busEn ∧
    s.started.done = s.done ∧ s.started.data = s.data ∧ s.started.ackRx = s.ackRx ∧ s.started.txn = true ∧
    s.started.stopPend = false ∧ s.started.resp = s.resp ∧ s.started.bl = s.bl ∧ s.started.rows = s.rows ∧
    s.started.cols = s.cols ∧ s.started.font = s.font ∧ s.started.func = s.func ∧ s.started.ctrl = s.ctrl ∧
    s.started.mode = s.mode ∧ s.started.phase = s.phase ∧ s.started.trace = s.trace ++ [.start] ∧
    s.started.rspValid = s.rspValid ∧ s.started.cmdBuf = s.cmdBuf ∧ s.started.rstN = s.rstN ∧
    s.started.cmdIn = s.cmdIn ∧ s.started.waits = s.waits ∧ s.started.acks = s.acks ∧
    s.started.bytes = s.bytes ∧ s.started.stops = s.stops :=
  by and_intros <;> rfl

/-- The fields after WBYTE's end. -/
@[simp] theorem wrote_fields (b : Byte) (s : State) :
    (State.wrote b s).cp = s.cp ∧ (State.wrote b s).useq = s.useq ∧ (State.wrote b s).addr = s.addr ∧
    (State.wrote b s).speed = s.speed ∧ (State.wrote b s).bitrate = s.bitrate ∧
    (State.wrote b s).prescale = s.prescale ∧ (State.wrote b s).busEn = s.busEn ∧ (State.wrote b s).done = s.done ∧
    (State.wrote b s).data = s.data ∧ (State.wrote b s).ackRx = s.acks.head Config.ackBit ∧
    (State.wrote b s).txn = s.txn ∧ (State.wrote b s).stopPend = s.stopPend ∧ (State.wrote b s).resp = s.resp ∧
    (State.wrote b s).bl = s.bl ∧ (State.wrote b s).rows = s.rows ∧ (State.wrote b s).cols = s.cols ∧
    (State.wrote b s).font = s.font ∧ (State.wrote b s).func = s.func ∧ (State.wrote b s).ctrl = s.ctrl ∧
    (State.wrote b s).mode = s.mode ∧ (State.wrote b s).phase = s.phase ∧
    (State.wrote b s).trace = s.trace ++ [.write b] ∧ (State.wrote b s).rspValid = s.rspValid ∧
    (State.wrote b s).cmdBuf = s.cmdBuf ∧ (State.wrote b s).rstN = s.rstN ∧ (State.wrote b s).cmdIn = s.cmdIn ∧
    (State.wrote b s).waits = s.waits ∧ (State.wrote b s).acks = s.acks.tail ∧ (State.wrote b s).bytes = s.bytes ∧
    (State.wrote b s).stops = s.stops :=
  by and_intros <;> rfl

/-- The fields after STOP. -/
@[simp] theorem stopped_fields (s : State) :
    s.stopped.cp = s.cp ∧ s.stopped.useq = s.useq ∧ s.stopped.addr = s.addr ∧ s.stopped.speed = s.speed ∧
    s.stopped.bitrate = s.bitrate ∧ s.stopped.prescale = s.prescale ∧ s.stopped.busEn = s.busEn ∧
    s.stopped.done = false ∧ s.stopped.data = s.data ∧ s.stopped.ackRx = s.ackRx ∧ s.stopped.txn = false ∧
    s.stopped.stopPend = true ∧ s.stopped.resp = s.resp ∧ s.stopped.bl = s.bl ∧ s.stopped.rows = s.rows ∧
    s.stopped.cols = s.cols ∧ s.stopped.font = s.font ∧ s.stopped.func = s.func ∧ s.stopped.ctrl = s.ctrl ∧
    s.stopped.mode = s.mode ∧ s.stopped.phase = s.phase ∧ s.stopped.trace = s.trace ++ [.stop] ∧
    s.stopped.rspValid = s.rspValid ∧ s.stopped.cmdBuf = s.cmdBuf ∧ s.stopped.rstN = s.rstN ∧
    s.stopped.cmdIn = s.cmdIn ∧ s.stopped.waits = s.waits ∧ s.stopped.acks = s.acks ∧
    s.stopped.bytes = s.bytes ∧ s.stopped.stops = s.stops :=
  by and_intros <;> rfl

/-- The fields after RBYTE's end. -/
@[simp] theorem received_fields (s : State) :
    s.received.cp = s.cp ∧ s.received.useq = s.useq ∧ s.received.addr = s.addr ∧
    s.received.speed = s.speed ∧ s.received.bitrate = s.bitrate ∧ s.received.prescale = s.prescale ∧
    s.received.busEn = s.busEn ∧ s.received.done = s.done ∧ s.received.data = s.bytes.head Config.readByte ∧
    s.received.ackRx = s.ackRx ∧ s.received.txn = s.txn ∧ s.received.stopPend = s.stopPend ∧
    s.received.resp = s.bytes.head Config.readByte ∧ s.received.bl = s.bl ∧ s.received.rows = s.rows ∧
    s.received.cols = s.cols ∧ s.received.font = s.font ∧ s.received.func = s.func ∧
    s.received.ctrl = s.ctrl ∧ s.received.mode = s.mode ∧ s.received.phase = s.phase ∧
    s.received.trace = s.trace ++ [.read (s.bytes.head Config.readByte)] ∧ s.received.rspValid = true ∧
    s.received.cmdBuf = s.cmdBuf ∧ s.received.rstN = s.rstN ∧ s.received.cmdIn = s.cmdIn ∧
    s.received.waits = s.waits ∧ s.received.acks = s.acks ∧ s.received.bytes = s.bytes.tail ∧
    s.received.stops = s.stops :=
  by and_intros <;> rfl

/-- The fields after taking a whole command. -/
@[simp] theorem take_fields (rest : List Byte) (s : State) :
    (State.take rest s).cp = s.cp ∧ (State.take rest s).useq = s.useq ∧ (State.take rest s).addr = s.addr ∧
    (State.take rest s).speed = s.speed ∧ (State.take rest s).bitrate = s.bitrate ∧
    (State.take rest s).prescale = s.prescale ∧ (State.take rest s).busEn = s.busEn ∧
    (State.take rest s).done = s.done ∧ (State.take rest s).data = s.data ∧ (State.take rest s).ackRx = s.ackRx ∧
    (State.take rest s).txn = s.txn ∧ (State.take rest s).stopPend = s.stopPend ∧
    (State.take rest s).resp = s.resp ∧ (State.take rest s).bl = s.bl ∧ (State.take rest s).rows = s.rows ∧
    (State.take rest s).cols = s.cols ∧ (State.take rest s).font = s.font ∧ (State.take rest s).func = s.func ∧
    (State.take rest s).ctrl = s.ctrl ∧ (State.take rest s).mode = s.mode ∧ (State.take rest s).phase = s.phase ∧
    (State.take rest s).trace = s.trace ∧ (State.take rest s).rspValid = s.rspValid ∧
    (State.take rest s).cmdBuf = [] ∧ (State.take rest s).rstN = s.rstN ∧ (State.take rest s).cmdIn = rest ∧
    (State.take rest s).waits = s.waits ∧ (State.take rest s).acks = s.acks ∧ (State.take rest s).bytes = s.bytes ∧
    (State.take rest s).stops = s.stops :=
  by and_intros <;> rfl

/-- The fields after taking every byte. -/
@[simp] theorem takeAll_fields (s : State) :
    s.takeAll.cp = s.cp ∧ s.takeAll.useq = s.useq ∧ s.takeAll.addr = s.addr ∧ s.takeAll.speed = s.speed ∧
    s.takeAll.bitrate = s.bitrate ∧ s.takeAll.prescale = s.prescale ∧ s.takeAll.busEn = s.busEn ∧
    s.takeAll.done = s.done ∧ s.takeAll.data = s.data ∧ s.takeAll.ackRx = s.ackRx ∧ s.takeAll.txn = s.txn ∧
    s.takeAll.stopPend = s.stopPend ∧ s.takeAll.resp = s.resp ∧ s.takeAll.bl = s.bl ∧
    s.takeAll.rows = s.rows ∧ s.takeAll.cols = s.cols ∧ s.takeAll.font = s.font ∧ s.takeAll.func = s.func ∧
    s.takeAll.ctrl = s.ctrl ∧ s.takeAll.mode = s.mode ∧ s.takeAll.phase = s.phase ∧
    s.takeAll.trace = s.trace ∧ s.takeAll.rspValid = false ∧ s.takeAll.cmdBuf = s.arrived ∧
    s.takeAll.rstN = s.rstN ∧ s.takeAll.cmdIn = [] ∧ s.takeAll.waits = s.waits ∧ s.takeAll.acks = s.acks ∧
    s.takeAll.bytes = s.bytes ∧ s.takeAll.stops = s.stops :=
  by and_intros <;> rfl

/-- The fields after handing a request to the engine. -/
@[simp] theorem request_fields (s : State) :
    s.request.cp = s.cp ∧ s.request.useq = s.useq ∧ s.request.addr = s.addr ∧ s.request.speed = s.speed ∧
    s.request.bitrate = s.bitrate ∧ s.request.prescale = s.prescale ∧ s.request.busEn = s.busEn ∧
    s.request.done = false ∧ s.request.data = s.data ∧ s.request.ackRx = s.ackRx ∧ s.request.txn = s.txn ∧
    s.request.stopPend = s.stopPend ∧ s.request.resp = s.resp ∧ s.request.bl = s.bl ∧ s.request.rows = s.rows ∧
    s.request.cols = s.cols ∧ s.request.font = s.font ∧ s.request.func = s.func ∧ s.request.ctrl = s.ctrl ∧
    s.request.mode = s.mode ∧ s.request.phase = s.phase ∧ s.request.trace = s.trace ∧
    s.request.rspValid = s.rspValid ∧ s.request.cmdBuf = s.cmdBuf ∧ s.request.rstN = s.rstN ∧
    s.request.cmdIn = s.cmdIn ∧ s.request.waits = s.waits ∧ s.request.acks = s.acks ∧ s.request.bytes = s.bytes ∧
    s.request.stops = s.stops :=
  by and_intros <;> rfl

/-- The fields after a wait that ended. -/
@[simp] theorem waitEnded_fields (s : State) :
    s.waitEnded.cp = s.cp ∧ s.waitEnded.useq = s.useq.advance ∧ s.waitEnded.addr = s.addr ∧
    s.waitEnded.speed = s.speed ∧ s.waitEnded.bitrate = s.bitrate ∧ s.waitEnded.prescale = s.prescale ∧
    s.waitEnded.busEn = s.busEn ∧ s.waitEnded.done = true ∧ s.waitEnded.data = s.data ∧
    s.waitEnded.ackRx = s.ackRx ∧ s.waitEnded.txn = s.txn ∧ s.waitEnded.stopPend = s.stopPend ∧
    s.waitEnded.resp = s.resp ∧ s.waitEnded.bl = s.bl ∧ s.waitEnded.rows = s.rows ∧ s.waitEnded.cols = s.cols ∧
    s.waitEnded.font = s.font ∧ s.waitEnded.func = s.func ∧ s.waitEnded.ctrl = s.ctrl ∧ s.waitEnded.mode = s.mode ∧
    s.waitEnded.phase = s.phase ∧ s.waitEnded.trace = s.trace ∧ s.waitEnded.rspValid = s.rspValid ∧
    s.waitEnded.cmdBuf = s.cmdBuf ∧ s.waitEnded.rstN = s.rstN ∧ s.waitEnded.cmdIn = s.cmdIn ∧
    s.waitEnded.waits = s.waits.tail ∧ s.waitEnded.acks = s.acks ∧ s.waitEnded.bytes = s.bytes ∧
    s.waitEnded.stops = s.stops :=
  by and_intros <;> rfl

/-- The fields after a wait that never ends. -/
@[simp] theorem waitNever_fields (s : State) :
    s.waitNever.cp = s.cp ∧ s.waitNever.useq = s.useq ∧ s.waitNever.addr = s.addr ∧ s.waitNever.speed = s.speed ∧
    s.waitNever.bitrate = s.bitrate ∧ s.waitNever.prescale = s.prescale ∧ s.waitNever.busEn = s.busEn ∧
    s.waitNever.done = s.done ∧ s.waitNever.data = s.data ∧ s.waitNever.ackRx = s.ackRx ∧ s.waitNever.txn = s.txn ∧
    s.waitNever.stopPend = s.stopPend ∧ s.waitNever.resp = s.resp ∧ s.waitNever.bl = s.bl ∧
    s.waitNever.rows = s.rows ∧ s.waitNever.cols = s.cols ∧ s.waitNever.font = s.font ∧ s.waitNever.func = s.func ∧
    s.waitNever.ctrl = s.ctrl ∧ s.waitNever.mode = s.mode ∧ s.waitNever.phase = s.phase ∧
    s.waitNever.trace = s.trace ∧ s.waitNever.rspValid = s.rspValid ∧ s.waitNever.cmdBuf = s.cmdBuf ∧
    s.waitNever.rstN = s.rstN ∧ s.waitNever.cmdIn = s.cmdIn ∧ s.waitNever.waits = s.waits.tail ∧
    s.waitNever.acks = s.acks ∧ s.waitNever.bytes = s.bytes ∧ s.waitNever.stops = s.stops :=
  by and_intros <;> rfl

/-- The fields after loading the shift register. -/
@[simp] theorem load_fields (b : Byte) (s : State) :
    (State.load b s).cp = s.cp ∧ (State.load b s).useq = s.useq ∧ (State.load b s).addr = s.addr ∧
    (State.load b s).speed = s.speed ∧ (State.load b s).bitrate = s.bitrate ∧
    (State.load b s).prescale = s.prescale ∧ (State.load b s).busEn = s.busEn ∧ (State.load b s).done = s.done ∧
    (State.load b s).data = b ∧ (State.load b s).ackRx = s.ackRx ∧ (State.load b s).txn = s.txn ∧
    (State.load b s).stopPend = s.stopPend ∧ (State.load b s).resp = s.resp ∧ (State.load b s).bl = s.bl ∧
    (State.load b s).rows = s.rows ∧ (State.load b s).cols = s.cols ∧ (State.load b s).font = s.font ∧
    (State.load b s).func = s.func ∧ (State.load b s).ctrl = s.ctrl ∧ (State.load b s).mode = s.mode ∧
    (State.load b s).phase = s.phase ∧ (State.load b s).trace = s.trace ∧ (State.load b s).rspValid = s.rspValid ∧
    (State.load b s).cmdBuf = s.cmdBuf ∧ (State.load b s).rstN = s.rstN ∧ (State.load b s).cmdIn = s.cmdIn ∧
    (State.load b s).waits = s.waits ∧ (State.load b s).acks = s.acks ∧ (State.load b s).bytes = s.bytes ∧
    (State.load b s).stops = s.stops :=
  by and_intros <;> rfl

/-- The fields after `BL <- v`. -/
@[simp] theorem setBl_fields (v : Bool) (s : State) :
    (State.setBl v s).cp = s.cp ∧ (State.setBl v s).useq = s.useq ∧ (State.setBl v s).addr = s.addr ∧
    (State.setBl v s).speed = s.speed ∧ (State.setBl v s).bitrate = s.bitrate ∧
    (State.setBl v s).prescale = s.prescale ∧ (State.setBl v s).busEn = s.busEn ∧ (State.setBl v s).done = s.done ∧
    (State.setBl v s).data = s.data ∧ (State.setBl v s).ackRx = s.ackRx ∧ (State.setBl v s).txn = s.txn ∧
    (State.setBl v s).stopPend = s.stopPend ∧ (State.setBl v s).resp = s.resp ∧ (State.setBl v s).bl = v ∧
    (State.setBl v s).rows = s.rows ∧ (State.setBl v s).cols = s.cols ∧ (State.setBl v s).font = s.font ∧
    (State.setBl v s).func = s.func ∧ (State.setBl v s).ctrl = s.ctrl ∧ (State.setBl v s).mode = s.mode ∧
    (State.setBl v s).phase = s.phase ∧ (State.setBl v s).trace = s.trace ∧
    (State.setBl v s).rspValid = s.rspValid ∧ (State.setBl v s).cmdBuf = s.cmdBuf ∧
    (State.setBl v s).rstN = s.rstN ∧ (State.setBl v s).cmdIn = s.cmdIn ∧ (State.setBl v s).waits = s.waits ∧
    (State.setBl v s).acks = s.acks ∧ (State.setBl v s).bytes = s.bytes ∧ (State.setBl v s).stops = s.stops :=
  by and_intros <;> rfl

/-- The fields after the geometry writes. -/
@[simp] theorem setGeometry_fields (r c : Byte) (f : Bool) (s : State) :
    (State.setGeometry r c f s).cp = s.cp ∧ (State.setGeometry r c f s).useq = s.useq ∧
    (State.setGeometry r c f s).addr = s.addr ∧ (State.setGeometry r c f s).speed = s.speed ∧
    (State.setGeometry r c f s).bitrate = s.bitrate ∧ (State.setGeometry r c f s).prescale = s.prescale ∧
    (State.setGeometry r c f s).busEn = s.busEn ∧ (State.setGeometry r c f s).done = s.done ∧
    (State.setGeometry r c f s).data = s.data ∧ (State.setGeometry r c f s).ackRx = s.ackRx ∧
    (State.setGeometry r c f s).txn = s.txn ∧ (State.setGeometry r c f s).stopPend = s.stopPend ∧
    (State.setGeometry r c f s).resp = s.resp ∧ (State.setGeometry r c f s).bl = s.bl ∧
    (State.setGeometry r c f s).rows = r ∧ (State.setGeometry r c f s).cols = c ∧
    (State.setGeometry r c f s).font = f ∧ (State.setGeometry r c f s).func = s.func ∧
    (State.setGeometry r c f s).ctrl = s.ctrl ∧ (State.setGeometry r c f s).mode = s.mode ∧
    (State.setGeometry r c f s).phase = s.phase ∧ (State.setGeometry r c f s).trace = s.trace ∧
    (State.setGeometry r c f s).rspValid = s.rspValid ∧ (State.setGeometry r c f s).cmdBuf = s.cmdBuf ∧
    (State.setGeometry r c f s).rstN = s.rstN ∧ (State.setGeometry r c f s).cmdIn = s.cmdIn ∧
    (State.setGeometry r c f s).waits = s.waits ∧ (State.setGeometry r c f s).acks = s.acks ∧
    (State.setGeometry r c f s).bytes = s.bytes ∧ (State.setGeometry r c f s).stops = s.stops :=
  by and_intros <;> rfl

/-- The fields after `FUNC <- v`. -/
@[simp] theorem setFunc_fields (v : Byte) (s : State) :
    (State.setFunc v s).cp = s.cp ∧ (State.setFunc v s).useq = s.useq ∧ (State.setFunc v s).addr = s.addr ∧
    (State.setFunc v s).speed = s.speed ∧ (State.setFunc v s).bitrate = s.bitrate ∧
    (State.setFunc v s).prescale = s.prescale ∧ (State.setFunc v s).busEn = s.busEn ∧
    (State.setFunc v s).done = s.done ∧ (State.setFunc v s).data = s.data ∧ (State.setFunc v s).ackRx = s.ackRx ∧
    (State.setFunc v s).txn = s.txn ∧ (State.setFunc v s).stopPend = s.stopPend ∧
    (State.setFunc v s).resp = s.resp ∧ (State.setFunc v s).bl = s.bl ∧ (State.setFunc v s).rows = s.rows ∧
    (State.setFunc v s).cols = s.cols ∧ (State.setFunc v s).font = s.font ∧ (State.setFunc v s).func = v ∧
    (State.setFunc v s).ctrl = s.ctrl ∧ (State.setFunc v s).mode = s.mode ∧ (State.setFunc v s).phase = s.phase ∧
    (State.setFunc v s).trace = s.trace ∧ (State.setFunc v s).rspValid = s.rspValid ∧
    (State.setFunc v s).cmdBuf = s.cmdBuf ∧ (State.setFunc v s).rstN = s.rstN ∧
    (State.setFunc v s).cmdIn = s.cmdIn ∧ (State.setFunc v s).waits = s.waits ∧ (State.setFunc v s).acks = s.acks ∧
    (State.setFunc v s).bytes = s.bytes ∧ (State.setFunc v s).stops = s.stops :=
  by and_intros <;> rfl

/-- The fields after `CTRL <- v`. -/
@[simp] theorem setCtrl_fields (v : Byte) (s : State) :
    (State.setCtrl v s).cp = s.cp ∧ (State.setCtrl v s).useq = s.useq ∧ (State.setCtrl v s).addr = s.addr ∧
    (State.setCtrl v s).speed = s.speed ∧ (State.setCtrl v s).bitrate = s.bitrate ∧
    (State.setCtrl v s).prescale = s.prescale ∧ (State.setCtrl v s).busEn = s.busEn ∧
    (State.setCtrl v s).done = s.done ∧ (State.setCtrl v s).data = s.data ∧ (State.setCtrl v s).ackRx = s.ackRx ∧
    (State.setCtrl v s).txn = s.txn ∧ (State.setCtrl v s).stopPend = s.stopPend ∧
    (State.setCtrl v s).resp = s.resp ∧ (State.setCtrl v s).bl = s.bl ∧ (State.setCtrl v s).rows = s.rows ∧
    (State.setCtrl v s).cols = s.cols ∧ (State.setCtrl v s).font = s.font ∧ (State.setCtrl v s).func = s.func ∧
    (State.setCtrl v s).ctrl = v ∧ (State.setCtrl v s).mode = s.mode ∧ (State.setCtrl v s).phase = s.phase ∧
    (State.setCtrl v s).trace = s.trace ∧ (State.setCtrl v s).rspValid = s.rspValid ∧
    (State.setCtrl v s).cmdBuf = s.cmdBuf ∧ (State.setCtrl v s).rstN = s.rstN ∧
    (State.setCtrl v s).cmdIn = s.cmdIn ∧ (State.setCtrl v s).waits = s.waits ∧ (State.setCtrl v s).acks = s.acks ∧
    (State.setCtrl v s).bytes = s.bytes ∧ (State.setCtrl v s).stops = s.stops :=
  by and_intros <;> rfl

/-- The fields after `MODE <- v`. -/
@[simp] theorem setMode_fields (v : Byte) (s : State) :
    (State.setMode v s).cp = s.cp ∧ (State.setMode v s).useq = s.useq ∧ (State.setMode v s).addr = s.addr ∧
    (State.setMode v s).speed = s.speed ∧ (State.setMode v s).bitrate = s.bitrate ∧
    (State.setMode v s).prescale = s.prescale ∧ (State.setMode v s).busEn = s.busEn ∧
    (State.setMode v s).done = s.done ∧ (State.setMode v s).data = s.data ∧ (State.setMode v s).ackRx = s.ackRx ∧
    (State.setMode v s).txn = s.txn ∧ (State.setMode v s).stopPend = s.stopPend ∧
    (State.setMode v s).resp = s.resp ∧ (State.setMode v s).bl = s.bl ∧ (State.setMode v s).rows = s.rows ∧
    (State.setMode v s).cols = s.cols ∧ (State.setMode v s).font = s.font ∧ (State.setMode v s).func = s.func ∧
    (State.setMode v s).ctrl = s.ctrl ∧ (State.setMode v s).mode = v ∧ (State.setMode v s).phase = s.phase ∧
    (State.setMode v s).trace = s.trace ∧ (State.setMode v s).rspValid = s.rspValid ∧
    (State.setMode v s).cmdBuf = s.cmdBuf ∧ (State.setMode v s).rstN = s.rstN ∧
    (State.setMode v s).cmdIn = s.cmdIn ∧ (State.setMode v s).waits = s.waits ∧ (State.setMode v s).acks = s.acks ∧
    (State.setMode v s).bytes = s.bytes ∧ (State.setMode v s).stops = s.stops :=
  by and_intros <;> rfl

/-- The fields after `PHASE <- Ready`. -/
@[simp] theorem setReady_fields (s : State) :
    s.setReady.cp = s.cp ∧ s.setReady.useq = s.useq ∧ s.setReady.addr = s.addr ∧ s.setReady.speed = s.speed ∧
    s.setReady.bitrate = s.bitrate ∧ s.setReady.prescale = s.prescale ∧ s.setReady.busEn = s.busEn ∧
    s.setReady.done = s.done ∧ s.setReady.data = s.data ∧ s.setReady.ackRx = s.ackRx ∧ s.setReady.txn = s.txn ∧
    s.setReady.stopPend = s.stopPend ∧ s.setReady.resp = s.resp ∧ s.setReady.bl = s.bl ∧ s.setReady.rows = s.rows ∧
    s.setReady.cols = s.cols ∧ s.setReady.font = s.font ∧ s.setReady.func = s.func ∧ s.setReady.ctrl = s.ctrl ∧
    s.setReady.mode = s.mode ∧ s.setReady.phase = .ready ∧ s.setReady.trace = s.trace ∧
    s.setReady.rspValid = s.rspValid ∧ s.setReady.cmdBuf = s.cmdBuf ∧ s.setReady.rstN = s.rstN ∧
    s.setReady.cmdIn = s.cmdIn ∧ s.setReady.waits = s.waits ∧ s.setReady.acks = s.acks ∧
    s.setReady.bytes = s.bytes ∧ s.setReady.stops = s.stops :=
  by and_intros <;> rfl

end Sys2Proof.Machine
end

