-- ==== Sys2Proof/Laws/Ops.lean ====
section
/-! SUPPORT. The laws of the shared operations of Sys2Proof/Machine/Ops.lean: feeds, the sequencing of pseudocode, and
once for all what a piece of pseudocode can end in. -/

namespace Sys2Proof.Machine

/-! ## Feeds -/

@[simp] theorem Feed.head_cons {α : Type} (free : Nat → α) (a : α) (rest : List α) (n : Nat) :
    Feed.head free ⟨a :: rest, n⟩ = a := rfl

@[simp] theorem Feed.head_nil {α : Type} (free : Nat → α) (n : Nat) : Feed.head free ⟨[], n⟩ = free n := rfl

@[simp] theorem Feed.tail_cons {α : Type} (a : α) (rest : List α) (n : Nat) :
    Feed.tail (⟨a :: rest, n⟩ : Feed α) = ⟨rest, n⟩ := rfl

@[simp] theorem Feed.tail_nil {α : Type} (n : Nat) : Feed.tail (⟨[], n⟩ : Feed α) = ⟨[], n + 1⟩ := rfl

@[simp] theorem Feed.skip_zero {α : Type} (f : Feed α) : f.skip 0 = f := rfl

theorem Feed.skip_succ {α : Type} (n : Nat) (f : Feed α) : f.skip (n + 1) = f.tail.skip n := rfl

theorem Feed.skip_one {α : Type} (f : Feed α) : f.skip 1 = f.tail := rfl

theorem Feed.skip_add {α : Type} (m n : Nat) (f : Feed α) : f.skip (m + n) = (f.skip m).skip n := by
  induction m generalizing f with
  | zero => simp
  | succ m ih => rw [Nat.succ_add, Feed.skip_succ, Feed.skip_succ, ih]

@[simp] theorem Feed.allTrue_zero (free : Nat → Bool) (f : Feed Bool) : f.allTrue free 0 = true := rfl

theorem Feed.allTrue_succ (free : Nat → Bool) (n : Nat) (f : Feed Bool) :
    f.allTrue free (n + 1) = (f.head free && f.tail.allTrue free n) := rfl

theorem Feed.allTrue_add (free : Nat → Bool) (m n : Nat) (f : Feed Bool) :
    f.allTrue free (m + n) = (f.allTrue free m && (f.skip m).allTrue free n) := by
  induction m generalizing f with
  | zero => simp
  | succ m ih => rw [Nat.succ_add, Feed.allTrue_succ, Feed.allTrue_succ, ih, Feed.skip_succ, Bool.and_assoc]

/-- Waits that end, one after the other. -/
theorem waitsEnd_add (s : State) (m n : Nat) :
    s.waitsEnd (m + n) = (s.waitsEnd m && (s.waits.skip m).allTrue Config.waitEnds n) :=
  Feed.allTrue_add _ _ _ _

/-- `k` answers `true` at the front of what has been given are `k` waits that end. -/
theorem allTrue_replicate (free : Nat → Bool) (k : Nat) (rest : List Bool) (n : Nat) :
    Feed.allTrue free k ⟨List.replicate k true ++ rest, n⟩ = true := by
  induction k with
  | zero => rfl
  | succ k ih => simpa [Feed.allTrue_succ, List.replicate_succ] using ih

/-! ## Sequencing -/

@[simp] theorem Flow.done_andThen (s : State) (g : State → Flow) : (Flow.done s).andThen g = g s := rfl

@[simp] theorem Flow.stuck_andThen (s : State) (g : State → Flow) : (Flow.stuck s).andThen g = .stuck s := rfl

@[simp] theorem Flow.refused_andThen (r : Refusal) (g : State → Flow) : (Flow.refused r).andThen g = .refused r := rfl

@[simp] theorem Flow.andThen_done (f : Flow) : f.andThen .done = f := by cases f <;> rfl

theorem Flow.andThen_assoc (f : Flow) (g h : State → Flow) :
    (f.andThen g).andThen h = f.andThen fun s => (g s).andThen h := by cases f <;> rfl

@[simp] theorem steps_nil (s : State) : steps [] s = .done s := rfl

@[simp] theorem steps_nil_eq : steps [] = Flow.done := rfl

@[simp] theorem steps_cons (f : State → Flow) (fs : List (State → Flow)) (s : State) :
    steps (f :: fs) s = (f s).andThen (steps fs) := rfl

theorem steps_append (fs gs : List (State → Flow)) (s : State) :
    steps (fs ++ gs) s = (steps fs s).andThen (steps gs) := by
  induction fs generalizing s with
  | nil => rfl
  | cons f fs ih => cases h : f s <;> simp [h, ih]

@[simp] theorem assign_apply (f : State → State) (s : State) : assign f s = .done (f s) := rfl

theorem require_pos {ok : State → Bool} {s : State} (h : ok s = true) (r : Refusal) : require ok r s = .done s := by
  simp [require, h]

theorem require_neg {ok : State → Bool} {s : State} (h : ok s = false) (r : Refusal) : require ok r s = .refused r := by
  simp [require, h]

@[simp] theorem delayUs_apply (n : Nat) (s : State) : delayUs n s = .done (emit (.delay n) (engine s)) := rfl

/-! ## Waiting: everything `waitDone` can do -/

theorem waitDone_ends {s : State} (he : s.busEn = true) (hw : s.waits.head Config.waitEnds = true) :
    waitDone s = .done s.waitEnded := by simp [waitDone, he, hw]

theorem waitDone_never {s : State} (he : s.busEn = true) (hw : s.waits.head Config.waitEnds = false) :
    waitDone s = .stuck s.waitNever := by simp [waitDone, he, hw]

theorem waitDone_disabled {s : State} (he : s.busEn = false) : waitDone s = .stuck s := by simp [waitDone, he]

/-! ## What a piece of pseudocode can end in

`f.Holds D S` says that where the flow is done `D` holds of the state, and where it is stuck `S` does; `Triple P f D S`
says so of a piece of pseudocode from every state where `P` holds. -/

/-- The two ways a flow can leave a state. -/
def Flow.Holds (D S : State → Prop) : Flow → Prop
  | .done s => D s
  | .stuck s => S s
  | .refused _ => True

/-- From every state where `P` holds, `f` ends in a state where `D` holds, or waits for ever in one where `S` holds, or
is refused. -/
def Triple (P : State → Prop) (f : State → Flow) (D S : State → Prop) : Prop := ∀ s, P s → (f s).Holds D S

theorem Flow.Holds.mono {D D' S S' : State → Prop} {f : Flow} (h : f.Holds D S) (hd : ∀ s, D s → D' s)
    (hs : ∀ s, S s → S' s) : f.Holds D' S' := by
  cases f with
  | done s => exact hd s h
  | stuck s => exact hs s h
  | refused r => trivial

theorem Flow.Holds.andThen {Q D S : State → Prop} {f : Flow} {g : State → Flow} (hf : f.Holds Q S)
    (hg : Triple Q g D S) : (f.andThen g).Holds D S := by
  cases f with
  | done s => exact hg s hf
  | stuck s => exact hf
  | refused r => trivial

/-- The lines of a body, each of which keeps `P`, keep it together. -/
theorem triple_steps {P S : State → Prop} {fs : List (State → Flow)} (h : ∀ f ∈ fs, Triple P f P S) :
    Triple P (steps fs) P S := by
  induction fs with
  | nil => exact fun s hs => hs
  | cons f fs ih =>
    intro s hs
    rw [steps_cons]
    exact (h f (by simp) s hs).andThen (ih fun g hg => h g (by simp [hg]))

theorem triple_assign {P D S : State → Prop} {f : State → State} (h : ∀ s, P s → D (f s)) : Triple P (assign f) D S := h

theorem triple_require {P S : State → Prop} (ok : State → Bool) (r : Refusal) :
    Triple P (require ok r) (fun s => P s ∧ ok s = true) S := by
  intro s hs
  cases h : ok s with
  | true => rw [require_pos h]; exact ⟨hs, h⟩
  | false => rw [require_neg h]; trivial

/-! ## Steps -/

@[simp] theorem runSteps_zero (s : State) : runSteps 0 s = .next s := rfl

theorem runSteps_succ {s t : State} (n : Nat) (h : step s = .next t) : runSteps (n + 1) s = runSteps n t := by
  simp [runSteps, h]

theorem host_run_next (M : Host.Core) {n : Nat} {s t : M.State} (h : M.step s = .next t) :
    M.run (n + 1) s = M.run n t := by simp [Host.Core.run, h]

theorem host_run_refused (M : Host.Core) {n : Nat} {s : M.State} {r : M.Refusal} (h : M.step s = .refused r) :
    M.run (n + 1) s = .refused r := by simp [Host.Core.run, h]

/-- `runSteps` is the host's own run of the core. -/
theorem runSteps_eq_core_run (n : Nat) (s : State) : runSteps n s = Host.Core.run core n s := by
  induction n generalizing s with
  | zero => rfl
  | succ n ih =>
    cases h : step s with
    | next t => exact (runSteps_succ n h).trans ((ih t).trans (host_run_next core h).symm)
    | fault f => cases f
    | refused r =>
      have : runSteps (n + 1) s = .refused r := by simp [runSteps, h]
      exact this.trans (host_run_refused core h).symm

/-! ## A command from start to end -/

/-- Everything a command can answer with: its body done, its body stuck, or its body refused. -/
theorem perform_next {i : Instr} {body : State → Flow} {s t : State} (h : perform i body s = .next t) :
    (∃ u, body (s.begin i) = .done u ∧ t = u.complete) ∨ body (s.begin i) = .stuck t := by
  cases hb : body (s.begin i) with
  | done u => simp only [perform, hb, Host.Outcome.next.injEq] at h; exact .inl ⟨u, rfl, h.symm⟩
  | stuck u => simp only [perform, hb, Host.Outcome.next.injEq] at h; exact .inr (by rw [h])
  | refused r => simp [perform, hb] at h

theorem perform_done {i : Instr} {body : State → Flow} {s u : State} (h : body (s.begin i) = .done u) :
    perform i body s = .next u.complete := by simp [perform, h]

theorem perform_stuck {i : Instr} {body : State → Flow} {s u : State} (h : body (s.begin i) = .stuck u) :
    perform i body s = .next u := by simp [perform, h]

theorem perform_refused {i : Instr} {body : State → Flow} {s : State} {r : Refusal}
    (h : body (s.begin i) = .refused r) : perform i body s = .refused r := by simp [perform, h]

/-- A property that a command's body establishes, of its outcome. -/
theorem perform_holds {P D S : State → Prop} {i : Instr} {body : State → Flow} {s t : State}
    (hb : Triple P body D S) (hp : P (s.begin i)) (h : perform i body s = .next t) :
    (∃ u, D u ∧ t = u.complete) ∨ S t := by
  have := hb _ hp
  obtain ⟨u, hu, rfl⟩ | hu := perform_next h <;> rw [hu] at this
  · exact .inl ⟨u, this, rfl⟩
  · exact .inr this

/-- The body of each command. -/
def bodyOf : Instr → State → Flow
  | .configure addr speed => configure addr speed
  | .start => start
  | .wbyte b => writeByte b
  | .stop => stop
  | .rbyte => readByte
  | .sendNibble x => sendNibble x
  | .pulseLatch x => pulseLatch x
  | .sendByte v m => sendByte v m
  | .setBacklight on => setBacklight on
  | .init rows cols font => initialize4Bit rows cols font
  | .clear => clear
  | .home => home
  | .setCursor col row => setCursor col row
  | .display on => controlFlag Config.flagDisplay on
  | .cursor on => controlFlag Config.flagCursor on
  | .blink on => controlFlag Config.flagBlink on
  | .entryDir ltr => modeFlag "ltr" Config.flagLtr ltr
  | .autoscroll on => modeFlag "on" Config.flagAutoscroll on
  | .scroll right => scroll right
  | .loadGlyph slot p0 p1 p2 p3 p4 p5 p6 p7 => loadGlyph slot [p0, p1, p2, p3, p4, p5, p6, p7]
  | .print cs => print cs
  | .backlight on => backlight on

/-- Every command is its body from start to end. -/
theorem exec_eq_perform (i : Instr) (s : State) : exec i s = perform i (bodyOf i) s := by cases i <;> rfl

end Sys2Proof.Machine
end

