-- ==== Sys2Proof/Laws/Bus.lean ====
section
/-! SUPPORT. Everything each BusDriver body can do, one theorem an outcome (rules R120 to R126). -/

namespace Sys2Proof.Machine

/-! ## START -/

theorem start_refused {s : State} (h : s.txn = true) : start s = .refused .startInOpenTransaction := by
  simp [start, requireClosed, require, h]

theorem start_ends {s : State} (ht : s.txn = false) (he : s.busEn = true)
    (hw : s.waits.head Config.waitEnds = true) : start s = .done s.request.waitEnded.started := by
  simp [start, requireClosed, require, ht, waitDone, he, hw]

theorem start_never {s : State} (ht : s.txn = false) (he : s.busEn = true)
    (hw : s.waits.head Config.waitEnds = false) : start s = .stuck s.request.waitNever := by
  simp [start, requireClosed, require, ht, waitDone, he, hw]

theorem start_disabled {s : State} (ht : s.txn = false) (he : s.busEn = false) : start s = .stuck s.request := by
  simp [start, requireClosed, require, ht, waitDone, he]

/-! ## WBYTE -/

theorem writeByte_refused {s : State} (b : Byte) (h : s.txn = false) :
    writeByte b s = .refused .byteOutsideTransaction := by
  simp [writeByte, require, h]

theorem writeByte_ends {s : State} (b : Byte) (ht : s.txn = true) (he : s.busEn = true)
    (hw : s.waits.head Config.waitEnds = true) :
    writeByte b s = .done (State.wrote b (State.waitEnded (State.request (State.load b s)))) := by
  simp [writeByte, require, ht, waitDone, he, hw]

theorem writeByte_never {s : State} (b : Byte) (ht : s.txn = true) (he : s.busEn = true)
    (hw : s.waits.head Config.waitEnds = false) :
    writeByte b s = .stuck (State.waitNever (State.request (State.load b s))) := by
  simp [writeByte, require, ht, waitDone, he, hw]

theorem writeByte_disabled {s : State} (b : Byte) (ht : s.txn = true) (he : s.busEn = false) :
    writeByte b s = .stuck (State.request (State.load b s)) := by
  simp [writeByte, require, ht, waitDone, he]

/-! ## STOP -/

theorem stop_refused {s : State} (h : s.txn = false) : stop s = .refused .stopOutsideTransaction := by
  simp [stop, require, h]

theorem stop_ends {s : State} (h : s.txn = true) : stop s = .done s.stopped := by
  simp [stop, require, h]

/-! ## RBYTE -/

theorem readByte_refused {s : State} (h : s.txn = false) : readByte s = .refused .byteOutsideTransaction := by
  simp [readByte, require, h]

theorem readByte_ends {s : State} (ht : s.txn = true) (he : s.busEn = true)
    (hw : s.waits.head Config.waitEnds = true) : readByte s = .done s.request.waitEnded.received := by
  simp [readByte, require, ht, waitDone, he, hw]

theorem readByte_never {s : State} (ht : s.txn = true) (he : s.busEn = true)
    (hw : s.waits.head Config.waitEnds = false) : readByte s = .stuck s.request.waitNever := by
  simp [readByte, require, ht, waitDone, he, hw]

theorem readByte_disabled {s : State} (ht : s.txn = true) (he : s.busEn = false) : readByte s = .stuck s.request := by
  simp [readByte, require, ht, waitDone, he]

/-! ## CONFIGURE -/

theorem configure_ends {s : State} {addr speed : Byte} (ha : badAddr addr = false) (he : s.busEn = false) :
    configure addr speed s = .done (State.configured addr speed s) := by
  simp [configure, require, ha, he]

theorem configure_badAddr {s : State} {addr speed : Byte} (ha : badAddr addr = true) :
    configure addr speed s = .refused (.reservedOperand "addr") := by
  simp [configure, require, ha]

theorem configure_again {s : State} {addr speed : Byte} (ha : badAddr addr = false) (he : s.busEn = true) :
    configure addr speed s = .refused .busConfigImmutable := by
  simp [configure, require, ha, he]

/-! ## The bodies as transformers of properties

A property that the registers a body writes do not touch is kept: each theorem names what must be checked, once. -/

theorem triple_start {P D S : State → Prop}
    (hd : ∀ s, P s → s.txn = false → s.busEn = true → D s.request.waitEnded.started)
    (hn : ∀ s, P s → s.txn = false → s.busEn = true → S s.request.waitNever)
    (hz : ∀ s, P s → s.txn = false → s.busEn = false → S s.request) : Triple P start D S := by
  intro s hs
  cases ht : s.txn with
  | true => rw [start_refused ht]; trivial
  | false =>
    cases he : s.busEn with
    | false => rw [start_disabled ht he]; exact hz s hs ht he
    | true =>
      cases hw : s.waits.head Config.waitEnds with
      | true => rw [start_ends ht he hw]; exact hd s hs ht he
      | false => rw [start_never ht he hw]; exact hn s hs ht he

theorem triple_writeByte {P D S : State → Prop} {b : Byte}
    (hd : ∀ s, P s → s.txn = true → s.busEn = true →
      D (State.wrote b (State.waitEnded (State.request (State.load b s)))))
    (hn : ∀ s, P s → s.txn = true → s.busEn = true → S (State.waitNever (State.request (State.load b s))))
    (hz : ∀ s, P s → s.txn = true → s.busEn = false → S (State.request (State.load b s))) :
    Triple P (writeByte b) D S := by
  intro s hs
  cases ht : s.txn with
  | false => rw [writeByte_refused b ht]; trivial
  | true =>
    cases he : s.busEn with
    | false => rw [writeByte_disabled b ht he]; exact hz s hs ht he
    | true =>
      cases hw : s.waits.head Config.waitEnds with
      | true => rw [writeByte_ends b ht he hw]; exact hd s hs ht he
      | false => rw [writeByte_never b ht he hw]; exact hn s hs ht he

theorem triple_stop {P D S : State → Prop} (hd : ∀ s, P s → s.txn = true → D s.stopped) : Triple P stop D S := by
  intro s hs
  cases ht : s.txn with
  | false => rw [stop_refused ht]; trivial
  | true => rw [stop_ends ht]; exact hd s hs ht

theorem triple_readByte {P D S : State → Prop}
    (hd : ∀ s, P s → s.txn = true → s.busEn = true → D s.request.waitEnded.received)
    (hn : ∀ s, P s → s.txn = true → s.busEn = true → S s.request.waitNever)
    (hz : ∀ s, P s → s.txn = true → s.busEn = false → S s.request) : Triple P readByte D S := by
  intro s hs
  cases ht : s.txn with
  | false => rw [readByte_refused ht]; trivial
  | true =>
    cases he : s.busEn with
    | false => rw [readByte_disabled ht he]; exact hz s hs ht he
    | true =>
      cases hw : s.waits.head Config.waitEnds with
      | true => rw [readByte_ends ht he hw]; exact hd s hs ht he
      | false => rw [readByte_never ht he hw]; exact hn s hs ht he

end Sys2Proof.Machine
end

