-- ==== Sys2Proof/Laws/Send.lean ====
section
/-! SUPPORT. What the sending bodies do when the bus is ready: `Sends f n ev` says once, for a piece of pseudocode that
only sends, that it completes after `n` waits with the events `ev` and changes nothing else (rules R140 to R142, R161,
R162, R170, R171). -/

namespace Sys2Proof.Machine

/-- The registers and inputs that sending leaves alone. -/
structure SameRest (s t : State) : Prop where
  cp : t.cp = s.cp
  config : SameBusConfig s t
  bl : t.bl = s.bl
  display : SameDisplay s t
  resp : t.resp = s.resp
  bytes : t.bytes = s.bytes
  rspValid : t.rspValid = s.rspValid
  inputs : SameInputs s t

theorem SameRest.refl (s : State) : SameRest s s := by
  constructor <;> simp [SameBusConfig, SameDisplay, SameGeometry, SameInputs]

theorem SameRest.trans {s t u : State} (h : SameRest s t) (k : SameRest t u) : SameRest s u := by
  obtain ⟨a1, ⟨a2, a3, a4, a5, a6⟩, a7, ⟨⟨a8, a9, a10, a11⟩, a12, a13, a14⟩, a15, a16, a17, a18, a19, a20⟩ := h
  obtain ⟨b1, ⟨b2, b3, b4, b5, b6⟩, b7, ⟨⟨b8, b9, b10, b11⟩, b12, b13, b14⟩, b15, b16, b17, b18, b19, b20⟩ := k
  constructor <;> simp [SameBusConfig, SameDisplay, SameGeometry, SameInputs, *]

/-- `t` is `s` after sending: `n` waits, the events `evs`, nothing else. -/
structure Sent (n : Nat) (evs : List Event) (s t : State) : Prop where
  trace : t.trace = s.trace ++ evs
  data : t.data = dataAfter s.data evs
  done : t.done = doneAfter s.done evs
  txn : t.txn = s.txn
  waits : t.waits = s.waits.skip n
  acks : t.acks = s.acks.skip (writesIn evs)
  useq : t.useq = USeq.advance^[n] s.useq
  rest : SameRest s t

theorem dataAfter_append (d : Byte) (l r : List Event) : dataAfter d (l ++ r) = dataAfter (dataAfter d l) r := by
  simp [dataAfter]

theorem doneAfter_append (d : Bool) (l r : List Event) : doneAfter d (l ++ r) = doneAfter (doneAfter d l) r := by
  simp [doneAfter]

theorem writesIn_append (l r : List Event) : writesIn (l ++ r) = writesIn l + writesIn r := by
  simp [writesIn]

theorem Sent.refl (s : State) : Sent 0 [] s s := by
  constructor <;> simp [dataAfter, doneAfter, writesIn, SameRest.refl]

theorem Sent.trans {m n : Nat} {l r : List Event} {s t u : State} (h : Sent m l s t) (k : Sent n r t u) :
    Sent (m + n) (l ++ r) s u where
  trace := by rw [k.trace, h.trace, List.append_assoc]
  data := by rw [k.data, h.data, dataAfter_append]
  done := by rw [k.done, h.done, doneAfter_append]
  txn := k.txn.trans h.txn
  waits := by rw [k.waits, h.waits, Feed.skip_add]
  acks := by rw [k.acks, h.acks, writesIn_append, Feed.skip_add]
  useq := by rw [k.useq, h.useq, Nat.add_comm m n, Function.iterate_add_apply]
  rest := h.rest.trans k.rest

theorem BusReady.of_sent {m n : Nat} {evs : List Event} {s t : State} (h : BusReady s (m + n)) (k : Sent m evs s t) :
    BusReady t n := by
  obtain ⟨he, ht, hw⟩ := h
  rw [waitsEnd_add, Bool.and_eq_true] at hw
  exact ⟨k.rest.config.2.2.2.2.trans he, k.txn.trans ht, by rw [State.waitsEnd, k.waits]; exact hw.2⟩

theorem BusReady.mono {m n : Nat} {s : State} (h : BusReady s (m + n)) : BusReady s m := by
  obtain ⟨he, ht, hw⟩ := h
  rw [waitsEnd_add, Bool.and_eq_true] at hw
  exact ⟨he, ht, hw.1⟩

/-- A piece of pseudocode that only sends: from a ready bus it completes after `n` waits with the events `ev`. -/
def Sends (f : State → Flow) (n : Nat) (ev : BitVec 7 → Bool → List Event) : Prop :=
  ∀ s, BusReady s n → ∃ t, f s = .done t ∧ Sent n (ev s.addr s.bl) s t

theorem sends_nil : Sends (steps []) 0 fun _ _ => [] := fun s _ => ⟨s, rfl, Sent.refl s⟩

theorem Sends.cons {f : State → Flow} {fs : List (State → Flow)} {m n : Nat} {l r : BitVec 7 → Bool → List Event}
    (hf : Sends f m l) (hfs : Sends (steps fs) n r) :
    Sends (steps (f :: fs)) (m + n) fun a b => l a b ++ r a b := by
  intro s hs
  obtain ⟨t, ht, hst⟩ := hf s hs.mono
  obtain ⟨u, hu, htu⟩ := hfs t (hs.of_sent hst)
  rw [hst.rest.config.1, hst.rest.bl] at htu
  exact ⟨u, by rw [steps_cons, ht, Flow.done_andThen, hu], hst.trans htu⟩

theorem sends_delay (n : Nat) : Sends (delayUs n) 0 fun _ _ => [.delay n] := by
  intro s _
  have hr : SameRest s (emit (.delay n) (engine s)) := by
    constructor <;> simp [SameBusConfig, SameDisplay, SameGeometry, SameInputs]
  exact ⟨_, delayUs_apply n s, by simp, by simp [dataAfter], by simp [doneAfter], by simp, by simp,
    by simp [writesIn], by simp, hr⟩

/-- SENDNIBBLE with the enabled bus ready: its end state, spelled out (R140). -/
theorem sendNibble_ends {s : State} (x : Byte) (h : BusReady s 3) :
    ∃ t, sendNibble x s = .done t ∧ Sent 3 (sendNibbleEvents s.addr s.bl x) s t ∧ t.stopPend = true := by
  obtain ⟨he, ht, hw⟩ := h
  simp only [State.waitsEnd, Feed.allTrue_succ, Bool.and_eq_true, Feed.allTrue_zero, and_true] at hw
  obtain ⟨hw1, hw2, hw3⟩ := hw
  let s1 := s.request.waitEnded.started
  let s2 := State.wrote (addrByte s.addr) (State.waitEnded (State.request (State.load (addrByte s.addr) s1)))
  let s3 := State.wrote (x ||| blMask s.bl) (State.waitEnded (State.request (State.load (x ||| blMask s.bl) s2)))
  have h1 : start s = .done s1 := start_ends ht he hw1
  have h2 : writeByte (addrByte s.addr) s1 = .done s2 :=
    writeByte_ends _ (by simp [s1]) (by simp [s1, he]) (by simpa [s1] using hw2)
  have h3 : writeByte (x ||| blMask s.bl) s2 = .done s3 :=
    writeByte_ends _ (by simp [s2, s1]) (by simp [s2, s1, he]) (by simpa [s2, s1] using hw3)
  have h4 : stop s3 = .done s3.stopped := stop_ends (by simp [s3, s2, s1])
  have hr : SameRest s s3.stopped := by
    constructor <;> simp [s3, s2, s1, SameBusConfig, SameDisplay, SameGeometry, SameInputs]
  refine ⟨s3.stopped, by simp [sendNibble, h1, h2, h3, h4], ⟨?_, ?_, ?_, ?_, ?_, ?_, ?_, hr⟩, by simp⟩
  all_goals simp [s3, s2, s1, sendNibbleEvents, busWriteEvents, dataAfter, doneAfter, writesIn, ht, Feed.skip_succ]

theorem sends_sendNibble (x : Byte) : Sends (sendNibble x) 3 fun a b => sendNibbleEvents a b x := fun _ hs =>
  let ⟨t, ht, hst, _⟩ := sendNibble_ends x hs
  ⟨t, ht, hst⟩

/-- PULSELATCH's events with the parameters of the model for the numbers of R141. -/
theorem pulseLatchEvents_eq (a : BitVec 7) (b : Bool) (x : Byte) :
    pulseLatchEvents a b x = sendNibbleEvents a b (enableSet x) ++ [.delay Config.tEnHighUs] ++
      sendNibbleEvents a b (enableClear x) ++ [.delay Config.tEnLowUs] := rfl

/-- CLEAR's and HOME's events with the model's parameter for the number of R161 and R162. -/
theorem homingEvents_eq (a : BitVec 7) (b : Bool) (v : Byte) :
    homingEvents a b v = commandEvents a b v ++ [.delay Config.tHomeUs] := rfl

theorem sends_pulseLatch (x : Byte) : Sends (pulseLatch x) 6 fun a b => pulseLatchEvents a b x := by
  simpa [pulseLatch, pulseLatchEvents_eq] using
    (sends_sendNibble (enableSet x)).cons <| (sends_delay Config.tEnHighUs).cons <|
      (sends_sendNibble (enableClear x)).cons <| (sends_delay Config.tEnLowUs).cons sends_nil

theorem sends_nibbleTransfer (x : Byte) : Sends (nibbleTransfer x) 9 fun a b => nibbleTransferEvents a b x := by
  simpa [nibbleTransfer, nibbleTransferEvents] using
    (sends_sendNibble x).cons <| (sends_pulseLatch x).cons sends_nil

theorem sends_sendByte (v m : Byte) : Sends (sendByte v m) 18 fun a b => sendByteEvents a b v m := by
  simpa [sendByte, sendByteEvents, nibbleTransferEvents] using
    (sends_sendNibble (hiNibble v m)).cons <| (sends_pulseLatch (hiNibble v m)).cons <|
      (sends_sendNibble (loNibble v m)).cons <| (sends_pulseLatch (loNibble v m)).cons sends_nil

theorem sends_command (b : Byte) : Sends (command b) 18 fun a l => commandEvents a l b := sends_sendByte b 0x00

theorem sends_writeData (b : Byte) : Sends (writeData b) 18 fun a l => dataEvents a l b := sends_sendByte b Config.bitRS

theorem sends_clearBody : Sends clearBody 18 fun a b => homingEvents a b Config.cmdClear := by
  simpa [clearBody, homingEvents_eq] using (sends_command Config.cmdClear).cons <| (sends_delay Config.tHomeUs).cons sends_nil

theorem sends_homeBody : Sends homeBody 18 fun a b => homingEvents a b Config.cmdHome := by
  simpa [homeBody, homingEvents_eq] using (sends_command Config.cmdHome).cons <| (sends_delay Config.tHomeUs).cons sends_nil

theorem sends_writeAll (ps : List Byte) :
    Sends (writeAll ps) (18 * ps.length) fun a b => ps.flatMap (dataEvents a b) := by
  induction ps with
  | nil => exact fun s _ => ⟨s, rfl, Sent.refl s⟩
  | cons p ps ih =>
    intro s hs
    rw [List.length_cons, Nat.mul_succ, Nat.add_comm] at hs
    obtain ⟨t, ht, hst⟩ := sends_writeData p s hs.mono
    obtain ⟨u, hu, htu⟩ := ih t (hs.of_sent hst)
    rw [hst.rest.config.1, hst.rest.bl] at htu
    refine ⟨u, by rw [writeAll, ht, Flow.done_andThen, hu], ?_⟩
    have h := hst.trans htu
    rw [← Nat.add_comm, ← Nat.mul_succ] at h
    simpa using h

theorem sends_printAll (cs : List Byte) :
    Sends (printAll cs) (18 * cs.length) fun a b => printEvents a b cs := by
  induction cs with
  | nil => exact fun s _ => ⟨s, rfl, Sent.refl s⟩
  | cons c cs ih =>
    intro s hs
    rw [List.length_cons, Nat.mul_succ, Nat.add_comm] at hs
    have hf := (sends_writeData c).cons <| (sends_delay Config.tCharUs).cons sends_nil
    obtain ⟨t, ht, hst⟩ := hf s hs.mono
    obtain ⟨u, hu, htu⟩ := ih t (hs.of_sent hst)
    rw [hst.rest.config.1, hst.rest.bl] at htu
    refine ⟨u, by rw [printAll, ht, Flow.done_andThen, hu], ?_⟩
    have h := hst.trans htu
    rw [← Nat.add_comm, ← Nat.mul_succ] at h
    simpa [printEvents] using h

/-! ## From a body to the command -/

/-- The two states agree in everything but the registers of the ExpanderFramer and the DisplayController: what a body
has done when it has written some of those and not sent yet. -/
structure SameBus (s t : State) : Prop where
  cp : t.cp = s.cp
  useq : t.useq = s.useq
  config : SameBusConfig s t
  done : t.done = s.done
  data : t.data = s.data
  ackRx : t.ackRx = s.ackRx
  txn : t.txn = s.txn
  stopPend : t.stopPend = s.stopPend
  trace : t.trace = s.trace
  resp : t.resp = s.resp
  rspValid : t.rspValid = s.rspValid
  inputs : SameInputs s t
  waits : t.waits = s.waits
  acks : t.acks = s.acks
  bytes : t.bytes = s.bytes

theorem SameBus.refl (s : State) : SameBus s s := by constructor <;> simp [SameBusConfig, SameInputs]

theorem SameBus.busReady {s t : State} {n : Nat} (h : SameBus s t) (hr : BusReady s n) : BusReady t n :=
  ⟨h.config.2.2.2.2.trans hr.1, h.txn.trans hr.2.1, by rw [State.waitsEnd, h.waits]; exact hr.2.2⟩

theorem sameBus_setBl (v : Bool) (s : State) : SameBus s (s.setBl v) := by
  constructor <;> simp [SameBusConfig, SameInputs]

theorem sameBus_setCtrl (v : Byte) (s : State) : SameBus s (s.setCtrl v) := by
  constructor <;> simp [SameBusConfig, SameInputs]

theorem sameBus_setMode (v : Byte) (s : State) : SameBus s (s.setMode v) := by
  constructor <;> simp [SameBusConfig, SameInputs]

/-- What a command did whose body wrote registers of the upper layers, `s0` being the state after that, and sent. -/
theorem completes_of_sent {i : Instr} {body : State → Flow} {s s0 t : State} {n : Nat} {evs : List Event}
    (hx : exec i s = perform i body s) (hb : body (s.begin i) = .done t) (hs : SameBus (s.begin i) s0)
    (h : Sent n evs s0 t) (ht : s.txn = false) :
    ∃ u, Completes i s u ∧ AfterSending n evs s u ∧ u.bl = s0.bl ∧ SameDisplay s0 u ∧ u.stopPend = t.stopPend := by
  obtain ⟨h1, h2, h3, h4, h5, h6, -, hr⟩ := h
  have hc := hr.config; have hd := hr.display; have hi := hr.inputs
  have sc := hs.config; have si := hs.inputs
  refine ⟨t.complete, ⟨by rw [hx, perform_done hb], ?_, ?_⟩, ⟨?_, ?_, ?_, ?_, ?_, ?_, ?_, ?_, ?_⟩, ?_, ?_, ?_⟩
  · simp [hr.cp, hs.cp]
  · simp
  · simp [h1, hs.trace]
  · simp [h2, hs.data]
  · simp [h3, hs.done]
  · simp [h4, hs.txn, ht]
  · simp [h5, hs.waits]
  · simp [h6, hs.acks]
  · simp_all [SameBusConfig]
  · exact ⟨by simp [hr.resp, hs.resp], by simp [hr.bytes, hs.bytes], by simp [hr.rspValid, hs.rspValid]⟩
  · simp_all [SameInputs]
  · simp [hr.bl]
  · simpa [SameDisplay, SameGeometry] using hd
  · simp

theorem BusReady.begin {n : Nat} {s : State} (i : Instr) (h : BusReady s n) : BusReady (s.begin i) n := by
  obtain ⟨he, ht, hw⟩ := h
  exact ⟨by simpa using he, by simpa using ht, by simpa [State.waitsEnd] using hw⟩

end Sys2Proof.Machine
end

