-- ==== Sys2Proof/Laws/Frame.lean ====
section
/-! SUPPORT. What each body leaves alone whether it completes or waits for ever (rule R47): `BusOnly s t` says that `t`
differs from `s` in the bus engine's registers and the trace alone; every sending body keeps it, and each body that
writes a register of its own first is `BusOnly` from the state after that write. -/

namespace Sys2Proof.Machine

/-- `t` differs from `s` in `DATA`, `DONE`, `ACK_RX`, `TXN`, `STOP_PEND`, the position of `USEQ`, the answers used up
and a longer trace alone. -/
structure BusOnly (s t : State) : Prop where
  rest : SameRest s t
  grows : TraceGrows s t
  useq : ∃ n, t.useq = USeq.advance^[n] s.useq

theorem BusOnly.refl (s : State) : BusOnly s s := ⟨.refl s, List.prefix_rfl, 0, rfl⟩

theorem BusOnly.trans {s t u : State} (h : BusOnly s t) (k : BusOnly t u) : BusOnly s u :=
  let ⟨m, hm⟩ := h.useq
  let ⟨n, hn⟩ := k.useq
  ⟨h.rest.trans k.rest, h.grows.trans k.grows, n + m, by rw [hn, hm, Function.iterate_add_apply]⟩

/-- What sending leaves of the name of the command that executes. -/
theorem BusOnly.named {s t : State} {i : Instr} {k : Nat} (h : BusOnly s t) (hs : s.useq = .executing i k) :
    ∃ n, t.useq = .executing i n := by
  obtain ⟨m, hm⟩ := h.useq
  rw [hs] at hm
  clear h hs
  induction m generalizing t k with
  | zero => exact ⟨k, hm⟩
  | succ m ih => exact ih (k := k + 1) hm

/-- A body that touches the bus alone. -/
def TouchesBusOnly (f : State → Flow) : Prop := ∀ s, (f s).Holds (BusOnly s) (BusOnly s)

theorem TouchesBusOnly.triple {f : State → Flow} (h : TouchesBusOnly f) (s : State) :
    Triple (BusOnly s) f (BusOnly s) (BusOnly s) := fun t ht =>
  (h t).mono (fun _ hu => ht.trans hu) (fun _ hu => ht.trans hu)

/-- A body that touches the bus alone keeps whatever does not speak of the bus. -/
theorem TouchesBusOnly.keeps {f : State → Flow} (h : TouchesBusOnly f) {P : State → Prop}
    (hP : ∀ s t, BusOnly s t → P s → P t) : Triple P f P P := fun s hs =>
  (h s).mono (fun t ht => hP s t ht hs) (fun t ht => hP s t ht hs)

theorem touchesBusOnly_steps {fs : List (State → Flow)} (h : ∀ f ∈ fs, TouchesBusOnly f) :
    TouchesBusOnly (steps fs) := fun s =>
  triple_steps (fun f hf => (h f hf).triple s) s (.refl s)

theorem touchesBusOnly_require (ok : State → Bool) (r : Refusal) : TouchesBusOnly (require ok r) := by
  intro s
  cases h : ok s with
  | true => rw [require_pos h]; exact .refl s
  | false => rw [require_neg h]; trivial

theorem touchesBusOnly_delay (n : Nat) : TouchesBusOnly (delayUs n) := by
  intro s
  rw [delayUs_apply]
  refine ⟨?_, by simp [TraceGrows], 0, by simp⟩
  constructor <;> simp [SameBusConfig, SameDisplay, SameGeometry, SameInputs]

theorem touchesBusOnly_start : TouchesBusOnly start := by
  intro s
  refine triple_start (P := (· = s)) ?_ ?_ ?_ s rfl
  all_goals
    rintro s rfl - -
    refine ⟨?_, by simp [TraceGrows], by first | exact ⟨0, rfl⟩ | exact ⟨1, rfl⟩⟩
    constructor <;> simp [SameBusConfig, SameDisplay, SameGeometry, SameInputs]

theorem touchesBusOnly_writeByte (b : Byte) : TouchesBusOnly (writeByte b) := by
  intro s
  refine triple_writeByte (P := (· = s)) ?_ ?_ ?_ s rfl
  all_goals
    rintro s rfl - -
    refine ⟨?_, by simp [TraceGrows], by first | exact ⟨0, rfl⟩ | exact ⟨1, rfl⟩⟩
    constructor <;> simp [SameBusConfig, SameDisplay, SameGeometry, SameInputs]

theorem touchesBusOnly_stop : TouchesBusOnly stop := by
  intro s
  refine triple_stop (P := (· = s)) ?_ s rfl
  rintro s rfl -
  refine ⟨?_, by simp [TraceGrows], 0, by simp⟩
  constructor <;> simp [SameBusConfig, SameDisplay, SameGeometry, SameInputs]

theorem touchesBusOnly_sendNibble (x : Byte) : TouchesBusOnly (sendNibble x) := fun s =>
  touchesBusOnly_steps (by simp [touchesBusOnly_start, touchesBusOnly_writeByte, touchesBusOnly_stop]) s

theorem touchesBusOnly_pulseLatch (x : Byte) : TouchesBusOnly (pulseLatch x) :=
  touchesBusOnly_steps (by simp [touchesBusOnly_sendNibble, touchesBusOnly_delay])

theorem touchesBusOnly_nibbleTransfer (x : Byte) : TouchesBusOnly (nibbleTransfer x) :=
  touchesBusOnly_steps (by simp [touchesBusOnly_sendNibble, touchesBusOnly_pulseLatch])

theorem touchesBusOnly_sendByte (v m : Byte) : TouchesBusOnly (sendByte v m) :=
  touchesBusOnly_steps (by simp [touchesBusOnly_sendNibble, touchesBusOnly_pulseLatch])

theorem touchesBusOnly_command (b : Byte) : TouchesBusOnly (command b) := touchesBusOnly_sendByte b 0x00

theorem touchesBusOnly_writeData (b : Byte) : TouchesBusOnly (writeData b) := touchesBusOnly_sendByte b Config.bitRS

theorem touchesBusOnly_clearBody : TouchesBusOnly clearBody :=
  touchesBusOnly_steps (by simp [touchesBusOnly_command, touchesBusOnly_delay])

theorem touchesBusOnly_homeBody : TouchesBusOnly homeBody :=
  touchesBusOnly_steps (by simp [touchesBusOnly_command, touchesBusOnly_delay])

theorem touchesBusOnly_requireReady : TouchesBusOnly requireReady := touchesBusOnly_require _ _

theorem touchesBusOnly_requireClosed : TouchesBusOnly requireClosed := touchesBusOnly_require _ _

theorem touchesBusOnly_requireBool (name : String) (v : Byte) : TouchesBusOnly (requireBool name v) :=
  touchesBusOnly_require _ _

theorem touchesBusOnly_writeAll (ps : List Byte) : TouchesBusOnly (writeAll ps) := by
  induction ps with
  | nil => exact BusOnly.refl
  | cons p ps ih => exact fun s => (touchesBusOnly_writeData p s).andThen (ih.triple s)

theorem touchesBusOnly_printAll (cs : List Byte) : TouchesBusOnly (printAll cs) := by
  induction cs with
  | nil => exact BusOnly.refl
  | cons c cs ih =>
    exact fun s =>
      (touchesBusOnly_steps (by simp [touchesBusOnly_writeData, touchesBusOnly_delay]) s).andThen (ih.triple s)

theorem touchesBusOnly_clear : TouchesBusOnly clear :=
  touchesBusOnly_steps (by simp [touchesBusOnly_requireReady, touchesBusOnly_clearBody])

theorem touchesBusOnly_home : TouchesBusOnly home :=
  touchesBusOnly_steps (by simp [touchesBusOnly_requireReady, touchesBusOnly_homeBody])

theorem touchesBusOnly_setCursor (col row : Byte) : TouchesBusOnly (setCursor col row) := by
  refine touchesBusOnly_steps ?_
  simp only [List.mem_cons, List.not_mem_nil, or_false, forall_eq_or_imp, forall_eq]
  exact ⟨touchesBusOnly_requireReady, fun s => touchesBusOnly_command _ s⟩

theorem touchesBusOnly_scroll (right : Byte) : TouchesBusOnly (scroll right) :=
  touchesBusOnly_steps
    (by simp [touchesBusOnly_requireReady, touchesBusOnly_requireBool, touchesBusOnly_command])

theorem touchesBusOnly_loadGlyph (slot : Byte) (ps : List Byte) : TouchesBusOnly (loadGlyph slot ps) :=
  touchesBusOnly_steps (by simp [touchesBusOnly_requireReady, touchesBusOnly_command, touchesBusOnly_writeAll])

theorem touchesBusOnly_print (cs : List Byte) : TouchesBusOnly (print cs) :=
  touchesBusOnly_steps (by simp [touchesBusOnly_requireReady, touchesBusOnly_requireClosed, touchesBusOnly_printAll])

/-! ## The bodies that write a register of their own first -/

theorem setBacklight_holds (on : Byte) (s : State) :
    (setBacklight on s).Holds (BusOnly (s.setBl (flagOf on))) (BusOnly (s.setBl (flagOf on))) := by
  rw [setBacklight, steps_cons]
  cases h : badBool on with
  | true => rw [require_neg (by simp)]; trivial
  | false =>
    rw [require_pos (by simp), Flow.done_andThen, steps_cons, assign_apply, Flow.done_andThen, steps_cons]
    simpa using touchesBusOnly_sendNibble 0x00 (s.setBl (flagOf on))

theorem backlight_holds (on : Byte) (s : State) :
    (backlight on s).Holds (BusOnly (s.setBl (flagOf on))) (BusOnly (s.setBl (flagOf on))) := by
  rw [backlight, steps_cons]
  cases h : decide (s.phase = .ready) with
  | false => rw [requireReady, require_neg h]; trivial
  | true => rw [requireReady, require_pos h, Flow.done_andThen]; simpa using setBacklight_holds on s

theorem controlFlag_holds (f on : Byte) (s : State) :
    (controlFlag f on s).Holds (BusOnly (s.setCtrl (setFlag f (flagOf on) s.ctrl)))
      (BusOnly (s.setCtrl (setFlag f (flagOf on) s.ctrl))) := by
  rw [controlFlag, steps_cons]
  cases h : decide (s.phase = .ready) with
  | false => rw [requireReady, require_neg h]; trivial
  | true =>
    rw [requireReady, require_pos h, Flow.done_andThen, steps_cons]
    cases hb : badBool on with
    | true => rw [requireBool, require_neg (by simp [hb])]; trivial
    | false =>
      rw [requireBool, require_pos (by simp [hb]), Flow.done_andThen, steps_cons, assign_apply, Flow.done_andThen,
        steps_cons]
      simpa using touchesBusOnly_command _ (s.setCtrl (setFlag f (flagOf on) s.ctrl))

theorem modeFlag_holds (name : String) (f on : Byte) (s : State) :
    (modeFlag name f on s).Holds (BusOnly (s.setMode (setFlag f (flagOf on) s.mode)))
      (BusOnly (s.setMode (setFlag f (flagOf on) s.mode))) := by
  rw [modeFlag, steps_cons]
  cases h : decide (s.phase = .ready) with
  | false => rw [requireReady, require_neg h]; trivial
  | true =>
    rw [requireReady, require_pos h, Flow.done_andThen, steps_cons]
    cases hb : badBool on with
    | true => rw [requireBool, require_neg (by simp [hb])]; trivial
    | false =>
      rw [requireBool, require_pos (by simp [hb]), Flow.done_andThen, steps_cons, assign_apply, Flow.done_andThen,
        steps_cons]
      simpa using touchesBusOnly_command _ (s.setMode (setFlag f (flagOf on) s.mode))

end Sys2Proof.Machine
end

