-- ==== Sys2Proof/Laws/Stuck.lean ====
section
/-! SUPPORT. The other two things a sending body can do: `OnlySends f n ev` says that whenever it completes it has sent
exactly `ev`, and `Halts f n ev` says that at whichever of its `n` waits it stops, the events before that wait are in the
trace (R140, R202). -/

namespace Sys2Proof.Machine

/-! ## Completion says what was sent -/

/-- Whenever `f` completes it has sent `ev`, after `n` waits, and has done nothing else. -/
def OnlySends (f : State → Flow) (n : Nat) (ev : BitVec 7 → Bool → List Event) : Prop :=
  ∀ s t, f s = .done t → Sent n (ev s.addr s.bl) s t

theorem onlySends_nil : OnlySends (steps []) 0 fun _ _ => [] := by
  rintro s t h
  cases h
  exact Sent.refl s

theorem andThen_done {f : Flow} {g : State → Flow} {u : State} (h : f.andThen g = .done u) :
    ∃ t, f = .done t ∧ g t = .done u := by
  cases f with
  | done t => exact ⟨t, rfl, h⟩
  | stuck t => cases h
  | refused r => cases h

theorem OnlySends.cons {f : State → Flow} {fs : List (State → Flow)} {m n : Nat} {l r : BitVec 7 → Bool → List Event}
    (hf : OnlySends f m l) (hfs : OnlySends (steps fs) n r) :
    OnlySends (steps (f :: fs)) (m + n) fun a b => l a b ++ r a b := by
  intro s u h
  obtain ⟨t, ht, hu⟩ := andThen_done (steps_cons f fs s ▸ h)
  have hst := hf s t ht
  have htu := hfs t u hu
  rw [hst.rest.config.1, hst.rest.bl] at htu
  exact hst.trans htu

/-- A sending body that completes only from a ready bus only sends. -/
theorem Sends.only {f : State → Flow} {n : Nat} {ev : BitVec 7 → Bool → List Event} (h : Sends f n ev)
    (hr : ∀ s t, f s = .done t → BusReady s n) : OnlySends f n ev := by
  intro s t hd
  obtain ⟨u, hu, hsu⟩ := h s (hr s t hd)
  cases hu.symm.trans hd
  exact hsu

theorem onlySends_delay (n : Nat) : OnlySends (delayUs n) 0 fun _ _ => [.delay n] := by
  intro s t h
  cases (delayUs_apply n s).symm.trans h
  have hr : SameRest s (emit (.delay n) (engine s)) := by
    constructor <;> simp [SameBusConfig, SameDisplay, SameGeometry, SameInputs]
  exact ⟨by simp, by simp [dataAfter], by simp [doneAfter], by simp, by simp, by simp [writesIn], by simp, hr⟩

theorem start_done {s t : State} (h : start s = .done t) :
    s.txn = false ∧ s.busEn = true ∧ s.waits.head Config.waitEnds = true ∧ t = s.request.waitEnded.started := by
  cases ht : s.txn with
  | true => rw [start_refused ht] at h; cases h
  | false =>
    cases he : s.busEn with
    | false => rw [start_disabled ht he] at h; cases h
    | true =>
      cases hw : s.waits.head Config.waitEnds with
      | false => rw [start_never ht he hw] at h; cases h
      | true => rw [start_ends ht he hw] at h; cases h; simp

theorem writeByte_done {b : Byte} {s t : State} (h : writeByte b s = .done t) :
    s.txn = true ∧ s.busEn = true ∧ s.waits.head Config.waitEnds = true ∧
      t = State.wrote b (State.waitEnded (State.request (State.load b s))) := by
  cases ht : s.txn with
  | false => rw [writeByte_refused b ht] at h; cases h
  | true =>
    cases he : s.busEn with
    | false => rw [writeByte_disabled b ht he] at h; cases h
    | true =>
      cases hw : s.waits.head Config.waitEnds with
      | false => rw [writeByte_never b ht he hw] at h; cases h
      | true => rw [writeByte_ends b ht he hw] at h; cases h; simp

theorem sendNibble_done {x : Byte} {s t : State} (h : sendNibble x s = .done t) : BusReady s 3 := by
  rw [sendNibble, steps_cons] at h
  obtain ⟨s1, h1, h⟩ := andThen_done h
  obtain ⟨ht, he, hw1, rfl⟩ := start_done h1
  rw [steps_cons] at h
  obtain ⟨s2, h2, h⟩ := andThen_done h
  obtain ⟨-, -, hw2, rfl⟩ := writeByte_done h2
  rw [steps_cons] at h
  obtain ⟨s3, h3, -⟩ := andThen_done h
  obtain ⟨-, -, hw3, -⟩ := writeByte_done h3
  refine ⟨he, ht, ?_⟩
  simp_all [State.waitsEnd, Feed.allTrue_succ]

theorem onlySends_sendNibble (x : Byte) : OnlySends (sendNibble x) 3 fun a b => sendNibbleEvents a b x :=
  (sends_sendNibble x).only fun _ _ h => sendNibble_done h

theorem onlySends_pulseLatch (x : Byte) : OnlySends (pulseLatch x) 6 fun a b => pulseLatchEvents a b x := by
  simpa [pulseLatch, pulseLatchEvents_eq] using
    (onlySends_sendNibble (enableSet x)).cons <| (onlySends_delay Config.tEnHighUs).cons <|
      (onlySends_sendNibble (enableClear x)).cons <| (onlySends_delay Config.tEnLowUs).cons onlySends_nil

theorem onlySends_nibbleTransfer (x : Byte) :
    OnlySends (nibbleTransfer x) 9 fun a b => nibbleTransferEvents a b x := by
  simpa [nibbleTransfer, nibbleTransferEvents] using
    (onlySends_sendNibble x).cons <| (onlySends_pulseLatch x).cons onlySends_nil

theorem onlySends_sendByte (v m : Byte) : OnlySends (sendByte v m) 18 fun a b => sendByteEvents a b v m := by
  simpa [sendByte, sendByteEvents, nibbleTransferEvents] using
    (onlySends_sendNibble (hiNibble v m)).cons <| (onlySends_pulseLatch (hiNibble v m)).cons <|
      (onlySends_sendNibble (loNibble v m)).cons <| (onlySends_pulseLatch (loNibble v m)).cons onlySends_nil

theorem onlySends_command (b : Byte) : OnlySends (command b) 18 fun a l => commandEvents a l b :=
  onlySends_sendByte b 0x00

theorem onlySends_writeData (b : Byte) : OnlySends (writeData b) 18 fun a l => dataEvents a l b :=
  onlySends_sendByte b Config.bitRS

theorem onlySends_clearBody : OnlySends clearBody 18 fun a b => homingEvents a b Config.cmdClear := by
  simpa [clearBody, homingEvents_eq] using
    (onlySends_command Config.cmdClear).cons <| (onlySends_delay Config.tHomeUs).cons onlySends_nil

theorem onlySends_homeBody : OnlySends homeBody 18 fun a b => homingEvents a b Config.cmdHome := by
  simpa [homeBody, homingEvents_eq] using
    (onlySends_command Config.cmdHome).cons <| (onlySends_delay Config.tHomeUs).cons onlySends_nil

theorem onlySends_writeAll (ps : List Byte) :
    OnlySends (writeAll ps) (18 * ps.length) fun a b => ps.flatMap (dataEvents a b) := by
  induction ps with
  | nil => exact onlySends_nil
  | cons p ps ih =>
    intro s u h
    obtain ⟨t, ht, hu⟩ := andThen_done h
    have hst := onlySends_writeData p s t ht
    have htu := ih t u hu
    rw [hst.rest.config.1, hst.rest.bl] at htu
    have h := hst.trans htu
    rw [← Nat.add_comm, ← Nat.mul_succ] at h
    simpa using h

theorem onlySends_printAll (cs : List Byte) :
    OnlySends (printAll cs) (18 * cs.length) fun a b => printEvents a b cs := by
  induction cs with
  | nil => exact onlySends_nil
  | cons c cs ih =>
    intro s u h
    obtain ⟨t, ht, hu⟩ := andThen_done h
    have hst := (onlySends_writeData c).cons ((onlySends_delay Config.tCharUs).cons onlySends_nil) s t ht
    have htu := ih t u hu
    rw [hst.rest.config.1, hst.rest.bl] at htu
    have h := hst.trans htu
    rw [← Nat.add_comm, ← Nat.mul_succ] at h
    simpa [printEvents] using h

/-! ## Stuck at one of the waits -/

/-- Outside a transaction, the wait number `k` from here, counted from 0, is the first that does not end. -/
def StopsAt (s : State) (k : Nat) : Prop :=
  s.txn = false ∧ ((s.busEn = true ∧ s.waitsEnd k = true ∧ s.waitsEnd (k + 1) = false) ∨ (s.busEn = false ∧ k = 0))

/-- The number of events that are waited for. -/
def waitedIn (t : List Event) : Nat := t.countP Event.waited

theorem beforeWait_append_lt {k : Nat} {l r : List Event} (h : k < waitedIn l) :
    beforeWait k (l ++ r) = beforeWait k l := by
  induction l generalizing k with
  | nil => simp [waitedIn] at h
  | cons e l ih =>
    cases he : e.waited with
    | false =>
      simp only [waitedIn, List.countP_cons, he, Bool.false_eq_true, if_false, Nat.add_zero] at h
      simp [beforeWait, he, ih h]
    | true =>
      cases k with
      | zero => simp [beforeWait, he]
      | succ k =>
        simp only [waitedIn, List.countP_cons, he, if_true, Nat.succ_lt_succ_iff] at h
        simp [beforeWait, he, ih h]

theorem beforeWait_append_ge (k : Nat) (l r : List Event) :
    beforeWait (waitedIn l + k) (l ++ r) = l ++ beforeWait k r := by
  induction l with
  | nil => simp [waitedIn]
  | cons e l ih =>
    cases he : e.waited with
    | false => simpa [beforeWait, he, waitedIn, List.countP_cons] using ih
    | true =>
      have : waitedIn (e :: l) + k = (waitedIn l + k) + 1 := by simp [waitedIn, he]; omega
      rw [this, List.cons_append, beforeWait]
      simp [he, ih]

/-- `t` is `s` stuck at wait `k` after the events `evs`, nothing else having changed. -/
structure StuckAfter (k : Nat) (evs : List Event) (s t : State) : Prop where
  trace : t.trace = s.trace ++ evs
  done : t.done = false
  useq : t.useq = USeq.advance^[k] s.useq
  rest : SameRest s t

/-- Every wait at which a sending body can stop it does stop at, with the events before it recorded. -/
def Halts (f : State → Flow) (n : Nat) (ev : BitVec 7 → Bool → List Event) : Prop :=
  ∀ s k, k < n → StopsAt s k → ∃ t, f s = .stuck t ∧ StuckAfter k (beforeWait k (ev s.addr s.bl)) s t

/-- Sending before getting stuck: the waits and the events add up. -/
theorem Sent.stuckAfter {m k : Nat} {l evs : List Event} {s t u : State} (h : Sent m l s t) (hu : StuckAfter k evs t u) :
    StuckAfter (m + k) (l ++ evs) s u where
  trace := by rw [hu.trace, h.trace, List.append_assoc]
  done := hu.done
  useq := by rw [hu.useq, h.useq, ← Function.iterate_add_apply, Nat.add_comm m]
  rest := h.rest.trans hu.rest

/-- The two things a sending body does where some wait does not end: it gets stuck at that wait, or the wait is not one
of its own and it completes with the wait still ahead. -/
theorem Halts.or_passes {f : State → Flow} {n k : Nat} {l : BitVec 7 → Bool → List Event} {s : State} (hf : Halts f n l)
    (hs : Sends f n l) (hn : 0 < n) (h : StopsAt s k) :
    (k < n ∧ ∃ t, f s = .stuck t ∧ StuckAfter k (beforeWait k (l s.addr s.bl)) s t) ∨
      ∃ j t, k = n + j ∧ f s = .done t ∧ Sent n (l s.addr s.bl) s t ∧ StopsAt t j := by
  by_cases hlt : k < n
  · exact .inl ⟨hlt, hf s k hlt h⟩
  · obtain ⟨j, rfl⟩ : ∃ j, k = n + j := ⟨k - n, by omega⟩
    obtain ⟨htx, ⟨he, h1, h2⟩ | ⟨-, h0⟩⟩ := h
    · rw [waitsEnd_add, Bool.and_eq_true] at h1
      rw [Nat.add_assoc, waitsEnd_add, h1.1, Bool.true_and] at h2
      obtain ⟨t, ht, hst⟩ := hs s ⟨he, htx, h1.1⟩
      exact .inr ⟨j, t, rfl, ht, hst, hst.txn.trans htx, .inl ⟨hst.rest.config.2.2.2.2.trans he,
        by rw [State.waitsEnd, hst.waits]; exact h1.2, by rw [State.waitsEnd, hst.waits]; exact h2⟩⟩
    · omega

theorem Halts.andThen {f g : State → Flow} {m n : Nat} {l r : BitVec 7 → Bool → List Event} (hf : Halts f (m + 1) l)
    (hs : Sends f (m + 1) l) (hw : ∀ a b, waitedIn (l a b) = m + 1) (hg : Halts g n r) :
    Halts (fun s => (f s).andThen g) (m + 1 + n) fun a b => l a b ++ r a b := by
  intro s k hk h
  obtain ⟨hlt, t, ht, hst⟩ | ⟨j, t, rfl, ht, hst, hj⟩ := hf.or_passes hs (Nat.succ_pos m) h
  · exact ⟨t, by simp [ht], by rw [beforeWait_append_lt (by rw [hw]; exact hlt)]; exact hst⟩
  · obtain ⟨u, hu, htu⟩ := hg t j (by omega) hj
    rw [hst.rest.config.1, hst.rest.bl] at htu
    have := beforeWait_append_ge j (l s.addr s.bl) (r s.addr s.bl)
    rw [hw] at this
    exact ⟨u, by simp [ht, hu], this ▸ hst.stuckAfter htu⟩

theorem Halts.cons {f : State → Flow} {fs : List (State → Flow)} {m n : Nat} {l r : BitVec 7 → Bool → List Event}
    (hf : Halts f (m + 1) l) (hs : Sends f (m + 1) l) (hw : ∀ a b, waitedIn (l a b) = m + 1)
    (hfs : Halts (steps fs) n r) : Halts (steps (f :: fs)) (m + 1 + n) fun a b => l a b ++ r a b := fun s k hk h =>
  steps_cons f fs s ▸ hf.andThen hs hw hfs s k hk h

theorem Halts.cons_delay {fs : List (State → Flow)} {n d : Nat} {r : BitVec 7 → Bool → List Event}
    (hfs : Halts (steps fs) n r) : Halts (steps (delayUs d :: fs)) n fun a b => .delay d :: r a b := by
  intro s k hk h
  obtain ⟨t, ht, hst⟩ := hfs (emit (.delay d) (engine s)) k hk (by simpa [StopsAt, State.waitsEnd] using h)
  simp only [emit_fields, engine_fields] at hst
  have hr : SameRest s (emit (.delay d) (engine s)) := by
    constructor <;> simp [SameBusConfig, SameDisplay, SameGeometry, SameInputs]
  refine ⟨t, by rw [steps_cons, delayUs_apply, Flow.done_andThen, ht], ?_, hst.done, hst.useq, hr.trans hst.rest⟩
  rw [hst.trace]
  simp [beforeWait, Event.waited]

theorem halts_nil (ev : BitVec 7 → Bool → List Event) : Halts (steps []) 0 ev := fun _ _ hk => absurd hk (by omega)

theorem halts_sendNibble (x : Byte) : Halts (sendNibble x) 3 fun a b => sendNibbleEvents a b x := by
  rintro s k hk ⟨ht, ⟨he, h1, h2⟩ | ⟨he, rfl⟩⟩
  · simp only [sendNibble, steps_cons]
    match k, hk with
    | 0, _ =>
      simp only [State.waitsEnd, Feed.allTrue_succ, Feed.allTrue_zero, Bool.and_true] at h2
      refine ⟨s.request.waitNever, by rw [start_never ht he h2, Flow.stuck_andThen], ?_, ?_, ?_, ?_⟩
      · simp [beforeWait, sendNibbleEvents, busWriteEvents, Event.waited]
      · simp
      · simp
      · constructor <;> simp [SameBusConfig, SameDisplay, SameGeometry, SameInputs]
    | 1, _ =>
      simp only [State.waitsEnd, Feed.allTrue_succ, Feed.allTrue_zero, Bool.and_true] at h1 h2
      rw [h1, Bool.true_and] at h2
      rw [start_ends ht he h1, Flow.done_andThen, steps_cons, writeByte_never _ (by simp) (by simp [he]) (by simpa using h2),
        Flow.stuck_andThen]
      refine ⟨_, rfl, ?_, ?_, ?_, ?_⟩
      · simp [beforeWait, sendNibbleEvents, busWriteEvents, Event.waited]
      · simp
      · simp
      · constructor <;> simp [SameBusConfig, SameDisplay, SameGeometry, SameInputs]
    | 2, _ =>
      simp only [State.waitsEnd, Feed.allTrue_succ, Feed.allTrue_zero, Bool.and_true, Bool.and_eq_true] at h1 h2
      rw [h1.1, h1.2, Bool.true_and, Bool.true_and] at h2
      rw [start_ends ht he h1.1, Flow.done_andThen, steps_cons,
        writeByte_ends _ (by simp) (by simp [he]) (by simpa using h1.2), Flow.done_andThen, steps_cons,
        writeByte_never _ (by simp) (by simp [he]) (by simpa using h2), Flow.stuck_andThen]
      refine ⟨_, rfl, ?_, ?_, ?_, ?_⟩
      · simp [beforeWait, sendNibbleEvents, busWriteEvents, Event.waited]
      · simp
      · simp
      · constructor <;> simp [SameBusConfig, SameDisplay, SameGeometry, SameInputs]
  · refine ⟨s.request, by simp [sendNibble, start_disabled ht he], ?_, ?_, ?_, ?_⟩
    · simp [beforeWait, sendNibbleEvents, busWriteEvents, Event.waited]
    · simp
    · simp
    · constructor <;> simp [SameBusConfig, SameDisplay, SameGeometry, SameInputs]

@[simp] theorem waitedIn_append (l r : List Event) : waitedIn (l ++ r) = waitedIn l + waitedIn r := by simp [waitedIn]

@[simp] theorem waitedIn_sendNibble (a : BitVec 7) (b : Bool) (x : Byte) : waitedIn (sendNibbleEvents a b x) = 3 := rfl

@[simp] theorem waitedIn_delay (n : Nat) : waitedIn [.delay n] = 0 := rfl

@[simp] theorem waitedIn_pulseLatch (a : BitVec 7) (b : Bool) (x : Byte) : waitedIn (pulseLatchEvents a b x) = 6 := rfl

@[simp] theorem waitedIn_sendByte (a : BitVec 7) (b : Bool) (v m : Byte) : waitedIn (sendByteEvents a b v m) = 18 := rfl

theorem halts_pulseLatch (x : Byte) : Halts (pulseLatch x) 6 fun a b => pulseLatchEvents a b x := by
  simpa [pulseLatch, pulseLatchEvents_eq] using
    (halts_sendNibble (enableSet x)).cons (sends_sendNibble _) (fun _ _ => rfl) <|
      Halts.cons_delay (d := Config.tEnHighUs) <|
        (halts_sendNibble (enableClear x)).cons (sends_sendNibble _) (fun _ _ => rfl) <|
          Halts.cons_delay (d := Config.tEnLowUs) (halts_nil fun _ _ => [])

theorem halts_nibbleTransfer (x : Byte) : Halts (nibbleTransfer x) 9 fun a b => nibbleTransferEvents a b x := by
  simpa [nibbleTransfer, nibbleTransferEvents] using
    (halts_sendNibble x).cons (sends_sendNibble _) (fun _ _ => rfl) <|
      (halts_pulseLatch x).cons (sends_pulseLatch _) (fun _ _ => rfl) (halts_nil fun _ _ => [])

theorem halts_sendByte (v m : Byte) : Halts (sendByte v m) 18 fun a b => sendByteEvents a b v m := by
  simpa [sendByte, sendByteEvents, nibbleTransferEvents] using
    (halts_sendNibble (hiNibble v m)).cons (sends_sendNibble _) (fun _ _ => rfl) <|
      (halts_pulseLatch (hiNibble v m)).cons (sends_pulseLatch _) (fun _ _ => rfl) <|
        (halts_sendNibble (loNibble v m)).cons (sends_sendNibble _) (fun _ _ => rfl) <|
          (halts_pulseLatch (loNibble v m)).cons (sends_pulseLatch _) (fun _ _ => rfl) (halts_nil fun _ _ => [])

theorem halts_command (b : Byte) : Halts (command b) 18 fun a l => commandEvents a l b := halts_sendByte b 0x00

theorem halts_writeData (b : Byte) : Halts (writeData b) 18 fun a l => dataEvents a l b := halts_sendByte b Config.bitRS

@[simp] theorem waitedIn_command (a : BitVec 7) (l : Bool) (b : Byte) : waitedIn (commandEvents a l b) = 18 := rfl

@[simp] theorem waitedIn_data (a : BitVec 7) (l : Bool) (b : Byte) : waitedIn (dataEvents a l b) = 18 := rfl

@[simp] theorem waitedIn_homing (a : BitVec 7) (l : Bool) (b : Byte) : waitedIn (homingEvents a l b) = 18 := rfl

@[simp] theorem waitedIn_handshake (a : BitVec 7) : waitedIn (handshakeEvents a) = 39 := rfl

@[simp] theorem waitedIn_dataAll (a : BitVec 7) (l : Bool) (ps : List Byte) :
    waitedIn (ps.flatMap (dataEvents a l)) = 18 * ps.length := by
  induction ps with
  | nil => rfl
  | cons p ps ih => rw [List.flatMap_cons, waitedIn_append, waitedIn_data, ih, List.length_cons]; omega

@[simp] theorem waitedIn_print (a : BitVec 7) (l : Bool) (cs : List Byte) :
    waitedIn (printEvents a l cs) = 18 * cs.length := by
  induction cs with
  | nil => rfl
  | cons c cs ih =>
    rw [printEvents, List.flatMap_cons, waitedIn_append, waitedIn_append, waitedIn_data, ← printEvents, ih,
      List.length_cons]
    simp only [waitedIn_delay]
    omega

theorem halts_clearBody : Halts clearBody 18 fun a b => homingEvents a b Config.cmdClear := by
  simpa [clearBody, homingEvents_eq] using
    (halts_command Config.cmdClear).cons (sends_command _) (fun _ _ => rfl) <|
      Halts.cons_delay (d := Config.tHomeUs) (halts_nil fun _ _ => [])

theorem halts_homeBody : Halts homeBody 18 fun a b => homingEvents a b Config.cmdHome := by
  simpa [homeBody, homingEvents_eq] using
    (halts_command Config.cmdHome).cons (sends_command _) (fun _ _ => rfl) <|
      Halts.cons_delay (d := Config.tHomeUs) (halts_nil fun _ _ => [])

theorem halts_writeAll (ps : List Byte) :
    Halts (writeAll ps) (18 * ps.length) fun a b => ps.flatMap (dataEvents a b) := by
  induction ps with
  | nil => exact halts_nil _
  | cons p ps ih =>
    intro s k hk h
    obtain ⟨t, ht, hst⟩ := Halts.andThen (m := 17) (halts_writeData p) (sends_writeData p) (fun _ _ => rfl) ih s k
      (by rw [List.length_cons] at hk; omega) h
    exact ⟨t, ht, by simpa only [List.flatMap_cons] using hst⟩

theorem halts_printAll (cs : List Byte) : Halts (printAll cs) (18 * cs.length) fun a b => printEvents a b cs := by
  induction cs with
  | nil => exact halts_nil _
  | cons c cs ih =>
    intro s k hk h
    obtain ⟨t, ht, hst⟩ := Halts.andThen (m := 17)
      (Halts.cons (m := 17) (halts_writeData c) (sends_writeData c) (fun _ _ => rfl)
        (Halts.cons_delay (d := Config.tCharUs) (halts_nil fun _ _ => [])))
      ((sends_writeData c).cons ((sends_delay Config.tCharUs).cons sends_nil)) (fun _ _ => rfl) ih s k
      (by rw [List.length_cons] at hk; omega) h
    exact ⟨t, ht, by simpa [printEvents] using hst⟩

theorem halts_loadGlyph (slot : Byte) (ps : List Byte) :
    Halts (steps [command (glyphByte slot), writeAll ps]) (18 + 18 * ps.length) fun a b => loadGlyphEvents a b slot ps := by
  have h : Halts (steps [writeAll ps]) (18 * ps.length) fun a b => ps.flatMap (dataEvents a b) := by
    rw [show steps [writeAll ps] = writeAll ps from funext fun s => by simp [steps_cons, steps_nil_eq]]
    exact halts_writeAll ps
  exact Halts.cons (m := 17) (halts_command (glyphByte slot)) (sends_command _) (fun _ _ => rfl) h

/-- Where a wait stands in a middle part of a trace, everything before that part stands before it. -/
theorem beforeWait_middle {j p : Nat} {l e : List Event} (hp : waitedIn l = p) (h : j < waitedIn e) (r : List Event) :
    beforeWait (p + j) (l ++ (e ++ r)) = l ++ beforeWait j e := by
  rw [← hp, beforeWait_append_ge, beforeWait_append_lt h]

/-! ## From a body to the command -/

theorem advance_iterate (i : Instr) (k : Nat) : USeq.advance^[k] (.executing i 0) = .executing i k := by
  induction k with
  | zero => rfl
  | succ k ih => rw [Function.iterate_succ_apply', ih]; rfl

theorem SameBus.stopsAt {s t : State} {k : Nat} (h : SameBus s t) (hs : StopsAt s k) : StopsAt t k := by
  simpa [StopsAt, State.waitsEnd, h.txn, h.waits, h.config.2.2.2.2] using hs

theorem StopsAt.begin {s : State} {k : Nat} (i : Instr) (h : StopsAt s k) : StopsAt (s.begin i) k := by
  simpa [StopsAt, State.waitsEnd] using h

/-- Where some wait of the next `n` does not end, there is a first one. -/
theorem exists_stopsAt {s : State} {n : Nat} (ht : s.txn = false) (h : s.busEn = false ∨ s.waitsEnd (n + 1) = false) :
    ∃ k, k < n + 1 ∧ StopsAt s k := by
  cases he : s.busEn with
  | false => exact ⟨0, by omega, ht, .inr ⟨he, rfl⟩⟩
  | true =>
    replace h : s.waitsEnd (n + 1) = false := h.resolve_left (by simp [he])
    induction n with
    | zero => exact ⟨0, by omega, ht, .inl ⟨he, rfl, h⟩⟩
    | succ n ih =>
      cases hn : s.waitsEnd (n + 1) with
      | true => exact ⟨n + 1, by omega, ht, .inl ⟨he, hn, h⟩⟩
      | false => obtain ⟨k, hk, hs⟩ := ih hn; exact ⟨k, by omega, hs⟩

/-- What a command did whose body wrote registers of the upper layers, `s0` being the state after that, and got stuck
sending. -/
theorem hangs_of_stuckAfter {i : Instr} {body : State → Flow} {s s0 t : State} {k : Nat} {evs : List Event}
    (hx : exec i s = perform i body s) (hb : body (s.begin i) = .stuck t) (hs : SameBus (s.begin i) s0)
    (h : StuckAfter k evs s0 t) :
    Hangs i s k t ∧ t.trace = s.trace ++ evs ∧ t.done = false ∧ t.bl = s0.bl ∧ SameDisplay s0 t := by
  refine ⟨⟨by rw [hx, perform_stuck hb], ?_, ?_⟩, ?_, h.done, h.rest.bl, h.rest.display⟩
  · rw [h.rest.cp, hs.cp]; simp
  · rw [h.useq, hs.useq]; simp [advance_iterate]
  · rw [h.trace, hs.trace]; simp

/-- Both ends of a command whose body writes registers of the upper layers, `s0` being the state after that, and then
sends `evs`: it completes where all the waits end, and hangs at the first that does not with the events before it. -/
theorem outcomes_of_sends {i : Instr} {body g : State → Flow} {s s0 : State} {n : Nat}
    {ev : BitVec 7 → Bool → List Event} {evs : List Event} (hx : exec i s = perform i body s)
    (hb : body (s.begin i) = g s0) (hs : SameBus (s.begin i) s0) (hg : Sends g n ev) (hh : Halts g n ev)
    (he : ev s0.addr s0.bl = evs) (ht : s.txn = false) (hen : s.busEn = true) :
    (s.waitsEnd n = true → ∃ t, Completes i s t ∧ t.trace = s.trace ++ evs ∧ t.bl = s0.bl ∧ SameDisplay s0 t) ∧
    ∀ k, k < n → s.waitsEnd k = true → s.waitsEnd (k + 1) = false →
      ∃ t, Hangs i s k t ∧ t.done = false ∧ t.trace = s.trace ++ beforeWait k evs ∧ t.bl = s0.bl ∧ SameDisplay s0 t := by
  subst he
  refine ⟨fun h => ?_, fun k hk h1 h2 => ?_⟩
  · obtain ⟨u, hu, su⟩ := hg s0 (hs.busReady (BusReady.begin i ⟨hen, ht, h⟩))
    obtain ⟨t, h1, h2, h3, h4, -⟩ := completes_of_sent hx (hb.trans hu) hs su ht
    exact ⟨t, h1, h2.trace, h3, h4⟩
  · obtain ⟨u, hu, su⟩ := hh s0 k hk (hs.stopsAt (StopsAt.begin i ⟨ht, .inl ⟨hen, h1, h2⟩⟩))
    obtain ⟨h1, h2, h3, h4⟩ := hangs_of_stuckAfter hx (hb.trans hu) hs su
    exact ⟨u, h1, h3, h2, h4⟩

end Sys2Proof.Machine
end

