-- ==== Sys2Proof/Laws/Init.lean ====
section
/-! SUPPORT. INIT (R160), whose body writes registers between its sends: the handshake is a sending body from the state
with the backlight forced on, and every register write commutes with sending; INIT stuck at any of its waits. -/

namespace Sys2Proof.Machine

/-! ## Register writes commute with sending -/

theorem SameRest.setBl {s t : State} (v : Bool) (h : SameRest s t) : SameRest (s.setBl v) (t.setBl v) := by
  obtain ⟨h1, ⟨a1, a2, a3, a4, a5⟩, h3, ⟨⟨b1, b2, b3, b4⟩, b5, b6, b7⟩, h5, h6, h7, ⟨c1, c2, c3⟩⟩ := h
  constructor <;> simp [SameBusConfig, SameDisplay, SameGeometry, SameInputs, *]

theorem SameRest.setFunc {s t : State} (v : Byte) (h : SameRest s t) : SameRest (s.setFunc v) (t.setFunc v) := by
  obtain ⟨h1, ⟨a1, a2, a3, a4, a5⟩, h3, ⟨⟨b1, b2, b3, b4⟩, b5, b6, b7⟩, h5, h6, h7, ⟨c1, c2, c3⟩⟩ := h
  constructor <;> simp [SameBusConfig, SameDisplay, SameGeometry, SameInputs, *]

theorem SameRest.setCtrl {s t : State} (v : Byte) (h : SameRest s t) : SameRest (s.setCtrl v) (t.setCtrl v) := by
  obtain ⟨h1, ⟨a1, a2, a3, a4, a5⟩, h3, ⟨⟨b1, b2, b3, b4⟩, b5, b6, b7⟩, h5, h6, h7, ⟨c1, c2, c3⟩⟩ := h
  constructor <;> simp [SameBusConfig, SameDisplay, SameGeometry, SameInputs, *]

theorem SameRest.setMode {s t : State} (v : Byte) (h : SameRest s t) : SameRest (s.setMode v) (t.setMode v) := by
  obtain ⟨h1, ⟨a1, a2, a3, a4, a5⟩, h3, ⟨⟨b1, b2, b3, b4⟩, b5, b6, b7⟩, h5, h6, h7, ⟨c1, c2, c3⟩⟩ := h
  constructor <;> simp [SameBusConfig, SameDisplay, SameGeometry, SameInputs, *]

theorem SameRest.setReady {s t : State} (h : SameRest s t) : SameRest s.setReady t.setReady := by
  obtain ⟨h1, ⟨a1, a2, a3, a4, a5⟩, h3, ⟨⟨b1, b2, b3, b4⟩, b5, b6, b7⟩, h5, h6, h7, ⟨c1, c2, c3⟩⟩ := h
  constructor <;> simp [SameBusConfig, SameDisplay, SameGeometry, SameInputs, *]

theorem Sent.setFunc {n : Nat} {evs : List Event} {s t : State} (v : Byte) (h : Sent n evs s t) :
    Sent n evs (s.setFunc v) (t.setFunc v) := by
  obtain ⟨h1, h2, h3, h4, h5, h6, h7, hr⟩ := h
  exact ⟨by simp [h1], by simp [h2], by simp [h3], by simp [h4], by simp [h5], by simp [h6], by simp [h7], hr.setFunc v⟩

theorem Sent.setCtrl {n : Nat} {evs : List Event} {s t : State} (v : Byte) (h : Sent n evs s t) :
    Sent n evs (s.setCtrl v) (t.setCtrl v) := by
  obtain ⟨h1, h2, h3, h4, h5, h6, h7, hr⟩ := h
  exact ⟨by simp [h1], by simp [h2], by simp [h3], by simp [h4], by simp [h5], by simp [h6], by simp [h7], hr.setCtrl v⟩

theorem Sent.setMode {n : Nat} {evs : List Event} {s t : State} (v : Byte) (h : Sent n evs s t) :
    Sent n evs (s.setMode v) (t.setMode v) := by
  obtain ⟨h1, h2, h3, h4, h5, h6, h7, hr⟩ := h
  exact ⟨by simp [h1], by simp [h2], by simp [h3], by simp [h4], by simp [h5], by simp [h6], by simp [h7], hr.setMode v⟩

theorem Sent.setReady {n : Nat} {evs : List Event} {s t : State} (h : Sent n evs s t) :
    Sent n evs s.setReady t.setReady := by
  obtain ⟨h1, h2, h3, h4, h5, h6, h7, hr⟩ := h
  exact ⟨by simp [h1], by simp [h2], by simp [h3], by simp [h4], by simp [h5], by simp [h6], by simp [h7], hr.setReady⟩

theorem Sent.sameTarget {n : Nat} {evs : List Event} {s t : State} (h : Sent n evs s t) : t.addr = s.addr ∧ t.bl = s.bl :=
  ⟨h.rest.config.1, h.rest.bl⟩

/-! ## The handshake -/

/-- The handshake's sends, the flag being written before them. -/
def handshakeSends : State → Flow :=
  steps [
    delayUs Config.tPowerUs, sendNibble 0x00,
    nibbleTransfer Config.nibble8Bit, delayUs Config.tInit1Us,
    nibbleTransfer Config.nibble8Bit, delayUs Config.tInit2Us,
    nibbleTransfer Config.nibble8Bit, delayUs Config.tInit3Us,
    nibbleTransfer Config.nibble4Bit]

theorem handshake_eq (s : State) : handshake s = handshakeSends (s.setBl true) := by
  have h : setBacklight 0x01 (emit (.delay Config.tPowerUs) (engine s))
      = sendNibble 0x00 (emit (.delay Config.tPowerUs) (engine (s.setBl true))) := by
    rw [setBacklight, steps_cons, require_pos (by decide), Flow.done_andThen, steps_cons, assign_apply,
      Flow.done_andThen, steps_cons, steps_nil_eq, Flow.andThen_done]
    rfl
  simp only [handshake, handshakeSends, steps_cons, delayUs_apply, Flow.done_andThen, h]

/-- The handshake's events, whatever the backlight. -/
def handshakeSendsEvents (a : BitVec 7) (b : Bool) : List Event :=
  [.delay Config.tPowerUs] ++ (sendNibbleEvents a b 0x00 ++ (nibbleTransferEvents a b Config.nibble8Bit ++
    ([.delay Config.tInit1Us] ++ (nibbleTransferEvents a b Config.nibble8Bit ++ ([.delay Config.tInit2Us] ++
      (nibbleTransferEvents a b Config.nibble8Bit ++ ([.delay Config.tInit3Us] ++
        (nibbleTransferEvents a b Config.nibble4Bit ++ []))))))))

theorem handshakeSendsEvents_true (a : BitVec 7) : handshakeSendsEvents a true = handshakeEvents a := rfl

theorem sends_handshake : Sends handshakeSends 39 handshakeSendsEvents :=
  (sends_delay Config.tPowerUs).cons <| (sends_sendNibble 0x00).cons <|
    (sends_nibbleTransfer Config.nibble8Bit).cons <| (sends_delay Config.tInit1Us).cons <|
      (sends_nibbleTransfer Config.nibble8Bit).cons <| (sends_delay Config.tInit2Us).cons <|
        (sends_nibbleTransfer Config.nibble8Bit).cons <| (sends_delay Config.tInit3Us).cons <|
          (sends_nibbleTransfer Config.nibble4Bit).cons sends_nil

theorem onlySends_handshake : OnlySends handshakeSends 39 handshakeSendsEvents :=
  (onlySends_delay Config.tPowerUs).cons <| (onlySends_sendNibble 0x00).cons <|
    (onlySends_nibbleTransfer Config.nibble8Bit).cons <| (onlySends_delay Config.tInit1Us).cons <|
      (onlySends_nibbleTransfer Config.nibble8Bit).cons <| (onlySends_delay Config.tInit2Us).cons <|
        (onlySends_nibbleTransfer Config.nibble8Bit).cons <| (onlySends_delay Config.tInit3Us).cons <|
          (onlySends_nibbleTransfer Config.nibble4Bit).cons onlySends_nil

theorem halts_handshake : Halts handshakeSends 39 handshakeSendsEvents :=
  Halts.cons_delay (d := Config.tPowerUs) <|
    (halts_sendNibble 0x00).cons (sends_sendNibble _) (fun _ _ => rfl) <|
      (halts_nibbleTransfer Config.nibble8Bit).cons (sends_nibbleTransfer _) (fun _ _ => rfl) <|
        Halts.cons_delay (d := Config.tInit1Us) <|
          (halts_nibbleTransfer Config.nibble8Bit).cons (sends_nibbleTransfer _) (fun _ _ => rfl) <|
            Halts.cons_delay (d := Config.tInit2Us) <|
              (halts_nibbleTransfer Config.nibble8Bit).cons (sends_nibbleTransfer _) (fun _ _ => rfl) <|
                Halts.cons_delay (d := Config.tInit3Us) <|
                  (halts_nibbleTransfer Config.nibble4Bit).cons (sends_nibbleTransfer _) (fun _ _ => rfl)
                    (halts_nil fun _ _ => [])

theorem touchesBusOnly_handshakeSends : TouchesBusOnly handshakeSends :=
  touchesBusOnly_steps (by simp [touchesBusOnly_sendNibble, touchesBusOnly_nibbleTransfer, touchesBusOnly_delay])

/-! ## INIT -/

/-- The registers that a completed INIT has written (R160). -/
def State.initialised (rows cols font : Byte) (s : State) : State :=
  ((((((s.setGeometry rows cols (flagOf font)).setBl true).setFunc (functionSet rows (flagOf font))).setCtrl
    initialCtrl).setMode initialMode).setReady)

/-- INIT's body after its operand checks. -/
def initSends (rows cols font : Byte) : State → Flow :=
  steps [
    assign (State.setGeometry rows cols (flagOf font)),
    handshake,
    assign (fun s => s.setFunc (functionSet s.rows s.font)),
    fun s => command s.func s,
    assign (State.setCtrl initialCtrl),
    fun s => command s.ctrl s,
    clearBody,
    assign (State.setMode initialMode),
    fun s => command s.mode s,
    homeBody,
    assign State.setReady]

theorem initialize4Bit_legal {rows font : Byte} (cols : Byte) (hr : badRows rows = false) (hf : badBool font = false)
    (s : State) : initialize4Bit rows cols font s = initSends rows cols font s := by
  rw [initialize4Bit, steps_cons, require_pos (by simp [hr]), Flow.done_andThen, steps_cons, requireBool,
    require_pos (by simp [hf]), Flow.done_andThen]
  rfl

/-- What INIT's body keeps: whatever does not speak of the bus, whatever each of its register writes keeps,
from its first one on. -/
theorem triple_initSends {rows cols font : Byte} {P₀ P D S : State → Prop} (hP : ∀ s t, BusOnly s t → P s → P t)
    (hS : ∀ s, P s → S s) (hbl : ∀ s, P s → P (s.setBl true))
    (hgeo : ∀ s, P₀ s → P (s.setGeometry rows cols (flagOf font)))
    (hfunc : ∀ s, P s → P (s.setFunc (functionSet s.rows s.font))) (hctrl : ∀ s, P s → P (s.setCtrl initialCtrl))
    (hmode : ∀ s, P s → P (s.setMode initialMode)) (hready : ∀ s, P s → D s.setReady) :
    Triple P₀ (initSends rows cols font) D S := by
  have keep : ∀ {f : State → Flow}, TouchesBusOnly f → Triple P f P S := fun hf s hs =>
    (hf.keeps hP s hs).mono (fun _ h => h) (fun t h => hS t h)
  intro s hs
  rw [initSends, steps_cons, assign_apply, Flow.done_andThen, steps_cons, handshake_eq]
  refine (keep touchesBusOnly_handshakeSends _ (hbl _ (hgeo s hs))).andThen fun s hs => ?_
  rw [steps_cons, assign_apply, Flow.done_andThen, steps_cons]
  refine (keep (touchesBusOnly_command _) _ (hfunc s hs)).andThen fun s hs => ?_
  rw [steps_cons, assign_apply, Flow.done_andThen, steps_cons]
  refine (keep (touchesBusOnly_command _) _ (hctrl s hs)).andThen fun s hs => ?_
  rw [steps_cons]
  refine (keep touchesBusOnly_clearBody _ hs).andThen fun s hs => ?_
  rw [steps_cons, assign_apply, Flow.done_andThen, steps_cons]
  refine (keep (touchesBusOnly_command _) _ (hmode s hs)).andThen fun s hs => ?_
  rw [steps_cons]
  refine (keep touchesBusOnly_homeBody _ hs).andThen fun s hs => ?_
  rw [steps_cons, assign_apply, Flow.done_andThen, steps_nil]
  exact hready s hs

theorem initialize4Bit_badRows {rows : Byte} (cols font : Byte) (hr : badRows rows = true) (s : State) :
    initialize4Bit rows cols font s = .refused (.reservedOperand "rows") := by
  rw [initialize4Bit, steps_cons, require_neg (by simp [hr]), Flow.refused_andThen]

theorem initialize4Bit_badFont {rows font : Byte} (cols : Byte) (hr : badRows rows = false) (hf : badBool font = true)
    (s : State) : initialize4Bit rows cols font s = .refused (.reservedOperand "font") := by
  rw [initialize4Bit, steps_cons, require_pos (by simp [hr]), Flow.done_andThen, steps_cons, requireBool,
    require_neg (by simp [hf]), Flow.refused_andThen]

/-- INIT's events as its sends produce them. -/
theorem initEvents_eq (a : BitVec 7) (rows : Byte) (font : Bool) :
    initEvents a rows font = handshakeEvents a ++ commandEvents a true (functionSet rows font) ++
      commandEvents a true initialCtrl ++ homingEvents a true Config.cmdClear ++ commandEvents a true initialMode ++
      homingEvents a true Config.cmdHome := by
  have h1 : initialCtrl = 0x0C := by decide
  have h2 : initialMode = 0x06 := by decide
  rw [initEvents, h1, h2, Config.cmdClear, Config.cmdHome]

/-- A handshake that completes has found the bus ready. -/
theorem handshakeSends_ready {s t : State} (h : handshakeSends s = .done t) : s.busEn = true ∧ s.txn = false := by
  rw [handshakeSends, steps_cons, delayUs_apply, Flow.done_andThen, steps_cons] at h
  obtain ⟨u, hu, -⟩ := andThen_done h
  have := sendNibble_done hu
  exact ⟨by simpa using this.1, by simpa using this.2.1⟩

/-- INIT that is not refused has legal operands. -/
theorem initialize4Bit_operands {rows cols font : Byte} {s : State}
    (h : ∀ r, initialize4Bit rows cols font s ≠ .refused r) : badRows rows = false ∧ badBool font = false := by
  cases h1 : badRows rows with
  | true => exact absurd (initialize4Bit_badRows _ _ h1 _) (h _)
  | false =>
    cases h2 : badBool font with
    | true => exact absurd (initialize4Bit_badFont _ h1 h2 _) (h _)
    | false => exact ⟨rfl, rfl⟩

/-- The parts of INIT between its register writes, each done from the state before it: the whole. -/
theorem initSends_parts {rows cols font : Byte} {s t1 t2 t3 t4 t5 t6 : State}
    (h1 : handshakeSends ((s.setGeometry rows cols (flagOf font)).setBl true) = .done t1)
    (h2 : command (functionSet t1.rows t1.font) (t1.setFunc (functionSet t1.rows t1.font)) = .done t2)
    (h3 : command initialCtrl (t2.setCtrl initialCtrl) = .done t3) (h4 : clearBody t3 = .done t4)
    (h5 : command initialMode (t4.setMode initialMode) = .done t5) (h6 : homeBody t5 = .done t6) :
    initSends rows cols font s = .done t6.setReady := by
  rw [initSends, steps_cons, assign_apply, Flow.done_andThen, steps_cons, handshake_eq, h1, Flow.done_andThen,
    steps_cons, assign_apply, Flow.done_andThen, steps_cons]
  simp only [setFunc_fields]
  rw [h2, Flow.done_andThen, steps_cons, assign_apply, Flow.done_andThen, steps_cons]
  simp only [setCtrl_fields]
  rw [h3, Flow.done_andThen, steps_cons, h4, Flow.done_andThen, steps_cons, assign_apply, Flow.done_andThen,
    steps_cons]
  simp only [setMode_fields]
  rw [h5, Flow.done_andThen, steps_cons, h6, Flow.done_andThen, steps_cons, assign_apply, Flow.done_andThen,
    steps_nil]

theorem initSends_done {rows cols font : Byte} {s u : State} (h : initSends rows cols font s = .done u) :
    Sent 129 (initEvents s.addr rows (flagOf font)) (s.initialised rows cols font) u := by
  rw [initSends, steps_cons, assign_apply, Flow.done_andThen, steps_cons] at h
  obtain ⟨t1, h1, h⟩ := andThen_done h
  rw [handshake_eq] at h1
  have e1 := onlySends_handshake _ _ h1
  rw [steps_cons, assign_apply, Flow.done_andThen, steps_cons] at h
  obtain ⟨t2, h2, h⟩ := andThen_done h
  have e2 := onlySends_command _ _ _ h2
  rw [steps_cons, assign_apply, Flow.done_andThen, steps_cons] at h
  obtain ⟨t3, h3, h⟩ := andThen_done h
  have e3 := onlySends_command _ _ _ h3
  rw [steps_cons] at h
  obtain ⟨t4, h4, h⟩ := andThen_done h
  have e4 := onlySends_clearBody _ _ h4
  rw [steps_cons, assign_apply, Flow.done_andThen, steps_cons] at h
  obtain ⟨t5, h5, h⟩ := andThen_done h
  have e5 := onlySends_command _ _ _ h5
  rw [steps_cons] at h
  obtain ⟨t6, h6, h⟩ := andThen_done h
  have e6 := onlySends_homeBody _ _ h6
  rw [steps_cons, assign_apply, Flow.done_andThen, steps_nil, Flow.done.injEq] at h
  subst h
  have hrows : t1.rows = rows := by simpa using e1.rest.display.1.1
  have hfont : t1.font = flagOf font := by simpa using e1.rest.display.1.2.2.1
  have c1 := e1.sameTarget; have c2 := e2.sameTarget; have c3 := e3.sameTarget; have c4 := e4.sameTarget; have c5 := e5.sameTarget
  simp only [setGeometry_fields, setBl_fields, setFunc_fields, setCtrl_fields, setMode_fields] at c1 c2 c3 c4 c5
  simp only [c1] at c2
  simp only [c2] at c3
  simp only [c3] at c4
  simp only [c4] at c5
  simp only [setGeometry_fields, setBl_fields, handshakeSendsEvents_true] at e1
  simp only [setFunc_fields, hrows, hfont, c1] at e2
  simp only [setCtrl_fields, c2] at e3
  simp only [c3] at e4
  simp only [setMode_fields, c4] at e5
  simp only [c5] at e6
  rw [initEvents_eq]
  exact (((((e1.setFunc (functionSet rows (flagOf font))).trans e2).setCtrl initialCtrl).trans e3).trans
    e4).setMode initialMode |>.trans e5 |>.trans e6 |>.setReady

/-- INIT is refused where its handshake is. -/
theorem initSends_refused {rows cols font : Byte} {s : State} {r : Refusal}
    (h : handshakeSends ((s.setGeometry rows cols (flagOf font)).setBl true) = .refused r) :
    initSends rows cols font s = .refused r := by
  rw [initSends, steps_cons, assign_apply, Flow.done_andThen, steps_cons, handshake_eq, h, Flow.refused_andThen]

/-- INIT is stuck where its handshake is. -/
theorem initSends_stuck {rows cols font : Byte} {s t : State}
    (h : handshakeSends ((s.setGeometry rows cols (flagOf font)).setBl true) = .stuck t) :
    initSends rows cols font s = .stuck t := by
  rw [initSends, steps_cons, assign_apply, Flow.done_andThen, steps_cons, handshake_eq, h, Flow.stuck_andThen]

theorem initSends_ends {rows cols font : Byte} {s : State} (h : BusReady s 129) :
    ∃ t, initSends rows cols font s = .done t ∧
      Sent 129 (initEvents s.addr rows (flagOf font)) (s.initialised rows cols font) t := by
  have h0 : BusReady ((s.setGeometry rows cols (flagOf font)).setBl true) (39 + 90) := by
    simpa [BusReady, State.waitsEnd] using h
  obtain ⟨t1, h1, e1⟩ := sends_handshake _ h0.mono
  have b1 : BusReady (t1.setFunc (functionSet t1.rows t1.font)) (18 + 72) := by
    simpa [BusReady, State.waitsEnd] using h0.of_sent e1
  obtain ⟨t2, h2, e2⟩ := sends_command (functionSet t1.rows t1.font) _ b1.mono
  have b2 : BusReady (t2.setCtrl initialCtrl) (18 + 54) := by
    simpa [BusReady, State.waitsEnd] using b1.of_sent e2
  obtain ⟨t3, h3, e3⟩ := sends_command initialCtrl _ b2.mono
  have b3 : BusReady t3 (18 + 36) := b2.of_sent e3
  obtain ⟨t4, h4, e4⟩ := sends_clearBody _ b3.mono
  have b4 : BusReady (t4.setMode initialMode) (18 + 18) := by
    simpa [BusReady, State.waitsEnd] using b3.of_sent e4
  obtain ⟨t5, h5, e5⟩ := sends_command initialMode _ b4.mono
  obtain ⟨t6, h6, e6⟩ := sends_homeBody _ (b4.of_sent e5)
  have hd := initSends_parts h1 h2 h3 h4 h5 h6
  exact ⟨_, hd, initSends_done hd⟩

/-- INIT in `t` before its wait number `k`, the first that does not end: `m` waits and the events `l` are behind it, `j`
more waits end, and `b` is the state before it sent anything, with the registers written that it has written so far. -/
structure Before (k m j : Nat) (l : List Event) (b t : State) : Prop where
  sent : Sent m l b t
  waited : waitedIn l = m
  stops : StopsAt t j
  count : k = m + j

/-- What a part of INIT does where some wait does not end: it gets stuck at that wait, and so does INIT with the events
of the parts before it recorded; or the wait is not one of its own. -/
theorem Before.part {f : State → Flow} {k m n j : Nat} {l l' evs r : List Event} {e : BitVec 7 → Bool → List Event}
    {b t : State} (h : Before k m j l b t) (hf : Halts f n e) (hs : Sends f n e) (hn : 0 < n)
    (he : e b.addr b.bl = l') (hw : waitedIn l' = n) (hr : evs = l ++ (l' ++ r)) :
    (∃ u, f t = .stuck u ∧ StuckAfter k (beforeWait k evs) b u) ∨
      ∃ j' u, f t = .done u ∧ Before k (m + n) j' (l ++ l') b u := by
  rw [← h.sent.sameTarget.1, ← h.sent.sameTarget.2] at he
  subst he hr
  obtain ⟨hlt, u, hu, hst⟩ | ⟨j', u, hj, hu, hst, hs'⟩ := hf.or_passes hs hn h.stops
  · refine .inl ⟨u, hu, ?_⟩
    rw [h.count, beforeWait_middle h.waited (by omega)]
    exact h.sent.stuckAfter hst
  · exact .inr ⟨j', u, hu, h.sent.trans hst, by rw [waitedIn_append, h.waited, hw], hs', by rw [h.count]; omega⟩

@[simp] theorem waitedIn_init (a : BitVec 7) (rows : Byte) (font : Bool) : waitedIn (initEvents a rows font) = 129 := by
  simp [initEvents_eq]

/-- INIT stuck at any of its waits: the events before that wait are in the trace, the backlight has been forced on, and
the phase is what it was (R160, R202). -/
theorem initSends_halts {rows cols font : Byte} {s : State} {k : Nat} (hk : k < 129) (h : StopsAt s k) :
    ∃ s0 t, initSends rows cols font s = .stuck t ∧
      StuckAfter k (beforeWait k (initEvents s.addr rows (flagOf font))) s0 t ∧
      SameBus s s0 ∧ s0.bl = true ∧ s0.phase = s.phase := by
  let b := (s.setGeometry rows cols (flagOf font)).setBl true
  let F := functionSet rows (flagOf font)
  let b1 := b.setFunc F
  let b2 := b1.setCtrl initialCtrl
  let b3 := b2.setMode initialMode
  let evs := initEvents s.addr rows (flagOf font)
  let handshake := handshakeEvents s.addr
  let func := commandEvents s.addr true F
  let ctrl := commandEvents s.addr true initialCtrl
  let clear := homingEvents s.addr true Config.cmdClear
  let mode := commandEvents s.addr true initialMode
  let home := homingEvents s.addr true Config.cmdHome
  have hev : evs = handshake ++ (func ++ (ctrl ++ (clear ++ (mode ++ home)))) := by
    simp only [evs, initEvents_eq, List.append_assoc, F, handshake, func, ctrl, clear, mode, home]
  have base : ∀ c ∈ [b, b1, b2, b3], SameBus s c ∧ c.bl = true ∧ c.phase = s.phase := by
    simp only [List.mem_cons, List.not_mem_nil, or_false, forall_eq_or_imp, forall_eq]
    refine ⟨?_, ?_, ?_, ?_⟩ <;> refine ⟨?_, by simp [b, b1, b2, b3], by simp [b, b1, b2, b3]⟩ <;> constructor <;>
      simp [b, b1, b2, b3, SameBusConfig, SameInputs]
  have target : ∀ c ∈ [b, b1, b2, b3], c.addr = s.addr ∧ c.bl = true := fun c hc =>
    ⟨(base c hc).1.config.1, (base c hc).2.1⟩
  rw [initSends, steps_cons, assign_apply, Flow.done_andThen, steps_cons, handshake_eq]
  have e : Before k 0 k [] b b := ⟨Sent.refl b, rfl, (base b (by simp)).1.stopsAt h, by omega⟩
  obtain ⟨u, hu, hst⟩ | ⟨j, t, ht, e⟩ := e.part (l' := handshake) halts_handshake sends_handshake (by decide)
    (by rw [(target b (by simp)).1, (target b (by simp)).2, handshakeSendsEvents_true]) rfl hev
  · exact ⟨b, u, by rw [hu, Flow.stuck_andThen], hst, base b (by simp)⟩
  have hF : functionSet t.rows t.font = F := by
    rw [e.sent.rest.display.1.1, e.sent.rest.display.1.2.2.1]; simp [b, F]
  rw [ht, Flow.done_andThen, steps_cons, assign_apply, Flow.done_andThen, steps_cons, hF]
  simp only [setFunc_fields]
  replace e : Before k _ j _ b1 (t.setFunc F) :=
    ⟨e.sent.setFunc F, e.waited, by simpa [StopsAt, State.waitsEnd] using e.stops, e.count⟩
  obtain ⟨u, hu, hst⟩ | ⟨j, t, ht, e⟩ := e.part (l' := func) (halts_command F) (sends_command F) (by decide)
    (by rw [(target b1 (by simp)).1, (target b1 (by simp)).2]) rfl hev
  · exact ⟨b1, u, by rw [hu, Flow.stuck_andThen], hst, base b1 (by simp)⟩
  rw [ht, Flow.done_andThen, steps_cons, assign_apply, Flow.done_andThen, steps_cons]
  simp only [setCtrl_fields]
  replace e : Before k _ j _ b2 (t.setCtrl initialCtrl) :=
    ⟨e.sent.setCtrl initialCtrl, e.waited, by simpa [StopsAt, State.waitsEnd] using e.stops, e.count⟩
  obtain ⟨u, hu, hst⟩ | ⟨j, t, ht, e⟩ := e.part (l' := ctrl) (evs := evs) (r := clear ++ (mode ++ home))
    (halts_command initialCtrl) (sends_command initialCtrl) (by decide)
    (by rw [(target b2 (by simp)).1, (target b2 (by simp)).2]) rfl (by rw [hev]; simp only [List.append_assoc, List.nil_append])
  · exact ⟨b2, u, by rw [hu, Flow.stuck_andThen], hst, base b2 (by simp)⟩
  rw [ht, Flow.done_andThen, steps_cons]
  obtain ⟨u, hu, hst⟩ | ⟨j, t, ht, e⟩ := e.part (l' := clear) (evs := evs) (r := mode ++ home) halts_clearBody
    sends_clearBody (by decide) (by rw [(target b2 (by simp)).1, (target b2 (by simp)).2]) rfl
    (by rw [hev]; simp only [List.append_assoc, List.nil_append])
  · exact ⟨b2, u, by rw [hu, Flow.stuck_andThen], hst, base b2 (by simp)⟩
  rw [ht, Flow.done_andThen, steps_cons, assign_apply, Flow.done_andThen, steps_cons]
  simp only [setMode_fields]
  replace e : Before k _ j _ b3 (t.setMode initialMode) :=
    ⟨e.sent.setMode initialMode, e.waited, by simpa [StopsAt, State.waitsEnd] using e.stops, e.count⟩
  obtain ⟨u, hu, hst⟩ | ⟨j, t, ht, e⟩ := e.part (l' := mode) (evs := evs) (r := home) (halts_command initialMode)
    (sends_command initialMode) (by decide) (by rw [(target b3 (by simp)).1, (target b3 (by simp)).2]) rfl
    (by rw [hev]; simp only [List.append_assoc, List.nil_append])
  · exact ⟨b3, u, by rw [hu, Flow.stuck_andThen], hst, base b3 (by simp)⟩
  rw [ht, Flow.done_andThen, steps_cons]
  obtain ⟨u, hu, hst⟩ | ⟨j, t, -, e⟩ := e.part (l' := home) (evs := evs) (r := []) halts_homeBody sends_homeBody
    (by decide) (by rw [(target b3 (by simp)).1, (target b3 (by simp)).2]) rfl
    (by rw [hev]; simp only [List.append_assoc, List.nil_append, List.append_nil])
  · exact ⟨b3, u, by rw [hu, Flow.stuck_andThen], hst, base b3 (by simp)⟩
  · have := e.count
    omega

end Sys2Proof.Machine
end

