-- ==== Sys2Proof/Laws/Checks.lean ====
section
/-! SUPPORT. What stands between a command and its sends: the phase check, the operand checks and the transaction check
(R94, R125, R177, R205), passed or not, one equation a body. `Accepts f` says that nothing refuses `f` once no transaction
is open. -/

namespace Sys2Proof.Machine

theorem flagOf_eq : ∀ v : Byte, v.toNat ≤ 1 → flagOf v = decide (v = 1) := by unfold flagOf; decide

theorem badBool_legal {v : Byte} (h : v.toNat ≤ 1) : badBool v = false := by simp [badBool]; omega

theorem badBool_reserved {v : Byte} (h : 2 ≤ v.toNat) : badBool v = true := by simp [badBool]; omega

theorem badRows_legal {v : Byte} (h : 1 ≤ v.toNat) (h' : v.toNat ≤ 4) : badRows v = false := by
  have h0 : v.toNat ≠ 0 := by omega
  simp [badRows, h0]; omega

theorem requireReady_pass {s : State} (h : s.phase = .ready) : requireReady s = .done s := require_pos (by simp [h]) _

theorem requireReady_refuse {s : State} (h : s.phase = .uninitialized) :
    requireReady s = .refused .displayNotInitialised := require_neg (by simp [h]) _

theorem requireClosed_pass {s : State} (h : s.txn = false) : requireClosed s = .done s := require_pos (by simp [h]) _

theorem requireClosed_refuse {s : State} (h : s.txn = true) : requireClosed s = .refused .startInOpenTransaction :=
  require_neg (by simp [h]) _

theorem requireBool_pass {v : Byte} (name : String) (h : v.toNat ≤ 1) (s : State) : requireBool name v s = .done s :=
  require_pos (by simp [badBool_legal h]) _

theorem requireBool_refuse {v : Byte} (name : String) (h : 2 ≤ v.toNat) (s : State) :
    requireBool name v s = .refused (.reservedOperand name) := require_neg (by simp [badBool_reserved h]) _

/-- A body behind the phase check is its rest in Ready. -/
theorem steps_requireReady {s : State} (fs : List (State → Flow)) (h : s.phase = .ready) :
    steps (requireReady :: fs) s = steps fs s := by rw [steps_cons, requireReady_pass h, Flow.done_andThen]

theorem steps_requireReady_refuse {s : State} (fs : List (State → Flow)) (h : s.phase = .uninitialized) :
    steps (requireReady :: fs) s = .refused .displayNotInitialised := by
  rw [steps_cons, requireReady_refuse h, Flow.refused_andThen]

theorem steps_requireBool {v : Byte} (name : String) (fs : List (State → Flow)) (h : v.toNat ≤ 1) (s : State) :
    steps (requireBool name v :: fs) s = steps fs s := by rw [steps_cons, requireBool_pass name h, Flow.done_andThen]

theorem steps_requireBool_refuse {v : Byte} (name : String) (fs : List (State → Flow)) (h : 2 ≤ v.toNat) (s : State) :
    steps (requireBool name v :: fs) s = .refused (.reservedOperand name) := by
  rw [steps_cons, requireBool_refuse name h, Flow.refused_andThen]

theorem steps_one (f : State → Flow) (s : State) : steps [f] s = f s := by
  rw [steps_cons, steps_nil_eq, Flow.andThen_done]

theorem setBacklight_legal {on : Byte} (h : on.toNat ≤ 1) (s : State) :
    setBacklight on s = sendNibble 0x00 (s.setBl (decide (on = 1))) := by
  rw [setBacklight, steps_cons, require_pos (by simp [badBool_legal h]), Flow.done_andThen, steps_cons, assign_apply,
    Flow.done_andThen, steps_one, flagOf_eq on h]

theorem setBacklight_reserved {on : Byte} (h : 2 ≤ on.toNat) (s : State) :
    setBacklight on s = .refused (.reservedOperand "on") := by
  rw [setBacklight, steps_cons, require_neg (by simp [badBool_reserved h]), Flow.refused_andThen]

theorem backlight_ready (on : Byte) {s : State} (h : s.phase = .ready) : backlight on s = setBacklight on s := by
  rw [backlight, steps_requireReady _ h, steps_one]

theorem clear_ready {s : State} (h : s.phase = .ready) : clear s = clearBody s := by
  rw [clear, steps_requireReady _ h, steps_one]

theorem home_ready {s : State} (h : s.phase = .ready) : home s = homeBody s := by
  rw [home, steps_requireReady _ h, steps_one]

theorem setCursor_ready (col row : Byte) {s : State} (h : s.phase = .ready) :
    setCursor col row s = command (cursorByte col row s.rows) s := by
  rw [setCursor, steps_requireReady _ h, steps_one]

theorem controlFlag_legal {f on : Byte} {s : State} (h : s.phase = .ready) (ho : on.toNat ≤ 1) :
    controlFlag f on s = command (setFlag f (decide (on = 1)) s.ctrl)
      (s.setCtrl (setFlag f (decide (on = 1)) s.ctrl)) := by
  rw [controlFlag, steps_requireReady _ h, steps_requireBool _ _ ho, steps_cons, assign_apply, Flow.done_andThen,
    steps_one, flagOf_eq on ho, (setCtrl_fields _ s).2.2.2.2.2.2.2.2.2.2.2.2.2.2.2.2.2.2.1]

theorem modeFlag_legal {name : String} {f on : Byte} {s : State} (h : s.phase = .ready) (ho : on.toNat ≤ 1) :
    modeFlag name f on s = command (setFlag f (decide (on = 1)) s.mode)
      (s.setMode (setFlag f (decide (on = 1)) s.mode)) := by
  rw [modeFlag, steps_requireReady _ h, steps_requireBool _ _ ho, steps_cons, assign_apply, Flow.done_andThen,
    steps_one, flagOf_eq on ho, (setMode_fields _ s).2.2.2.2.2.2.2.2.2.2.2.2.2.2.2.2.2.2.2.1]

theorem scroll_legal {right : Byte} {s : State} (h : s.phase = .ready) (ho : right.toNat ≤ 1) :
    scroll right s = command (scrollByte right) s := by
  rw [scroll, steps_requireReady _ h, steps_requireBool _ _ ho, steps_one]

theorem loadGlyph_ready (slot : Byte) (ps : List Byte) {s : State} (h : s.phase = .ready) :
    loadGlyph slot ps s = steps [command (glyphByte slot), writeAll ps] s := by
  rw [loadGlyph, steps_requireReady _ h]

theorem print_ready (cs : List Byte) {s : State} (h : s.phase = .ready) (ht : s.txn = false) :
    print cs s = printAll cs s := by
  rw [print, steps_requireReady _ h, steps_cons, requireClosed_pass ht, Flow.done_andThen, steps_one]

theorem print_refused (cs : List Byte) {s : State} (h : s.phase = .ready) (ht : s.txn = true) :
    print cs s = .refused .startInOpenTransaction := by
  rw [print, steps_requireReady _ h, steps_cons, requireClosed_refuse ht, Flow.refused_andThen]

/-! ## With a transaction open -/

theorem sendNibble_refused (x : Byte) {s : State} (h : s.txn = true) :
    sendNibble x s = .refused .startInOpenTransaction := by
  rw [sendNibble, steps_cons, start_refused h, Flow.refused_andThen]

theorem sendByte_refused (v m : Byte) {s : State} (h : s.txn = true) :
    sendByte v m s = .refused .startInOpenTransaction := by
  rw [sendByte, steps_cons, sendNibble_refused _ h, Flow.refused_andThen]

theorem handshakeSends_refused {s : State} (h : s.txn = true) :
    handshakeSends s = .refused .startInOpenTransaction := by
  rw [handshakeSends, steps_cons, delayUs_apply, Flow.done_andThen, steps_cons, sendNibble_refused _ (by simp [h]),
    Flow.refused_andThen]

/-! ## With no transaction open -/

/-- From every state with no transaction open, `f` completes with none open, or waits for ever: nothing refuses it. -/
def Accepts (f : State → Flow) : Prop :=
  ∀ s, s.txn = false → (∃ t, f s = .done t ∧ t.txn = false) ∨ ∃ t, f s = .stuck t

theorem Accepts.andThen {f g : State → Flow} (hf : Accepts f) (hg : Accepts g) :
    Accepts fun s => (f s).andThen g := by
  intro s hs
  obtain ⟨t, ht, hc⟩ | ⟨t, ht⟩ := hf s hs
  · simp only [ht, Flow.done_andThen]; exact hg t hc
  · exact .inr ⟨t, by simp [ht]⟩

theorem accepts_nil : Accepts .done := fun s hs => .inl ⟨s, rfl, hs⟩

theorem accepts_steps {fs : List (State → Flow)} (h : ∀ f ∈ fs, Accepts f) : Accepts (steps fs) := by
  induction fs with
  | nil => exact accepts_nil
  | cons f fs ih => exact (h f (by simp)).andThen (ih fun g hg => h g (by simp [hg]))

theorem accepts_sendNibble (x : Byte) : Accepts (sendNibble x) := by
  intro s hs
  rw [sendNibble, steps_cons]
  cases he : s.busEn with
  | false => rw [start_disabled hs he]; exact .inr ⟨_, rfl⟩
  | true =>
    cases h1 : s.waits.head Config.waitEnds with
    | false => rw [start_never hs he h1]; exact .inr ⟨_, rfl⟩
    | true =>
      rw [start_ends hs he h1, Flow.done_andThen, steps_cons]
      cases h2 : (s.request.waitEnded.started).waits.head Config.waitEnds with
      | false => rw [writeByte_never _ (by simp) (by simp [he]) h2]; exact .inr ⟨_, rfl⟩
      | true =>
        rw [writeByte_ends _ (by simp) (by simp [he]) h2, Flow.done_andThen, steps_cons]
        cases h3 : (State.wrote (addrByte s.addr) (State.waitEnded (State.request (State.load (addrByte s.addr)
            s.request.waitEnded.started)))).waits.head Config.waitEnds with
        | false => rw [writeByte_never _ (by simp) (by simp [he]) h3]; exact .inr ⟨_, rfl⟩
        | true =>
          rw [writeByte_ends _ (by simp) (by simp [he]) h3, Flow.done_andThen, steps_one, stop_ends (by simp)]
          exact .inl ⟨_, rfl, by simp⟩

theorem accepts_delay (n : Nat) : Accepts (delayUs n) := fun s hs => .inl ⟨_, delayUs_apply n s, by simp [hs]⟩

theorem accepts_pulseLatch (x : Byte) : Accepts (pulseLatch x) :=
  accepts_steps (by simp [accepts_sendNibble, accepts_delay])

theorem accepts_sendByte (v m : Byte) : Accepts (sendByte v m) :=
  accepts_steps (by simp [accepts_sendNibble, accepts_pulseLatch])

theorem accepts_command (b : Byte) : Accepts (command b) := accepts_sendByte b 0x00

theorem accepts_commandOf (v : State → Byte) : Accepts fun s => command (v s) s := fun s => accepts_command (v s) s

theorem accepts_assign {f : State → State} (h : ∀ s, (f s).txn = s.txn) : Accepts (assign f) := fun s hs =>
  .inl ⟨_, rfl, (h s).trans hs⟩

theorem accepts_clearBody : Accepts clearBody := accepts_steps (by simp [accepts_command, accepts_delay])

theorem accepts_homeBody : Accepts homeBody := accepts_steps (by simp [accepts_command, accepts_delay])

theorem accepts_writeAll (ps : List Byte) : Accepts (writeAll ps) := by
  induction ps with
  | nil => exact accepts_nil
  | cons p ps ih => exact (accepts_sendByte p Config.bitRS).andThen ih

theorem accepts_printAll (cs : List Byte) : Accepts (printAll cs) := by
  induction cs with
  | nil => exact accepts_nil
  | cons c cs ih => exact (accepts_steps (by simp [writeData, accepts_sendByte, accepts_delay])).andThen ih

theorem accepts_handshakeSends : Accepts handshakeSends := by
  have h : ∀ x, Accepts (nibbleTransfer x) := fun x => accepts_steps (by simp [accepts_sendNibble, accepts_pulseLatch])
  exact accepts_steps (by simp [accepts_delay, accepts_sendNibble, h])

theorem accepts_initSends (rows cols font : Byte) : Accepts (initSends rows cols font) := by
  refine accepts_steps ?_
  simp only [List.mem_cons, List.not_mem_nil, or_false, forall_eq_or_imp, forall_eq]
  exact ⟨accepts_assign fun s => by simp, fun s hs => handshake_eq s ▸ accepts_handshakeSends _ (by simpa using hs),
    accepts_assign fun s => by simp, accepts_commandOf _, accepts_assign fun s => by simp, accepts_commandOf _,
    accepts_clearBody, accepts_assign fun s => by simp, accepts_commandOf _, accepts_homeBody,
    accepts_assign fun s => by simp⟩

/-! ## Before CONFIGURE -/

theorem sendNibble_disabled (x : Byte) {s : State} (h : s.txn = false) (he : s.busEn = false) :
    sendNibble x s = .stuck s.request := by
  rw [sendNibble, steps_cons, start_disabled h he, Flow.stuck_andThen]

theorem sendByte_disabled (v m : Byte) {s : State} (h : s.txn = false) (he : s.busEn = false) :
    sendByte v m s = .stuck s.request := by
  rw [sendByte, steps_cons, sendNibble_disabled _ h he, Flow.stuck_andThen]

theorem handshakeSends_disabled {s : State} (h : s.txn = false) (he : s.busEn = false) :
    handshakeSends s = .stuck (emit (.delay Config.tPowerUs) (engine s)).request := by
  rw [handshakeSends, steps_cons, delayUs_apply, Flow.done_andThen, steps_cons,
    sendNibble_disabled _ (by simp [h]) (by simp [he]), Flow.stuck_andThen]

end Sys2Proof.Machine
end

