-- ==== Sys2Proof/Laws/Decode.lean ====
section
/-! SUPPORT. The laws of the decoder's parts (Sys2Proof/Decode.lean). -/

namespace Sys2Proof

theorem splitBytes_append (cs rest : List Byte) : splitBytes cs.length (cs ++ rest) = some (cs, rest) := by
  induction cs with
  | nil => rfl
  | cons c cs ih => simp [splitBytes, ih]

theorem splitBytes_some {n : Nat} {bs cs rest : List Byte} (h : splitBytes n bs = some (cs, rest)) :
    bs = cs ++ rest ∧ cs.length = n := by
  induction n generalizing bs cs with
  | zero => simp only [splitBytes, Option.some.injEq, Prod.mk.injEq] at h; simp [← h.1, h.2]
  | succ n ih =>
    cases bs with
    | nil => simp [splitBytes] at h
    | cons b bs =>
      simp only [splitBytes] at h
      split at h
      · rename_i heq
        cases h
        obtain ⟨rfl, rfl⟩ := ih heq
        simp
      · cases h

theorem splitBytes_none {n : Nat} {bs : List Byte} : splitBytes n bs = none ↔ bs.length < n := by
  induction n generalizing bs with
  | zero => simp [splitBytes]
  | succ n ih =>
    cases bs with
    | nil => simp [splitBytes]
    | cons b bs =>
      have := ih (bs := bs)
      simp only [splitBytes, List.length_cons, Nat.succ_lt_succ_iff, ← this]
      cases splitBytes n bs <;> simp

/-- A byte is known by its number: turns the decoder's match on a number into an equation of bytes. -/
theorem byte_eq_of_toNat {op : Byte} {n : Nat} (h : op.toNat = n) : op = BitVec.ofNat 8 n := by
  subst h; simp

/-- The count byte of an encodable PRINT is its number of characters. -/
theorem countByte_toNat {cs : List Byte} (h : legalCount cs = true) : (BitVec.ofNat 8 cs.length).toNat = cs.length := by
  have h : cs.length ≤ 255 := by simpa [legalCount] using h
  simp only [BitVec.toNat_ofNat]
  omega

end Sys2Proof
end

