-- ==== Sys2Proof/Laws/Reading.lean ====
section
/-! SUPPORT. How the readings of a trace (Sys2Proof/Machine/Reading.lean) go over a trace that grows, and its pieces
between INIT's handshakes (R77). -/

namespace Sys2Proof.Machine

theorem framing_append (l r : List Event) : framing (l ++ r) = r.foldl Event.frame (framing l) := by
  simp [framing]

theorem framing_snoc (t : List Event) (e : Event) : framing (t ++ [e]) = Event.frame (framing t) e := by
  simp [framing]

/-- The position on the bus after a trace. -/
def busPosAfter (a : Byte) (p : BusPos) (t : List Event) : BusPos := t.foldl (BusPos.after a) p

theorem targetBytes_append (a : Byte) (p : BusPos) (l r : List Event) :
    targetBytes a p (l ++ r) = targetBytes a p l ++ targetBytes a (busPosAfter a p l) r := by
  induction l generalizing p with
  | nil => simp [targetBytes, busPosAfter]
  | cons e l ih =>
    rw [List.cons_append]
    cases p <;> cases e <;> simp [targetBytes, ih, busPosAfter, BusPos.after]

theorem latchFrom_append (prev : Byte) (l r : List Byte) :
    latchFrom prev (l ++ r) = latchFrom prev l ++ latchFrom (l.getLastD prev) r := by
  induction l generalizing prev with
  | nil => simp [latchFrom]
  | cons b l ih =>
    rw [List.cons_append, latchFrom, latchFrom, ih, List.getLastD_cons]
    split <;> simp

theorem pairNibbles_append {l r : List Latched} (h : 2 ∣ l.length) :
    pairNibbles (l ++ r) = pairNibbles l ++ pairNibbles r := by
  induction l using pairNibbles.induct with
  | case1 => simp_all [pairNibbles]
  | case2 => simp_all [pairNibbles]
  | case3 l hl =>
    match l, hl, h with
    | [], _, _ => simp [pairNibbles]
    | [x], _, h => simp at h
    | x :: y :: rest, hl, _ => exact absurd rfl (hl _ _ _ _ _)

theorem leastDelayUs_append (l r : List Event) : leastDelayUs (l ++ r) = leastDelayUs l + leastDelayUs r := by
  simp [leastDelayUs]

theorem transactions_append (l r : List Event) : transactions (l ++ r) = transactions l + transactions r := by
  simp [transactions]

/-! ## Counts of the sends (R144) -/

/-- The length, the transactions and the least delay of a trace. -/
def counts (t : List Event) : Nat × Nat × Nat := (t.length, transactions t, leastDelayUs t)

theorem counts_append (l r : List Event) :
    counts (l ++ r) = ((counts l).1 + (counts r).1, (counts l).2.1 + (counts r).2.1, (counts l).2.2 + (counts r).2.2) := by
  simp [counts, transactions_append, leastDelayUs_append]

theorem counts_delay (n : Nat) : counts [.delay n] = (1, 0, n) := by
  simp [counts, transactions, leastDelayUs, Event.minimumUs]

theorem counts_sendNibble (a : BitVec 7) (b : Bool) (x : Byte) : counts (sendNibbleEvents a b x) = (4, 1, 0) := by
  simp [counts, transactions, leastDelayUs, Event.minimumUs, sendNibbleEvents, busWriteEvents]

theorem counts_pulseLatch (a : BitVec 7) (b : Bool) (x : Byte) : counts (pulseLatchEvents a b x) = (10, 2, 51) := by
  simp [pulseLatchEvents, -List.append_assoc, counts_append, counts_sendNibble, counts_delay]

theorem counts_nibbleTransfer (a : BitVec 7) (b : Bool) (x : Byte) :
    counts (nibbleTransferEvents a b x) = (14, 3, 51) := by
  simp [nibbleTransferEvents, counts_append, counts_sendNibble, counts_pulseLatch]

theorem counts_sendByte (a : BitVec 7) (b : Bool) (v m : Byte) : counts (sendByteEvents a b v m) = (28, 6, 102) := by
  simp [sendByteEvents, counts_append, counts_nibbleTransfer]

/-- Outside a transaction the bus position is closed, whatever came before. -/
theorem busPosAfter_closed (a : Byte) {t : List Event} (h : framing t = some false) :
    busPosAfter a .closed t = .closed := by
  suffices ∀ (t : List Event) (o : Bool) (p : BusPos), (o = false → p = .closed) →
      t.foldl Event.frame (some o) = some false → t.foldl (BusPos.after a) p = .closed from
    this t false .closed (fun _ => rfl) h
  have hnone : ∀ t : List Event, t.foldl Event.frame none = none := fun t => by
    induction t with
    | nil => rfl
    | cons e t ih => cases e <;> simpa [Event.frame] using ih
  intro t
  induction t with
  | nil => intro o p hp h; exact hp (by simpa using h)
  | cons e t ih =>
    intro o p hp h
    rw [List.foldl_cons] at h ⊢
    cases o <;> cases e <;> simp only [Event.frame, hnone, reduceCtorEq] at h <;> refine ih _ _ ?_ h <;>
      simp_all [BusPos.after]

/-! ## The pieces between handshakes (R77) -/

theorem betweenHandshakes_skip (hs : List Event) (k : Nat) (t : List Event) :
    betweenHandshakes hs k t = betweenHandshakes hs 0 (t.drop k) := by
  induction t generalizing k with
  | nil => cases k <;> simp [betweenHandshakes]
  | cons e t ih =>
    cases k with
    | zero => rfl
    | succ k => rw [betweenHandshakes, ih, List.drop_succ_cons]

theorem betweenHandshakes_ne_nil (hs : List Event) (k : Nat) (t : List Event) : betweenHandshakes hs k t ≠ [] := by
  cases t with
  | nil => cases k <;> simp [betweenHandshakes]
  | cons e t =>
    cases k with
    | succ k => rw [betweenHandshakes]; exact betweenHandshakes_ne_nil hs k t
    | zero => rw [betweenHandshakes]; split <;> [simp; split <;> simp]

/-- A trace that begins with a handshake has an empty piece before it. -/
theorem betweenHandshakes_prefix {hs : List Event} (h : hs ≠ []) (r : List Event) :
    betweenHandshakes hs 0 (hs ++ r) = [] :: betweenHandshakes hs 0 r := by
  obtain ⟨e, hs', rfl⟩ := List.exists_cons_of_ne_nil h
  rw [List.cons_append, betweenHandshakes, if_pos (by rw [List.isPrefixOf_iff_prefix]; exact ⟨r, rfl⟩),
    betweenHandshakes_skip]
  simp

/-- Any other first event goes to the front of the first piece. -/
theorem betweenHandshakes_cons {hs : List Event} {e : Event} {t : List Event} (h : ¬ hs <+: e :: t) :
    ∃ piece more, betweenHandshakes hs 0 t = piece :: more ∧
      betweenHandshakes hs 0 (e :: t) = (e :: piece) :: more := by
  obtain ⟨piece, more, hp⟩ := List.exists_cons_of_ne_nil (betweenHandshakes_ne_nil hs 0 t)
  refine ⟨piece, more, hp, ?_⟩
  rw [betweenHandshakes, if_neg (by rw [List.isPrefixOf_iff_prefix]; exact h), hp]

/-- Events that neither begin a handshake nor go on with one go to the end of the last piece. -/
theorem betweenHandshakes_append {hs evs : List Event} (h : hs ≠ [])
    (hin : ∀ v, v <:+ evs → ¬ hs <+: v) (hon : ∀ k, 0 < k → k < hs.length → ¬ hs.drop k <+: evs) (t : List Event) :
    betweenHandshakes hs 0 (t ++ evs) =
      (betweenHandshakes hs 0 t).dropLast ++ [(betweenHandshakes hs 0 t).getLastD [] ++ evs] := by
  induction hn : t.length using Nat.strong_induction_on generalizing t with
  | _ n ih =>
  cases t with
  | nil =>
    suffices ∀ v, v <:+ evs → betweenHandshakes hs 0 v = [v] by
      simpa [betweenHandshakes] using this evs (List.suffix_refl evs)
    intro v
    induction v with
    | nil => intro _; rfl
    | cons e v ihv =>
      intro hv
      obtain ⟨p, m, h1, h2⟩ := betweenHandshakes_cons (hin _ hv)
      rw [ihv ((List.suffix_cons e v).trans hv)] at h1
      cases h1
      exact h2
  | cons e t =>
    by_cases hp : hs <+: e :: t
    · obtain ⟨t', ht⟩ := hp
      have hl : t'.length < n := by
        have h1 := congrArg List.length ht
        have h2 := List.length_pos_iff.2 h
        simp at h1 hn
        omega
      rw [← ht, List.append_assoc, betweenHandshakes_prefix h, betweenHandshakes_prefix h, ih _ hl t' rfl]
      obtain ⟨p, m, hpm⟩ := List.exists_cons_of_ne_nil (betweenHandshakes_ne_nil hs 0 t')
      rw [hpm]
      simp
    · have hq : ¬ hs <+: e :: (t ++ evs) := by
        intro hq
        by_cases hl : hs.length ≤ (e :: t).length
        · exact hp (List.prefix_of_prefix_length_le hq (List.prefix_append (e :: t) evs) hl)
        · refine hon (e :: t).length (by simp) (by omega) ?_
          obtain ⟨r, hr⟩ := hq
          refine ⟨r, ?_⟩
          have := congrArg (List.drop (e :: t).length) hr
          rwa [List.drop_append_of_le_length (by omega), ← List.cons_append, List.drop_left] at this
      obtain ⟨p, m, h1, h2⟩ := betweenHandshakes_cons hq
      obtain ⟨p', m', h3, h4⟩ := betweenHandshakes_cons hp
      rw [ih t.length (by simp at hn; omega) t rfl, h3] at h1
      rw [List.cons_append, h2, h4]
      cases m' with
      | nil => simp at h1; obtain ⟨rfl, rfl⟩ := h1; simp
      | cons q m' => simp at h1; obtain ⟨rfl, rfl⟩ := h1; simp

/-- A handshake, whose first event stands nowhere else in it, parts a trace whatever stands before it. -/
theorem betweenHandshakes_parts {e : Event} {hs : List Event} (h : e ∉ hs) (t r : List Event) :
    betweenHandshakes (e :: hs) 0 (t ++ (e :: hs ++ r)) =
      betweenHandshakes (e :: hs) 0 t ++ betweenHandshakes (e :: hs) 0 r := by
  induction hn : t.length using Nat.strong_induction_on generalizing t with
  | _ n ih =>
  cases t with
  | nil => simpa [betweenHandshakes] using betweenHandshakes_prefix (hs := e :: hs) (by simp) r
  | cons d t =>
    by_cases hp : e :: hs <+: d :: t
    · obtain ⟨t', ht⟩ := hp
      have hl : t'.length < n := by
        have h1 := congrArg List.length ht
        simp at h1 hn
        omega
      rw [← ht, List.append_assoc, betweenHandshakes_prefix (by simp), betweenHandshakes_prefix (by simp),
        ih _ hl t' rfl, List.cons_append]
    · have hq : ¬ e :: hs <+: d :: (t ++ (e :: hs ++ r)) := by
        intro hq
        by_cases hl : (e :: hs).length ≤ (d :: t).length
        · exact hp (List.prefix_of_prefix_length_le hq (List.prefix_append (d :: t) _) hl)
        · obtain ⟨q, hq⟩ := hq
          rw [List.cons_append, List.cons.injEq] at hq
          have hlt : t.length < hs.length := by simpa using hl
          refine h ?_
          have := congrArg (·[t.length]?) hq.2
          simp only [List.getElem?_append_left hlt, List.cons_append, List.getElem?_append_right (Nat.le_refl _),
            Nat.sub_self, List.getElem?_cons_zero] at this
          exact List.mem_of_getElem? this
      obtain ⟨p, m, h1, h2⟩ := betweenHandshakes_cons hq
      obtain ⟨p', m', h3, h4⟩ := betweenHandshakes_cons hp
      rw [ih t.length (by simp at hn; omega) t rfl, h3, List.cons_append, List.cons.injEq] at h1
      obtain ⟨rfl, rfl⟩ := h1
      rw [List.cons_append, h2, h4, List.cons_append]

/-- A trace without the power-on delay is one piece. -/
theorem piecesOf_of_not_mem (addr : BitVec 7) {t : List Event} (h : Event.delay 40000 ∉ t) : piecesOf addr t = [t] := by
  induction t with
  | nil => rfl
  | cons e t ih =>
    rw [List.mem_cons, not_or] at h
    obtain ⟨p, m, h1, h2⟩ := betweenHandshakes_cons (hs := handshakeEvents addr) (e := e) (t := t) fun ⟨r, hr⟩ =>
      h.1 (Option.some.inj (congrArg List.head? hr))
    have h1 := h1.symm.trans (ih h.2)
    cases h1
    exact h2

/-- The logical bytes of a trace without the power-on delay are its latched nibbles, paired. -/
theorem logicalBytes_of_not_mem (addr : BitVec 7) {t : List Event} (h : Event.delay 40000 ∉ t) :
    logicalBytes addr t = pairNibbles (latched (addrByte addr) t) := by
  rw [logicalBytes, piecesOf_of_not_mem addr h, List.flatMap_singleton]

/-- Pairing starts afresh after a handshake, whose nibbles belong to no logical byte. -/
theorem logicalBytes_handshake (addr : BitVec 7) (t r : List Event) :
    logicalBytes addr (t ++ (handshakeEvents addr ++ r)) = logicalBytes addr t ++ logicalBytes addr r := by
  have hh : ∃ hs, handshakeEvents addr = .delay 40000 :: hs ∧ (Event.delay 40000) ∉ hs := by
    refine ⟨(handshakeEvents addr).tail, rfl, ?_⟩
    simp [handshakeEvents, sendNibbleEvents, nibbleTransferEvents, pulseLatchEvents, busWriteEvents]
  obtain ⟨hs, he, hm⟩ := hh
  rw [logicalBytes, logicalBytes, logicalBytes, piecesOf, piecesOf, piecesOf, he, betweenHandshakes_parts hm,
    List.flatMap_append]

end Sys2Proof.Machine
end

