-- ==== Sys2Proof/Laws/Relate.lean ====
section
/-! SUPPORT. What nothing reads: a relation between states that agree in all that a sending body looks at, and that
every primitive keeps, is kept by every body, and both runs end the same way. Three such relations: states that differ
in the acknowledge bits (R30), in the registers that no rule reads (R25, R26, R35), and in `CP` and the name of the
command that executes (R21, R23). -/

namespace Sys2Proof.Machine

/-- Both flows end the same way, in related states. -/
def Flow.Related (R : State → State → Prop) : Flow → Flow → Prop
  | .done s, .done t => R s t
  | .stuck s, .stuck t => R s t
  | .refused q, .refused r => q = r
  | _, _ => False

/-- From related states the piece of pseudocode ends the same way, in related states. -/
def Respects (R : State → State → Prop) (f : State → Flow) : Prop := ∀ s t, R s t → (f s).Related R (f t)

theorem Flow.Related.andThen {R : State → State → Prop} {f g : Flow} {h k : State → Flow} (hf : f.Related R g)
    (hh : ∀ s t, R s t → (h s).Related R (k t)) : (f.andThen h).Related R (g.andThen k) := by
  cases f <;> cases g <;> simp only [Flow.Related] at hf
  · exact hh _ _ hf
  · exact hf
  · subst hf; rfl

variable {R : State → State → Prop}

theorem respects_steps {fs : List (State → Flow)} (h : ∀ f ∈ fs, Respects R f) : Respects R (steps fs) := by
  induction fs with
  | nil => exact fun s t hr => hr
  | cons f fs ih =>
    intro s t hr
    rw [steps_cons, steps_cons]
    exact (h f (by simp) s t hr).andThen (ih fun g hg => h g (by simp [hg]))

theorem respects_assign {f : State → State} (h : ∀ s t, R s t → R (f s) (f t)) : Respects R (assign f) := h

theorem respects_require {ok : State → Bool} {r : Refusal} (h : ∀ s t, R s t → ok s = ok t) :
    Respects R (require ok r) := by
  intro s t hr
  have := h s t hr
  cases hs : ok s with
  | true => rw [require_pos hs, require_pos (this ▸ hs)]; exact hr
  | false => rw [require_neg hs, require_neg (this ▸ hs)]; rfl

/-- Related states agree in all that a sending body looks at, and every primitive keeps the relation. -/
structure Blind (R : State → State → Prop) : Prop where
  txn : ∀ {s t}, R s t → s.txn = t.txn
  busEn : ∀ {s t}, R s t → s.busEn = t.busEn
  waits : ∀ {s t}, R s t → s.waits = t.waits
  addr : ∀ {s t}, R s t → s.addr = t.addr
  bl : ∀ {s t}, R s t → s.bl = t.bl
  rows : ∀ {s t}, R s t → s.rows = t.rows
  font : ∀ {s t}, R s t → s.font = t.font
  func : ∀ {s t}, R s t → s.func = t.func
  ctrl : ∀ {s t}, R s t → s.ctrl = t.ctrl
  mode : ∀ {s t}, R s t → s.mode = t.mode
  phase : ∀ {s t}, R s t → s.phase = t.phase
  request : ∀ {s t}, R s t → R s.request t.request
  waitEnded : ∀ {s t}, R s t → R s.waitEnded t.waitEnded
  waitNever : ∀ {s t}, R s t → R s.waitNever t.waitNever
  started : ∀ {s t}, R s t → R s.started t.started
  load : ∀ {s t} b, R s t → R (State.load b s) (State.load b t)
  wrote : ∀ {s t} b, R s t → R (State.wrote b s) (State.wrote b t)
  stopped : ∀ {s t}, R s t → R s.stopped t.stopped
  received : ∀ {s t}, R s t → R s.received t.received
  delayed : ∀ {s t} n, R s t → R (emit (.delay n) (engine s)) (emit (.delay n) (engine t))
  setBl : ∀ {s t} v, R s t → R (s.setBl v) (t.setBl v)
  setGeometry : ∀ {s t} r c f, R s t → R (s.setGeometry r c f) (t.setGeometry r c f)
  setFunc : ∀ {s t} v, R s t → R (s.setFunc v) (t.setFunc v)
  setCtrl : ∀ {s t} v, R s t → R (s.setCtrl v) (t.setCtrl v)
  setMode : ∀ {s t} v, R s t → R (s.setMode v) (t.setMode v)
  setReady : ∀ {s t}, R s t → R s.setReady t.setReady

namespace Blind

theorem waitDone (h : Blind R) : Respects R waitDone := by
  intro s t hr
  simp only [Machine.waitDone, ← h.busEn hr, ← h.waits hr]
  cases s.busEn <;> cases s.waits.head Config.waitEnds
  · exact hr
  · exact hr
  · exact h.waitNever hr
  · exact h.waitEnded hr

theorem delay (h : Blind R) (n : Nat) : Respects R (delayUs n) := fun _ _ hr => h.delayed n hr

theorem requireClosed (h : Blind R) : Respects R requireClosed := respects_require fun s t hr => by rw [h.txn hr]

theorem start (h : Blind R) : Respects R start := by
  refine respects_steps ?_
  simp only [List.mem_cons, List.not_mem_nil, or_false, forall_eq_or_imp, forall_eq]
  exact ⟨h.requireClosed, respects_assign fun s t hr => h.request hr, h.waitDone,
    respects_assign fun s t hr => h.started hr⟩

theorem writeByte (h : Blind R) (b : Byte) : Respects R (writeByte b) := by
  refine respects_steps ?_
  simp only [List.mem_cons, List.not_mem_nil, or_false, forall_eq_or_imp, forall_eq]
  exact ⟨respects_require fun s t hr => by rw [h.txn hr], respects_assign fun s t hr => h.load b hr,
    respects_assign fun s t hr => h.request hr, h.waitDone, respects_assign fun s t hr => h.wrote b hr⟩

theorem stop (h : Blind R) : Respects R stop := by
  refine respects_steps ?_
  simp only [List.mem_cons, List.not_mem_nil, or_false, forall_eq_or_imp, forall_eq]
  exact ⟨respects_require fun s t hr => by rw [h.txn hr], respects_assign fun s t hr => h.stopped hr⟩

theorem readByte (h : Blind R) : Respects R readByte := by
  refine respects_steps ?_
  simp only [List.mem_cons, List.not_mem_nil, or_false, forall_eq_or_imp, forall_eq]
  exact ⟨respects_require fun s t hr => by rw [h.txn hr], respects_assign fun s t hr => h.request hr, h.waitDone,
    respects_assign fun s t hr => h.received hr⟩

theorem sendNibble (h : Blind R) (x : Byte) : Respects R (sendNibble x) := by
  intro s t hr
  rw [Machine.sendNibble, Machine.sendNibble, h.addr hr, h.bl hr]
  exact respects_steps (by simp [h.start, h.writeByte, h.stop]) s t hr

theorem pulseLatch (h : Blind R) (x : Byte) : Respects R (pulseLatch x) :=
  respects_steps (by simp [h.sendNibble, h.delay])

theorem sendByte (h : Blind R) (v m : Byte) : Respects R (sendByte v m) :=
  respects_steps (by simp [h.sendNibble, h.pulseLatch])

theorem command (h : Blind R) (b : Byte) : Respects R (command b) := h.sendByte b 0x00

theorem writeData (h : Blind R) (b : Byte) : Respects R (writeData b) := h.sendByte b Config.bitRS

theorem nibbleTransfer (h : Blind R) (x : Byte) : Respects R (nibbleTransfer x) :=
  respects_steps (by simp [h.sendNibble, h.pulseLatch])

theorem setBacklight (h : Blind R) (on : Byte) : Respects R (setBacklight on) := by
  refine respects_steps ?_
  simp only [List.mem_cons, List.not_mem_nil, or_false, forall_eq_or_imp, forall_eq]
  exact ⟨respects_require fun _ _ _ => rfl, respects_assign fun s t hr => h.setBl _ hr, h.sendNibble 0x00⟩

theorem requireReady (h : Blind R) : Respects R requireReady := respects_require fun s t hr => by rw [h.phase hr]

theorem requireBool (_ : Blind R) (name : String) (v : Byte) : Respects R (requireBool name v) :=
  respects_require fun _ _ _ => rfl

theorem clearBody (h : Blind R) : Respects R clearBody := respects_steps (by simp [h.command, h.delay])

theorem homeBody (h : Blind R) : Respects R homeBody := respects_steps (by simp [h.command, h.delay])

theorem clear (h : Blind R) : Respects R clear := respects_steps (by simp [h.requireReady, h.clearBody])

theorem home (h : Blind R) : Respects R home := respects_steps (by simp [h.requireReady, h.homeBody])

theorem handshake (h : Blind R) : Respects R handshake :=
  respects_steps (by simp [h.delay, h.setBacklight, h.nibbleTransfer])

/-- A body that reads a register to know what to send. -/
theorem commandOf (h : Blind R) {v : State → Byte} (hv : ∀ s t, R s t → v s = v t) :
    Respects R fun s => Machine.command (v s) s := by
  intro s t hr
  simp only [hv s t hr]
  exact h.command _ s t hr

theorem initialize4Bit (h : Blind R) (rows cols font : Byte) : Respects R (initialize4Bit rows cols font) := by
  refine respects_steps ?_
  simp only [List.mem_cons, List.not_mem_nil, or_false, forall_eq_or_imp, forall_eq]
  exact ⟨respects_require fun _ _ _ => rfl, h.requireBool _ _, respects_assign fun s t hr => h.setGeometry _ _ _ hr,
    h.handshake, respects_assign fun s t hr => by simp only [h.rows hr, h.font hr]; exact h.setFunc _ hr,
    h.commandOf fun s t hr => h.func hr, respects_assign fun s t hr => h.setCtrl _ hr,
    h.commandOf fun s t hr => h.ctrl hr, h.clearBody, respects_assign fun s t hr => h.setMode _ hr,
    h.commandOf fun s t hr => h.mode hr, h.homeBody, respects_assign fun s t hr => h.setReady hr⟩

theorem setCursor (h : Blind R) (col row : Byte) : Respects R (setCursor col row) := by
  refine respects_steps ?_
  simp only [List.mem_cons, List.not_mem_nil, or_false, forall_eq_or_imp, forall_eq]
  exact ⟨h.requireReady, h.commandOf fun s t hr => by rw [h.rows hr]⟩

theorem controlFlag (h : Blind R) (f on : Byte) : Respects R (controlFlag f on) := by
  refine respects_steps ?_
  simp only [List.mem_cons, List.not_mem_nil, or_false, forall_eq_or_imp, forall_eq]
  exact ⟨h.requireReady, h.requireBool _ _,
    respects_assign fun s t hr => by simp only [h.ctrl hr]; exact h.setCtrl _ hr, h.commandOf fun s t hr => h.ctrl hr⟩

theorem modeFlag (h : Blind R) (name : String) (f on : Byte) : Respects R (modeFlag name f on) := by
  refine respects_steps ?_
  simp only [List.mem_cons, List.not_mem_nil, or_false, forall_eq_or_imp, forall_eq]
  exact ⟨h.requireReady, h.requireBool _ _,
    respects_assign fun s t hr => by simp only [h.mode hr]; exact h.setMode _ hr, h.commandOf fun s t hr => h.mode hr⟩

theorem scroll (h : Blind R) (right : Byte) : Respects R (scroll right) :=
  respects_steps (by simp [h.requireReady, h.requireBool, h.command])

theorem writeAll (h : Blind R) (ps : List Byte) : Respects R (writeAll ps) := by
  induction ps with
  | nil => exact fun s t hr => hr
  | cons p ps ih => exact fun s t hr => (h.writeData p s t hr).andThen ih

theorem printAll (h : Blind R) (cs : List Byte) : Respects R (printAll cs) := by
  induction cs with
  | nil => exact fun s t hr => hr
  | cons c cs ih => exact fun s t hr => (respects_steps (by simp [h.writeData, h.delay]) s t hr).andThen ih

theorem loadGlyph (h : Blind R) (slot : Byte) (ps : List Byte) : Respects R (loadGlyph slot ps) :=
  respects_steps (by simp [h.requireReady, h.command, h.writeAll])

theorem print (h : Blind R) (cs : List Byte) : Respects R (print cs) :=
  respects_steps (by simp [h.requireReady, h.requireClosed, h.printAll])

theorem backlight (h : Blind R) (on : Byte) : Respects R (backlight on) :=
  respects_steps (by simp [h.requireReady, h.setBacklight])

end Blind

/-! ## The three relations -/

/-- The states differ in the acknowledge bits alone. -/
def SameButAcks (s t : State) : Prop := ∃ bit coming, t = s.withAcks bit coming

theorem blind_acks : Blind SameButAcks := by
  constructor <;> intros <;> rename_i h <;> obtain ⟨bit, coming, rfl⟩ := h
  all_goals first | rfl | exact ⟨_, _, rfl⟩

/-- The states differ in `SPEED`, `BITRATE`, `PRESCALE` and `COLS` alone. -/
def SameButUnread (s t : State) : Prop := ∃ sp br pr co, t = s.withUnread sp br pr co

theorem blind_unread : Blind SameButUnread := by
  constructor <;> intros <;> rename_i h <;> obtain ⟨sp, br, pr, co, rfl⟩ := h
  all_goals first | rfl | exact ⟨_, _, _, _, rfl⟩

/-- The states differ in `CP` and in the name of the command that executes alone. -/
def SameButName (s t : State) : Prop :=
  ∃ cp i j k, s.useq = .executing i k ∧ t = { s with cp := cp, useq := .executing j k }

theorem blind_name : Blind SameButName := by
  constructor <;> intros <;> rename_i h <;> obtain ⟨cp, i, j, k, hu, rfl⟩ := h
  all_goals first | rfl | skip
  all_goals first
    | exact ⟨cp, i, j, k, hu, rfl⟩
    | exact ⟨cp, i, j, k + 1, by simp [hu, USeq.advance], rfl⟩

theorem sameButName_begin (i j : Instr) (s : State) : SameButName (s.begin i) (s.begin j) := ⟨s.cp, i, j, 0, rfl, rfl⟩

theorem SameButName.complete {s t : State} (h : SameButName s t) (hc : s.cp = t.cp) : s.complete = t.complete := by
  obtain ⟨cp, i, j, k, hu, rfl⟩ := h
  obtain rfl : s.cp = cp := hc
  rfl

end Sys2Proof.Machine
end

