-- ==== Sys2Proof/Laws/Engine.lean ====
section
/-! SUPPORT. What holds of the bus registers inside a command: `Running` between its primitives, `Halted` where a wait
never ends (R27, R28, R31, R32, R125, R126). Every body keeps `Running` and gets stuck in `Halted`. -/

namespace Sys2Proof.Machine

/-- Before CONFIGURE the bus configuration is at its reset values and the trace holds delays only. -/
def Untouched (s : State) : Prop :=
  s.busEn = false → (s.addr = 0 ∧ s.speed = 0 ∧ s.bitrate = 0 ∧ s.prescale = 0) ∧ ∀ e ∈ s.trace, ∃ n, e = .delay n

/-- The bus registers wherever a command has no wait pending or has one that never ends. -/
structure Framed (s : State) : Prop where
  framed : framing s.trace = some s.txn
  txn_enabled : s.txn = true → s.busEn = true
  stop_enabled : s.stopPend = true → s.busEn = true ∧ s.txn = false
  untouched : Untouched s

/-- Between the primitives of a command: the completion flag tells whether a transaction is open. -/
structure Running (s : State) : Prop where
  base : Framed s
  done : s.done = s.txn

/-- At a wait that never ends the completion flag is clear. -/
structure Halted (s : State) : Prop where
  base : Framed s
  done : s.done = false

theorem framing_push {t : List Event} {o : Option Bool} (h : framing t = o) (e : Event) :
    framing (t ++ [e]) = Event.frame o e := by rw [framing_snoc, h]

/-- The bus part depends on the bus registers alone. -/
theorem Framed.congr {s t : State} (h : Framed s) (h1 : t.trace = s.trace) (h2 : t.txn = s.txn)
    (h3 : t.stopPend = s.stopPend) (h4 : SameBusConfig s t) : Framed t := by
  obtain ⟨a1, a2, a3, a4, a5⟩ := h4
  obtain ⟨f1, f2, f3, f4⟩ := h
  exact ⟨by rw [h1, h2, f1], by rw [h2, a5]; exact f2, by rw [h3, a5, h2]; exact f3,
    by simpa [Untouched, a1, a2, a3, a4, a5, h1] using f4⟩

theorem Framed.halted {s t : State} (h : Framed s) (h1 : t.trace = s.trace) (h2 : t.txn = s.txn)
    (h3 : t.stopPend = s.stopPend) (h4 : SameBusConfig s t) (h5 : t.done = false) : Halted t :=
  ⟨h.congr h1 h2 h3 h4, h5⟩

/-- Any body that keeps `Running` and gets stuck in `Halted`. -/
def KeepsEngine (f : State → Flow) : Prop := Triple Running f Running Halted

theorem keepsEngine_start : KeepsEngine start := by
  refine triple_start ?_ ?_ ?_
  · rintro s ⟨⟨h1, h2, h3, h4⟩, h5⟩ ht he
    refine ⟨⟨?_, ?_, ?_, ?_⟩, ?_⟩
    · simpa using (framing_push h1 .start).trans (by simp [ht, Event.frame])
    · simp [he]
    · simp
    · simp [Untouched, he]
    · simp
  · rintro s ⟨h, h5⟩ - -
    exact h.halted (by simp) (by simp) (by simp) (by simp [SameBusConfig]) (by simp)
  · rintro s ⟨h, h5⟩ - -
    exact h.halted (by simp) (by simp) (by simp) (by simp [SameBusConfig]) (by simp)

theorem keepsEngine_writeByte (b : Byte) : KeepsEngine (writeByte b) := by
  refine triple_writeByte ?_ ?_ ?_
  · rintro s ⟨⟨h1, h2, h3, h4⟩, h5⟩ ht he
    refine ⟨⟨?_, ?_, ?_, ?_⟩, ?_⟩
    · simpa [ht] using (framing_push h1 (.write b)).trans (by simp [ht, Event.frame])
    · simp [he]
    · simpa using h3
    · simp [Untouched, he]
    · simp [ht]
  · rintro s ⟨h, h5⟩ - -
    exact h.halted (by simp) (by simp) (by simp) (by simp [SameBusConfig]) (by simp)
  · rintro s ⟨h, h5⟩ - -
    exact h.halted (by simp) (by simp) (by simp) (by simp [SameBusConfig]) (by simp)

theorem keepsEngine_stop : KeepsEngine stop := by
  refine triple_stop ?_
  rintro s ⟨⟨h1, h2, h3, h4⟩, h5⟩ ht
  refine ⟨⟨?_, ?_, ?_, ?_⟩, ?_⟩
  · simpa using (framing_push h1 .stop).trans (by simp [ht, Event.frame])
  · simp
  · simp [h2 ht]
  · simp [Untouched, h2 ht]
  · simp

theorem keepsEngine_readByte : KeepsEngine readByte := by
  refine triple_readByte ?_ ?_ ?_
  · rintro s ⟨⟨h1, h2, h3, h4⟩, h5⟩ ht he
    refine ⟨⟨?_, ?_, ?_, ?_⟩, ?_⟩
    · simpa [ht] using (framing_push h1 (.read (s.bytes.head Config.readByte))).trans (by simp [ht, Event.frame])
    · simp [he]
    · simpa using h3
    · simp [Untouched, he]
    · simp [ht]
  · rintro s ⟨h, h5⟩ - -
    exact h.halted (by simp) (by simp) (by simp) (by simp [SameBusConfig]) (by simp)
  · rintro s ⟨h, h5⟩ - -
    exact h.halted (by simp) (by simp) (by simp) (by simp [SameBusConfig]) (by simp)

/-- The engine finishing a pending stop. -/
theorem Framed.engine {s : State} (h : Framed s) : Framed (engine s) := by
  obtain ⟨h1, h2, h3, h4⟩ := h
  refine ⟨by simpa using h1, by simpa using h2, ?_, by simpa [Untouched] using h4⟩
  simp only [engine_fields, Bool.and_eq_true, Bool.not_eq_true', and_imp]
  exact fun hs _ => h3 hs

theorem keepsEngine_delay (n : Nat) : KeepsEngine (delayUs n) := by
  rintro s ⟨h, h5⟩
  obtain ⟨h1, h2, h3, h4⟩ := h.engine
  refine ⟨⟨?_, by simpa using h2, by simpa using h3, ?_⟩, by simpa using h5⟩
  · have := framing_push h1 (.delay n)
    simp only [engine_fields] at this
    have hd : Event.frame (some s.txn) (.delay n) = some s.txn := by cases s.txn <;> rfl
    simpa using this.trans hd
  · intro he
    simp only [emit_fields, engine_fields] at he
    obtain ⟨hz, hd⟩ := h4 (by simpa using he)
    refine ⟨by simpa using hz, fun e hm => ?_⟩
    simp only [emit_fields, engine_fields, List.mem_append, List.mem_singleton] at hm
    obtain hm | rfl := hm
    · exact hd e (by simpa using hm)
    · exact ⟨n, rfl⟩

theorem keepsEngine_require (ok : State → Bool) (r : Refusal) : KeepsEngine (require ok r) := fun s hs =>
  (triple_require (P := Running) (S := Halted) ok r s hs).mono (fun _ h => h.1) (fun _ h => h)

/-- A register write of the upper layers. -/
theorem keepsEngine_assign {f : State → State} (h : ∀ s, SameBus s (f s)) : KeepsEngine (assign f) := by
  rintro s ⟨hb, hd⟩
  have k := h s
  exact ⟨hb.congr k.trace k.txn k.stopPend k.config, by rw [k.done, k.txn, hd]⟩

theorem keepsEngine_steps {fs : List (State → Flow)} (h : ∀ f ∈ fs, KeepsEngine f) : KeepsEngine (steps fs) :=
  triple_steps h

theorem keepsEngine_sendNibble (x : Byte) : KeepsEngine (sendNibble x) := fun s =>
  keepsEngine_steps (by simp [keepsEngine_start, keepsEngine_writeByte, keepsEngine_stop]) s

theorem keepsEngine_pulseLatch (x : Byte) : KeepsEngine (pulseLatch x) :=
  keepsEngine_steps (by simp [keepsEngine_sendNibble, keepsEngine_delay])

theorem keepsEngine_sendByte (v m : Byte) : KeepsEngine (sendByte v m) :=
  keepsEngine_steps (by simp [keepsEngine_sendNibble, keepsEngine_pulseLatch])

theorem keepsEngine_command (b : Byte) : KeepsEngine (command b) := keepsEngine_sendByte b 0x00

theorem keepsEngine_writeData (b : Byte) : KeepsEngine (writeData b) := keepsEngine_sendByte b Config.bitRS

theorem keepsEngine_nibbleTransfer (x : Byte) : KeepsEngine (nibbleTransfer x) :=
  keepsEngine_steps (by simp [keepsEngine_sendNibble, keepsEngine_pulseLatch])

theorem keepsEngine_setBacklight (on : Byte) : KeepsEngine (setBacklight on) :=
  keepsEngine_steps (by
    simp [keepsEngine_require, keepsEngine_sendNibble, keepsEngine_assign (fun s => sameBus_setBl _ s)])

theorem keepsEngine_requireReady : KeepsEngine requireReady := keepsEngine_require _ _

theorem keepsEngine_requireClosed : KeepsEngine requireClosed := keepsEngine_require _ _

theorem keepsEngine_requireBool (name : String) (v : Byte) : KeepsEngine (requireBool name v) :=
  keepsEngine_require _ _

theorem keepsEngine_clearBody : KeepsEngine clearBody :=
  keepsEngine_steps (by simp [keepsEngine_command, keepsEngine_delay])

theorem keepsEngine_homeBody : KeepsEngine homeBody :=
  keepsEngine_steps (by simp [keepsEngine_command, keepsEngine_delay])

theorem keepsEngine_handshake : KeepsEngine handshake :=
  keepsEngine_steps (by simp [keepsEngine_delay, keepsEngine_setBacklight, keepsEngine_nibbleTransfer])

/-- A body that reads a register to know what to send. -/
theorem keepsEngine_commandOf (v : State → Byte) : KeepsEngine fun s => command (v s) s := fun s =>
  keepsEngine_command (v s) s

theorem keepsEngine_initialize4Bit (rows cols font : Byte) : KeepsEngine (initialize4Bit rows cols font) := by
  refine keepsEngine_steps ?_
  simp only [List.mem_cons, List.not_mem_nil, or_false, forall_eq_or_imp, forall_eq]
  refine ⟨keepsEngine_require _ _, keepsEngine_requireBool _ _, keepsEngine_assign fun s => ?_, keepsEngine_handshake,
    keepsEngine_assign fun s => ?_, keepsEngine_commandOf _, keepsEngine_assign fun s => sameBus_setCtrl _ s,
    keepsEngine_commandOf _, keepsEngine_clearBody, keepsEngine_assign fun s => sameBus_setMode _ s,
    keepsEngine_commandOf _, keepsEngine_homeBody, keepsEngine_assign fun s => ?_⟩
  all_goals constructor <;> simp [SameBusConfig, SameInputs]

theorem keepsEngine_setCursor (col row : Byte) : KeepsEngine (setCursor col row) := by
  refine keepsEngine_steps ?_
  simp only [List.mem_cons, List.not_mem_nil, or_false, forall_eq_or_imp, forall_eq]
  exact ⟨keepsEngine_requireReady, keepsEngine_commandOf _⟩

theorem keepsEngine_controlFlag (f on : Byte) : KeepsEngine (controlFlag f on) := by
  refine keepsEngine_steps ?_
  simp only [List.mem_cons, List.not_mem_nil, or_false, forall_eq_or_imp, forall_eq]
  exact ⟨keepsEngine_requireReady, keepsEngine_requireBool _ _, keepsEngine_assign fun s => sameBus_setCtrl _ s,
    keepsEngine_commandOf _⟩

theorem keepsEngine_modeFlag (name : String) (f on : Byte) : KeepsEngine (modeFlag name f on) := by
  refine keepsEngine_steps ?_
  simp only [List.mem_cons, List.not_mem_nil, or_false, forall_eq_or_imp, forall_eq]
  exact ⟨keepsEngine_requireReady, keepsEngine_requireBool _ _, keepsEngine_assign fun s => sameBus_setMode _ s,
    keepsEngine_commandOf _⟩

theorem keepsEngine_writeAll (ps : List Byte) : KeepsEngine (writeAll ps) := by
  induction ps with
  | nil => exact fun s hs => hs
  | cons p ps ih => exact fun s hs => (keepsEngine_writeData p s hs).andThen ih

theorem keepsEngine_printAll (cs : List Byte) : KeepsEngine (printAll cs) := by
  induction cs with
  | nil => exact fun s hs => hs
  | cons c cs ih =>
    exact fun s hs => (keepsEngine_steps (by simp [keepsEngine_writeData, keepsEngine_delay]) s hs).andThen ih

theorem keepsEngine_configure (addr speed : Byte) : KeepsEngine (configure addr speed) := by
  rintro s ⟨⟨h1, h2, h3, h4⟩, h5⟩
  cases ha : badAddr addr with
  | true => rw [configure_badAddr ha]; trivial
  | false =>
    cases he : s.busEn with
    | true => rw [configure_again ha he]; trivial
    | false =>
      have ht : s.txn = false := by
        cases ht : s.txn with
        | false => rfl
        | true => exact absurd (h2 ht) (by simp [he])
      rw [configure_ends ha he]
      refine ⟨⟨by simpa using h1, by simp, fun hs => ?_, by simp [Untouched]⟩, by simp [ht]⟩
      exact absurd (h3 (by simpa using hs)).1 (by simp [he])

/-- Every command's body. -/
theorem keepsEngine_bodyOf (i : Instr) : KeepsEngine (bodyOf i) := by
  cases i with
  | configure addr speed => exact keepsEngine_configure addr speed
  | start => exact keepsEngine_start
  | wbyte b => exact keepsEngine_writeByte b
  | stop => exact keepsEngine_stop
  | rbyte => exact keepsEngine_readByte
  | sendNibble x => exact keepsEngine_sendNibble x
  | pulseLatch x => exact keepsEngine_pulseLatch x
  | sendByte v m => exact keepsEngine_sendByte v m
  | setBacklight on => exact keepsEngine_setBacklight on
  | init rows cols font => exact keepsEngine_initialize4Bit rows cols font
  | clear => exact keepsEngine_steps (by simp [keepsEngine_requireReady, keepsEngine_clearBody])
  | home => exact keepsEngine_steps (by simp [keepsEngine_requireReady, keepsEngine_homeBody])
  | setCursor col row => exact keepsEngine_setCursor col row
  | display on => exact keepsEngine_controlFlag _ on
  | cursor on => exact keepsEngine_controlFlag _ on
  | blink on => exact keepsEngine_controlFlag _ on
  | entryDir ltr => exact keepsEngine_modeFlag _ _ ltr
  | autoscroll on => exact keepsEngine_modeFlag _ _ on
  | scroll right =>
    exact keepsEngine_steps (by simp [keepsEngine_requireReady, keepsEngine_requireBool, keepsEngine_command])
  | loadGlyph slot p0 p1 p2 p3 p4 p5 p6 p7 =>
    exact keepsEngine_steps (by simp [keepsEngine_requireReady, keepsEngine_command, keepsEngine_writeAll])
  | print cs =>
    exact keepsEngine_steps (by simp [keepsEngine_requireReady, keepsEngine_requireClosed, keepsEngine_printAll])
  | backlight on => exact keepsEngine_steps (by simp [keepsEngine_requireReady, keepsEngine_setBacklight])

/-! ## The micro-sequencer inside a command (R23) -/

/-- Command `c` is executing. -/
def Named (c : Instr) (s : State) : Prop := ∃ k, s.useq = .executing c k

theorem Named.of_busOnly {c : Instr} {s t : State} (hs : Named c s) (h : BusOnly s t) : Named c t :=
  let ⟨_, hk⟩ := hs
  h.named hk

theorem TouchesBusOnly.named {f : State → Flow} (h : TouchesBusOnly f) (c : Instr) :
    Triple (Named c) f (Named c) (Named c) :=
  h.keeps fun _ _ hb hs => hs.of_busOnly hb

/-- No body changes which command executes or makes the sequencer idle: that is the completion's. -/
theorem named_bodyOf (c i : Instr) : Triple (Named c) (bodyOf i) (Named c) (Named c) := by
  intro s hs
  have set : ∀ {f : State → State}, (∀ s, SameBus s (f s)) → ∀ {t}, BusOnly (f s) t → Named c t := fun hf _ h =>
    Named.of_busOnly (by simpa [Named, (hf s).useq] using hs) h
  cases i with
  | configure addr speed =>
    simp only [bodyOf]
    cases ha : badAddr addr with
    | true => rw [configure_badAddr ha]; trivial
    | false =>
      cases he : s.busEn with
      | true => rw [configure_again ha he]; trivial
      | false => rw [configure_ends ha he]; simpa [Flow.Holds, Named] using hs
  | start => exact touchesBusOnly_start.named c s hs
  | wbyte b => exact (touchesBusOnly_writeByte b).named c s hs
  | stop => exact touchesBusOnly_stop.named c s hs
  | rbyte =>
    refine triple_readByte (P := Named c) ?_ ?_ ?_ s hs
    all_goals rintro s ⟨k, hk⟩ - -
    · exact ⟨k + 1, by simp [hk, USeq.advance]⟩
    · exact ⟨k, by simp [hk]⟩
    · exact ⟨k, by simp [hk]⟩
  | sendNibble x => exact (touchesBusOnly_sendNibble x).named c s hs
  | pulseLatch x => exact (touchesBusOnly_pulseLatch x).named c s hs
  | sendByte v m => exact (touchesBusOnly_sendByte v m).named c s hs
  | setBacklight on => exact (setBacklight_holds on s).mono (fun _ => set (sameBus_setBl _)) (fun _ => set (sameBus_setBl _))
  | init rows cols font =>
    simp only [bodyOf]
    by_cases h : badRows rows = false ∧ badBool font = false
    · rw [initialize4Bit_legal cols h.1 h.2]
      refine triple_initSends (P := Named c) (fun _ _ hb hs => hs.of_busOnly hb) (fun _ h => h) ?_ ?_ ?_ ?_ ?_ ?_ s hs
      all_goals intro s hs; simpa [Named] using hs
    · obtain ⟨r, hr⟩ : ∃ r, initialize4Bit rows cols font s = .refused r := by
        by_contra hn
        exact h (initialize4Bit_operands fun r hr => hn ⟨r, hr⟩)
      rw [hr]; trivial
  | clear => exact touchesBusOnly_clear.named c s hs
  | home => exact touchesBusOnly_home.named c s hs
  | setCursor col row => exact (touchesBusOnly_setCursor col row).named c s hs
  | display on => exact (controlFlag_holds _ on s).mono (fun _ => set (sameBus_setCtrl _)) (fun _ => set (sameBus_setCtrl _))
  | cursor on => exact (controlFlag_holds _ on s).mono (fun _ => set (sameBus_setCtrl _)) (fun _ => set (sameBus_setCtrl _))
  | blink on => exact (controlFlag_holds _ on s).mono (fun _ => set (sameBus_setCtrl _)) (fun _ => set (sameBus_setCtrl _))
  | entryDir ltr => exact (modeFlag_holds _ _ ltr s).mono (fun _ => set (sameBus_setMode _)) (fun _ => set (sameBus_setMode _))
  | autoscroll on => exact (modeFlag_holds _ _ on s).mono (fun _ => set (sameBus_setMode _)) (fun _ => set (sameBus_setMode _))
  | scroll right => exact (touchesBusOnly_scroll right).named c s hs
  | loadGlyph slot p0 p1 p2 p3 p4 p5 p6 p7 => exact (touchesBusOnly_loadGlyph slot _).named c s hs
  | print cs => exact (touchesBusOnly_print cs).named c s hs
  | backlight on => exact (backlight_holds on s).mono (fun _ => set (sameBus_setBl _)) (fun _ => set (sameBus_setBl _))

/-- A command completes between primitives with the sequencer idle, or is stuck at a wait with the sequencer in it. -/
theorem exec_running {i : Instr} {s t : State} (hr : Running s) (h : exec i s = .next t) :
    (Running t ∧ t.useq = .idle) ∨ (Halted t ∧ Named i t) := by
  rw [exec_eq_perform] at h
  have hr' : Running (s.begin i) :=
    ⟨hr.base.congr (by simp) (by simp) (by simp) (by simp [SameBusConfig]), by simpa using hr.done⟩
  have hk := keepsEngine_bodyOf i _ hr'
  have hn := named_bodyOf i i (s.begin i) ⟨0, by simp⟩
  obtain ⟨u, hu, rfl⟩ | hu := perform_next h <;> rw [hu] at hk hn
  · exact .inl ⟨⟨hk.base.congr (by simp) (by simp) (by simp) (by simp [SameBusConfig]), by simpa using hk.done⟩, by simp⟩
  · exact .inr ⟨hk, hn⟩

end Sys2Proof.Machine
end

