-- ==== Sys2Proof/Laws/PerInstr.lean ====
section
/-! SUPPORT. Statements about every command as syntax, one lemma a constructor (LAWS.json). The family `Layer` says what
rule R93 says of the opcode byte: its bits 7:4 are the layer, 0 for BusDriver, 1 for ExpanderFramer, 2 for
DisplayController. -/

namespace Sys2Proof.Laws.Layer

/-- The layer of a command (R1, R92). -/
def layerOf : Instr → Nat
  | .configure _ _ | .start | .wbyte _ | .stop | .rbyte => 0
  | .sendNibble _ | .pulseLatch _ | .sendByte _ _ | .setBacklight _ => 1
  | .init _ _ _ | .clear | .home | .setCursor _ _ | .display _ | .cursor _ | .blink _ | .entryDir _
  | .autoscroll _ | .scroll _ | .loadGlyph _ _ _ _ _ _ _ _ _ | .print _ | .backlight _ => 2

/-- Bits 7:4 of the opcode byte are the layer (R93), and a well-formed command has an encoding (R94). -/
def Statement (i : Instr) : Prop :=
  (opcode i).toNat / 16 = layerOf i ∧ (i.wellFormed = true → i.encodable = true)

theorem configure (addr speed : Byte) : Statement (.configure addr speed) := ⟨by simp [opcode, layerOf], fun _ => rfl⟩
theorem start : Statement .start := ⟨by simp [opcode, layerOf], fun _ => rfl⟩
theorem wbyte (b : Byte) : Statement (.wbyte b) := ⟨by simp [opcode, layerOf], fun _ => rfl⟩
theorem stop : Statement .stop := ⟨by simp [opcode, layerOf], fun _ => rfl⟩
theorem rbyte : Statement .rbyte := ⟨by simp [opcode, layerOf], fun _ => rfl⟩
theorem sendNibble (x : Byte) : Statement (.sendNibble x) := ⟨by simp [opcode, layerOf], fun _ => rfl⟩
theorem pulseLatch (x : Byte) : Statement (.pulseLatch x) := ⟨by simp [opcode, layerOf], fun _ => rfl⟩
theorem sendByte (v m : Byte) : Statement (.sendByte v m) := ⟨by simp [opcode, layerOf], fun _ => rfl⟩
theorem setBacklight (on : Byte) : Statement (.setBacklight on) := ⟨by simp [opcode, layerOf], fun _ => rfl⟩
theorem init (rows cols font : Byte) : Statement (.init rows cols font) := ⟨by simp [opcode, layerOf], fun _ => rfl⟩
theorem clear : Statement .clear := ⟨by simp [opcode, layerOf], fun _ => rfl⟩
theorem home : Statement .home := ⟨by simp [opcode, layerOf], fun _ => rfl⟩
theorem setCursor (col row : Byte) : Statement (.setCursor col row) := ⟨by simp [opcode, layerOf], fun _ => rfl⟩
theorem display (on : Byte) : Statement (.display on) := ⟨by simp [opcode, layerOf], fun _ => rfl⟩
theorem cursor (on : Byte) : Statement (.cursor on) := ⟨by simp [opcode, layerOf], fun _ => rfl⟩
theorem blink (on : Byte) : Statement (.blink on) := ⟨by simp [opcode, layerOf], fun _ => rfl⟩
theorem entryDir (ltr : Byte) : Statement (.entryDir ltr) := ⟨by simp [opcode, layerOf], fun _ => rfl⟩
theorem autoscroll (on : Byte) : Statement (.autoscroll on) := ⟨by simp [opcode, layerOf], fun _ => rfl⟩
theorem scroll (right : Byte) : Statement (.scroll right) := ⟨by simp [opcode, layerOf], fun _ => rfl⟩
theorem loadGlyph (slot p0 p1 p2 p3 p4 p5 p6 p7 : Byte) :
    Statement (.loadGlyph slot p0 p1 p2 p3 p4 p5 p6 p7) := ⟨by simp [opcode, layerOf], fun _ => rfl⟩
theorem print (cs : List Byte) : Statement (.print cs) := ⟨by simp [opcode, layerOf], fun h => h⟩
theorem backlight (on : Byte) : Statement (.backlight on) := ⟨by simp [opcode, layerOf], fun _ => rfl⟩

end Sys2Proof.Laws.Layer
end

