-- ==== Sys2Proof/Tests/Slice0.lean ====
section
/-! SUPPORT. The model's own tests. Expected values are written out from the spec: words from R92 and R93, traces and
register values from spec/95_test_vectors.md, whose section each group names. The last part gives, for each obligation
that has hypotheses, a concrete state and operands that meet them (`meets_<obligation>`). -/

namespace Sys2Proof.Tests

open Sys2Proof Sys2Proof.Machine

/-! ## Helpers -/

/-- `n` waits that end, and nothing known of those after. -/
def endless (n : Nat) : Feed Bool := ⟨List.replicate n true, 0⟩

/-- After `CONFIGURE 0x27, 0x00` from reset, with `n` waits that end (spec/95_test_vectors.md section 2.2). -/
def configured27 (n : Nat) : State := { State.reset with cp := 1, addr := 0x27, busEn := true, waits := endless n }

/-- `READY27` (spec/95_test_vectors.md section 0), with `n` waits that end. -/
def ready27 (n : Nat) : State :=
  { State.reset with addr := 0x27, busEn := true, bl := true, rows := 2, cols := 16, func := 0x28, ctrl := 0x0C,
                     mode := 0x06, phase := .ready, waits := endless n }

/-- `READY27` inside a transaction that a START has opened. -/
def open27 (n : Nat) : State := { ready27 n with txn := true, done := true, trace := [.start] }

/-- What a next state holds; none for a fault or a refusal. -/
def after {α : Type} (o : Host.Outcome State Fault Refusal) (f : State → α) : Option α :=
  match o with
  | .next t => some (f t)
  | .fault _ => none
  | .refused _ => none

/-- The reason of a refusal; none for another outcome. -/
def refusalOf (o : Host.Outcome State Fault Refusal) : Option Refusal :=
  match o with
  | .next _ => none
  | .fault _ => none
  | .refused r => some r

/-- The second bytes of the transactions to 0x27: the vectors' "data bytes". -/
def dataBytes (t : State) : List Byte := targetBytes 0x4E .closed t.trace

/-- The logical bytes latched: the vectors' "latched". -/
def latchedBytes (t : State) : List (Bool × Byte) := logicalBytes 0x27 t.trace

/-! ## WellFormed: each check refuses an ill-formed term (R94) -/

theorem test_wf_addr : (Instr.configure 0x80 0x00).wellFormed = false ∧ (Instr.configure 0x7F 0xFF).wellFormed = true := by
  decide
theorem test_wf_setBacklight : (Instr.setBacklight 0x02).wellFormed = false := by decide
theorem test_wf_init_rows :
    (Instr.init 0 16 0).wellFormed = false ∧ (Instr.init 5 16 0).wellFormed = false ∧
      (Instr.init 4 255 1).wellFormed = true := by decide
theorem test_wf_init_font : (Instr.init 2 16 2).wellFormed = false := by decide
theorem test_wf_display : (Instr.display 0xFF).wellFormed = false := by decide
theorem test_wf_cursor : (Instr.cursor 2).wellFormed = false := by decide
theorem test_wf_blink : (Instr.blink 2).wellFormed = false := by decide
theorem test_wf_entryDir : (Instr.entryDir 9).wellFormed = false := by decide
theorem test_wf_autoscroll : (Instr.autoscroll 2).wellFormed = false := by decide
theorem test_wf_scroll : (Instr.scroll 2).wellFormed = false := by decide
theorem test_wf_backlight : (Instr.backlight 2).wellFormed = false := by decide
theorem test_wf_print :
    (Instr.print (List.replicate 256 0x41)).wellFormed = false ∧
      (Instr.print (List.replicate 256 0x41)).encodable = false ∧
      (Instr.print (List.replicate 255 0x41)).wellFormed = true := by decide +kernel

/-! ## Decoding: the bytes of each command, from R92 and R93 -/

theorem test_decode_configure : decode [0x01, 0x27, 0x05] = .command (.configure 0x27 0x05) [] := by decide
theorem test_decode_start : decode [0x02] = .command .start [] := by decide
theorem test_decode_wbyte : decode [0x03, 0x4E] = .command (.wbyte 0x4E) [] := by decide
theorem test_decode_stop : decode [0x04] = .command .stop [] := by decide
theorem test_decode_rbyte : decode [0x05, 0x04] = .command .rbyte [0x04] := by decide
theorem test_decode_sendNibble : decode [0x11, 0x30] = .command (.sendNibble 0x30) [] := by decide
theorem test_decode_pulseLatch : decode [0x12, 0x34] = .command (.pulseLatch 0x34) [] := by decide
theorem test_decode_sendByte : decode [0x13, 0x48, 0x01] = .command (.sendByte 0x48 0x01) [] := by decide
theorem test_decode_setBacklight : decode [0x14, 0x01] = .command (.setBacklight 1) [] := by decide
theorem test_decode_init : decode [0x20, 0x04, 0x14, 0x01] = .command (.init 4 20 1) [] := by decide
theorem test_decode_clear : decode [0x21] = .command .clear [] := by decide
theorem test_decode_home : decode [0x22] = .command .home [] := by decide
theorem test_decode_setCursor : decode [0x23, 0x05, 0x01] = .command (.setCursor 5 1) [] := by decide
theorem test_decode_display : decode [0x24, 0x00] = .command (.display 0) [] := by decide
theorem test_decode_cursor : decode [0x25, 0x01] = .command (.cursor 1) [] := by decide
theorem test_decode_blink : decode [0x26, 0x01] = .command (.blink 1) [] := by decide
theorem test_decode_entryDir : decode [0x27, 0x00] = .command (.entryDir 0) [] := by decide
theorem test_decode_autoscroll : decode [0x28, 0x01] = .command (.autoscroll 1) [] := by decide
theorem test_decode_scroll : decode [0x29, 0x01] = .command (.scroll 1) [] := by decide
theorem test_decode_loadGlyph :
    decode [0x2A, 0x09, 1, 2, 3, 4, 5, 6, 7, 8] = .command (.loadGlyph 9 1 2 3 4 5 6 7 8) [] := by decide
theorem test_decode_print : decode [0x2B, 0x02, 0x48, 0x69, 0x21] = .command (.print [0x48, 0x69]) [0x21] := by decide
theorem test_decode_backlight : decode [0x2C, 0x01] = .command (.backlight 1) [] := by decide
theorem test_decode_reserved : decode [0x10, 0x00] = .reserved 0x10 ∧ decode [0x00] = .reserved 0x00 := by decide
theorem test_decode_incomplete : decode [] = .incomplete ∧ decode [0x2A, 0, 0, 0] = .incomplete := by decide

/-! ## Table words: bit 0 is the least significant bit of the first byte -/

theorem test_tableWord_init : decodeTableWord 32 0x00100220 = some (.init 2 16 0) := by decide
theorem test_tableWord_setCursor : decodeTableWord 24 0x010523 = some (.setCursor 5 1) := by decide
theorem test_tableWord_print : decodeTableWord 8 0x2B = some (.print []) := by decide
theorem test_tableWord_reserved : decodeTableWord 8 0x06 = none := by decide
theorem test_fetchWord_runs_start :
    after (step ((State.reset).withFetchWord 8 0x02)) (fun t => t.useq) = some (.executing .start 0) := by decide

/-! ## BusDriver (spec/95_test_vectors.md section 2) -/

theorem test_configure_unsupported_speed :
    after (exec (.configure 0x27 0x05) State.reset) (fun t => (t.addr, t.speed, t.bitrate, t.busEn, t.cp))
      = some (0x27, 0x05, 0x00, true, 1) := by decide
theorem test_configure_twice :
    refusalOf (exec (.configure 0x3F 0x01) (configured27 0)) = some .busConfigImmutable ∧
      refusalOf (exec (.configure 0xA7 0x00) State.reset) = some (.reservedOperand "addr") := by decide
theorem test_start : after (exec .start (configured27 1)) (fun t => (t.trace, t.txn, t.done)) = some ([.start], true, true) := by
  decide
theorem test_start_unconfigured :
    after (exec .start State.reset) (fun t => (t.trace, t.done, t.busy, t.cp)) = some ([], false, true, 0) := by decide
theorem test_wbyte_not_acknowledged :
    after (exec (.wbyte 0xFF) { open27 1 with acks := ⟨[true], 0⟩ }) (fun t => (t.trace, t.ackRx, t.done, t.txn))
      = some ([.start, .write 0xFF], true, true, true) := by decide
theorem test_wbyte_outside : refusalOf (exec (.wbyte 0x12) (configured27 1)) = some .byteOutsideTransaction := by decide
theorem test_stop :
    after (exec .stop (open27 0)) (fun t => (t.trace, t.txn, t.done, t.stopPend))
      = some ([.start, .stop], false, false, true) := by decide
theorem test_rbyte :
    after (exec .rbyte { open27 1 with bytes := ⟨[0xA5], 0⟩ }) (fun t => (t.trace, t.data, t.resp, t.rspValid))
      = some ([.start, .read 0xA5], 0xA5, 0xA5, true) := by decide

/-! ## ExpanderFramer (spec/95_test_vectors.md section 3) -/

theorem test_sendNibble :
    after (exec (.sendNibble 0x20) { ready27 3 with addr := 0x3F }) (fun t => (t.trace, t.data, t.txn))
      = some ([.start, .write 0x7E, .write 0x28, .stop], 0x28, false) := by decide
theorem test_pulseLatch :
    after (exec (.pulseLatch 0x34) (ready27 6)) (fun t => t.trace)
      = some [.start, .write 0x4E, .write 0x3C, .stop, .delay 1, .start, .write 0x4E, .write 0x38, .stop, .delay 50] := by
  decide
theorem test_sendByte_high_nibble_first :
    after (exec (.sendByte 0xA5 0x00) { ready27 18 with bl := false }) (fun t => (dataBytes t, latchedBytes t))
      = some ([0xA0, 0xA4, 0xA0, 0x50, 0x54, 0x50], [(false, 0xA5)]) := by decide
theorem test_sendByte_mode_not_masked :
    after (exec (.sendByte 0x80 0x04) (ready27 18)) dataBytes = some [0x8C, 0x8C, 0x88, 0x0C, 0x0C, 0x08] := by
  decide
theorem test_setBacklight_unchanged_still_sent :
    after (exec (.setBacklight 1) (ready27 3)) (fun t => (t.bl, t.trace))
      = some (true, [.start, .write 0x4E, .write 0x08, .stop]) := by decide
theorem test_setBacklight_stuck_after_the_flag :
    after (exec (.setBacklight 1) State.reset) (fun t => (t.bl, t.trace, t.busy)) = some (true, [], true) := by decide

/-! ## INIT (spec/95_test_vectors.md section 4) -/

/-- The 43 data bytes of `INIT 2, 16, 0` as the vector lists them. -/
theorem test_init_data_bytes :
    after (exec (.init 2 16 0) (configured27 129)) (fun t => (dataBytes t, t.trace.length, t.phase))
      = some ([0x08, 0x38, 0x3C, 0x38, 0x38, 0x3C, 0x38, 0x38, 0x3C, 0x38, 0x28, 0x2C, 0x28,
               0x28, 0x2C, 0x28, 0x88, 0x8C, 0x88, 0x08, 0x0C, 0x08, 0xC8, 0xCC, 0xC8,
               0x08, 0x0C, 0x08, 0x18, 0x1C, 0x18, 0x08, 0x0C, 0x08, 0x68, 0x6C, 0x68,
               0x08, 0x0C, 0x08, 0x28, 0x2C, 0x28], 206, .ready) := by decide +kernel
/-- `INIT` before CONFIGURE: `D(40000)`, then stuck. -/
theorem test_init_unconfigured :
    after (exec (.init 2 16 0) State.reset) (fun t => (t.trace, t.rows, t.bl, t.phase, t.busy))
      = some ([.delay 40000], 2, true, .uninitialized, true) := by decide
theorem test_functionSet : functionSet 1 false = 0x20 ∧ functionSet 1 true = 0x24 ∧ functionSet 4 true = 0x28 := by decide

/-! ## DisplayController (spec/95_test_vectors.md section 5) -/

theorem test_clear :
    after (exec .clear (ready27 18)) (fun t => (dataBytes t, t.trace.getLast?))
      = some ([0x08, 0x0C, 0x08, 0x18, 0x1C, 0x18], some (.delay 2000)) := by decide
theorem test_home :
    after (exec .home { ready27 18 with bl := false }) (fun t => (dataBytes t, t.trace.length))
      = some ([0x00, 0x04, 0x00, 0x20, 0x24, 0x20], 29) := by decide
theorem test_setCursor_clamps :
    after (exec (.setCursor 19 2) (ready27 18)) latchedBytes = some [(false, 0xD3)] := by decide
theorem test_setCursor_wraps :
    after (exec (.setCursor 0xFF 3) { ready27 18 with rows := 4 }) latchedBytes = some [(false, 0xD3)] := by
  decide
theorem test_display :
    after (exec (.display 0) (ready27 18)) (fun t => (t.ctrl, latchedBytes t)) = some (0x08, [(false, 0x08)]) := by
  decide
theorem test_cursor :
    after (exec (.cursor 1) (ready27 18)) (fun t => (t.ctrl, latchedBytes t)) = some (0x0E, [(false, 0x0E)]) := by
  decide
/-- The environment never completes the 2nd transaction's data byte (section 6). -/
theorem test_cursor_stuck :
    after (exec (.cursor 1) { ready27 0 with waits := ⟨List.replicate 5 true ++ [false], 0⟩ })
        (fun t => (t.ctrl, t.trace, t.txn, t.busy))
      = some (0x0E, [.start, .write 0x4E, .write 0x08, .stop, .start, .write 0x4E], true, true) := by decide
theorem test_blink :
    after (exec (.blink 1) { ready27 18 with ctrl := 0x0E }) (fun t => (t.ctrl, latchedBytes t))
      = some (0x0F, [(false, 0x0F)]) := by decide
theorem test_entryDir :
    after (exec (.entryDir 0) (ready27 18)) (fun t => (t.mode, latchedBytes t)) = some (0x04, [(false, 0x04)]) := by
  decide
theorem test_autoscroll :
    after (exec (.autoscroll 1) (ready27 18)) (fun t => (t.mode, latchedBytes t)) = some (0x07, [(false, 0x07)]) := by
  decide
theorem test_scroll_right :
    after (exec (.scroll 1) (ready27 18)) (fun t => (dataBytes t, t.ctrl, t.mode))
      = some ([0x18, 0x1C, 0x18, 0xC8, 0xCC, 0xC8], 0x0C, 0x06) := by decide
theorem test_scroll_left :
    after (exec (.scroll 0) (ready27 18)) latchedBytes = some [(false, 0x18)] := by decide
theorem test_loadGlyph_slot_wraps :
    after (exec (.loadGlyph 9 0x00 0x0A 0x1F 0x1F 0x0E 0x04 0x00 0x00) (ready27 162))
        (fun t => (latchedBytes t, t.trace.length))
      = some ([(false, 0x48), (true, 0x00), (true, 0x0A), (true, 0x1F), (true, 0x1F), (true, 0x0E), (true, 0x04),
               (true, 0x00), (true, 0x00)], 252) := by decide +kernel
theorem test_print :
    after (exec (.print [0x48, 0x69]) (ready27 36)) (fun t =>
        (dataBytes t, pairNibbles (latched 0x4E t.trace), t.trace.length))
      = some ([0x49, 0x4D, 0x49, 0x89, 0x8D, 0x89, 0x69, 0x6D, 0x69, 0x99, 0x9D, 0x99],
              [(true, 0x48), (true, 0x69)], 58) := by decide
theorem test_print_empty_needs_init :
    refusalOf (exec (.print []) (configured27 0)) = some .displayNotInitialised := by decide
/-- R205's row for `TXN = 1` and R171 (a) for `TXN = 0`. -/
theorem test_print_empty :
    refusalOf (exec (.print []) (open27 0)) = some .startInOpenTransaction ∧
      after (exec (.print []) (ready27 0)) (fun t => (t.trace, t.cp, t.busy)) = some ([], 1, false) := by decide
theorem test_backlight :
    after (exec (.backlight 0) (ready27 3)) (fun t => (t.bl, t.trace))
      = some (false, [.start, .write 0x4E, .write 0x00, .stop]) := by decide
theorem test_backlight_reserved : refusalOf (exec (.backlight 2) (ready27 3)) = some (.reservedOperand "on") := by decide
theorem test_open_transaction : refusalOf (exec .clear (open27 18)) = some .startInOpenTransaction := by decide

/-- A lone nibble latched before INIT pairs with nothing, and the handshake's four nibbles belong to no logical byte
(R77): INIT's bytes are those of spec/95_test_vectors.md section 4. -/
theorem test_init_logicalBytes :
    logicalBytes 0x27 (pulseLatchEvents 0x27 true 0x30 ++ initEvents 0x27 2 false)
      = [(false, 0x28), (false, 0x0C), (false, 0x01), (false, 0x06), (false, 0x02)] := by decide +kernel

/-! ## Assembly (R97; programs of spec/95_test_vectors.md section 7) -/

theorem test_assemble_configure :
    assembleLine "CONFIGURE 0x27, 0x00        ; 01 27 00".toList = .command (.configure 0x27 0) := by decide
theorem test_assemble_print : assembleLine "PRINT \"Hi\"".toList = .command (.print [0x48, 0x69]) := by decide
theorem test_assemble_putc : assembleLine "PUTC 0x01".toList = .command (.print [0x01]) := by decide
theorem test_assemble_error : assembleLine "PUTC 256".toList = .error := by decide

/-! ## Hypotheses met -/

/-- The state `s` with the bus ready for `n` waits. -/
theorem ready27_ready (n : Nat) : BusReady (ready27 n) n :=
  ⟨rfl, rfl, by simpa [State.waitsEnd, ready27, endless] using allTrue_replicate Config.waitEnds n [] 0⟩

theorem meets_DecodeOfEncodeIsTheCommand :
    (Instr.init 4 20 1).encodable = true ∧ (Instr.print (List.replicate 255 0x41)).encodable = true := by decide +kernel
theorem meets_DecodedBytesAreTheEncoding : decode [0x2B, 0x01, 0x41, 0x21] = .command (.print [0x41]) [0x21] := by decide

/-- Reset with the bytes of `CONFIGURE 0x27, 0x00` and of `CLEAR` on the port, the first one taken already. -/
def presented : State := { State.reset with cmdBuf := [0x01], cmdIn := [0x27, 0x00, 0x21] }

theorem meets_StepRunsTheDecodedCommand :
    presented.rstN = true ∧ presented.useq = .idle ∧ (Instr.configure 0x27 0x00).encodable = true ∧
      presented.cmdBuf ++ presented.cmdIn = encode (.configure 0x27 0x00) ++ [0x21] := by decide
theorem meets_StepWaitsForAWholeCommand_incomplete :
    ({ State.reset with cmdIn := [0x01, 0x27] } : State).useq = .idle ∧
      decode (({ State.reset with cmdIn := [0x01, 0x27] } : State).cmdBuf ++ [0x01, 0x27]) = .incomplete := by decide
theorem meets_StepWaitsForAWholeCommand_reserved :
    ({ State.reset with cmdIn := [0x2D] } : State).rstN = true ∧ decode (State.reset.cmdBuf ++ [0x2D]) = .reserved 0x2D := by
  decide

/-- Stuck in START before CONFIGURE. -/
def stuckInStart : State := { State.reset with useq := .executing .start 0 }

theorem meets_StuckForEverUntilReset : stuckInStart.rstN = true ∧ stuckInStart.useq = .executing .start 0 := by decide

/-- Both sides of the table: CLEAR before INIT, which is refused, and CONFIGURE, which is not. -/
theorem meets_EveryStepGoesOnButForTheListedRefusals :
    decode (State.reset.cmdBuf ++ [0x21]) = .command .clear [] ∧ RefusedCase .clear State.reset ∧
      decode (presented.cmdBuf ++ presented.cmdIn) = .command (.configure 0x27 0x00) [0x21] ∧
      ¬ RefusedCase (.configure 0x27 0x00) presented :=
  ⟨by decide, .inr (.inr (.inr (.inr ⟨rfl, rfl⟩))), by decide, by
    rintro (h | ⟨-, h⟩ | ⟨-, h⟩ | ⟨⟨b, h⟩ | h | h, -⟩ | ⟨h, -⟩) <;> cases h⟩

theorem meets_ConfigureWritesTheBusConfig :
    0x80 ≤ (0x80 : Byte).toNat ∧ (0x7F : Byte).toNat < 0x80 ∧ (configured27 0).busEn = true ∧
      State.reset.busEn = false ∧ 2 ≤ (0x02 : Byte).toNat := by decide
theorem meets_StartOpensATransaction :
    (open27 0).txn = true ∧ (ready27 1).txn = false ∧ (ready27 1).busEn = true ∧ (ready27 1).waitsEnd 1 = true ∧
      State.reset.txn = false ∧ State.reset.busEn = false := by decide
/-- Outside and inside a transaction, with a wait that ends and with one that never does. -/
def neverEnding (k : Nat) (s : State) : State := { s with waits := ⟨List.replicate k true ++ [false], 0⟩ }

theorem meets_StartOpensATransaction_never :
    (neverEnding 0 (ready27 0)).txn = false ∧ (neverEnding 0 (ready27 0)).waitsEnd 1 = false := by decide
theorem meets_WbyteShiftsTheByteOut :
    (ready27 0).txn = false ∧ (open27 1).txn = true ∧ (open27 1).busEn = true ∧ (open27 1).waitsEnd 1 = true := by decide
theorem meets_WbyteShiftsTheByteOut_never :
    (neverEnding 0 (open27 0)).txn = true ∧ (neverEnding 0 (open27 0)).busEn = true ∧
      (neverEnding 0 (open27 0)).waitsEnd 1 = false := by decide
theorem meets_StopClosesWithoutWaiting : (ready27 0).txn = false ∧ (open27 0).txn = true := by decide
theorem meets_RbyteReturnsTheReceivedByte :
    (ready27 0).txn = false ∧ (open27 1).txn = true ∧ (open27 1).busEn = true ∧ (open27 1).waitsEnd 1 = true := by decide
theorem meets_RbyteReturnsTheReceivedByte_never :
    (neverEnding 0 (open27 0)).txn = true ∧ (neverEnding 0 (open27 0)).busEn = true ∧
      (neverEnding 0 (open27 0)).waitsEnd 1 = false := by decide

theorem meets_SendNibbleIsOneTransaction : (open27 0).txn = true ∧ BusReady (ready27 3) 3 := ⟨rfl, ready27_ready 3⟩
theorem meets_SendNibbleIsOneTransaction_first :
    (neverEnding 0 (ready27 0)).txn = false ∧ (neverEnding 0 (ready27 0)).busEn = true ∧
      (neverEnding 0 (ready27 0)).waitsEnd 1 = false := by decide
theorem meets_SendNibbleIsOneTransaction_second :
    (neverEnding 1 (ready27 0)).txn = false ∧ (neverEnding 1 (ready27 0)).busEn = true ∧
      (neverEnding 1 (ready27 0)).waitsEnd 1 = true ∧ (neverEnding 1 (ready27 0)).waitsEnd 2 = false := by decide
theorem meets_SendNibbleIsOneTransaction_third :
    (neverEnding 2 (ready27 0)).txn = false ∧ (neverEnding 2 (ready27 0)).busEn = true ∧
      (neverEnding 2 (ready27 0)).waitsEnd 2 = true ∧ (neverEnding 2 (ready27 0)).waitsEnd 3 = false := by decide
theorem meets_PulseLatchRaisesAndDropsEnable : BusReady (ready27 6) 6 := ready27_ready 6
theorem meets_SendByteSendsTwoNibbleTransfers : BusReady (ready27 18) 18 := ready27_ready 18
theorem meets_SetBacklightStoresAndSendsTheFlag :
    2 ≤ (0x02 : Byte).toNat ∧ (0x01 : Byte).toNat ≤ 1 ∧ (open27 0).txn = true ∧ BusReady (ready27 3) 3 ∧
      State.reset.txn = false ∧ State.reset.busEn = false :=
  ⟨by decide, by decide, rfl, ready27_ready 3, rfl, rfl⟩

theorem meets_InitRunsTheHandshakeAndBecomesReady :
    1 ≤ (4 : Byte).toNat ∧ (4 : Byte).toNat ≤ 4 ∧ (1 : Byte).toNat ≤ 1 ∧ BusReady (ready27 129) 129 :=
  ⟨by decide, by decide, by decide, ready27_ready 129⟩
theorem meets_ClearAndHomeSendAndWaitTwoMilliseconds : (ready27 18).phase = .ready ∧ BusReady (ready27 18) 18 :=
  ⟨rfl, ready27_ready 18⟩
theorem meets_SetCursorSendsTheClampedAddress :
    (ready27 18).phase = .ready ∧ 1 ≤ (ready27 18).rows.toNat ∧ (ready27 18).rows.toNat ≤ 4 ∧ BusReady (ready27 18) 18 :=
  ⟨rfl, by decide, by decide, ready27_ready 18⟩
theorem meets_ControlFlagsAreCachedAndSent :
    (1 : Byte).toNat ≤ 1 ∧ (ready27 18).phase = .ready ∧ BusReady (ready27 18) 18 := ⟨by decide, rfl, ready27_ready 18⟩
theorem meets_EntryModeFlagsAreCachedAndSent :
    (0 : Byte).toNat ≤ 1 ∧ (ready27 18).phase = .ready ∧ BusReady (ready27 18) 18 := ⟨by decide, rfl, ready27_ready 18⟩
theorem meets_ScrollSendsTheShiftCommand :
    (1 : Byte).toNat ≤ 1 ∧ (ready27 18).phase = .ready ∧ BusReady (ready27 18) 18 := ⟨by decide, rfl, ready27_ready 18⟩
theorem meets_LoadGlyphSendsAddressThenPattern : (ready27 162).phase = .ready ∧ BusReady (ready27 162) 162 :=
  ⟨rfl, ready27_ready 162⟩
theorem meets_PrintSendsEachCharacter :
    (ready27 36).phase = .ready ∧ BusReady (ready27 36) (18 * [(0x48 : Byte), 0x69].length) ∧
      (ready27 36).txn = false := ⟨rfl, ready27_ready 36, rfl⟩
theorem meets_BacklightIsSetBacklightInReady :
    (ready27 3).phase = .ready ∧ (1 : Byte).toNat ≤ 1 ∧ BusReady (ready27 3) 3 := ⟨rfl, by decide, ready27_ready 3⟩

theorem meets_ReservedOperandsAreRefused :
    (Instr.cursor 2).encodable = true ∧ (Instr.cursor 2).wellFormed = false ∧ (ready27 0).phase = .ready ∧
      (Instr.init 0 16 0).encodable = true ∧ (Instr.init 0 16 0).wellFormed = false ∧
      isPhaseChecked (.init 0 16 0) = false := by decide
theorem meets_DisplayCommandsNeedInit :
    isPhaseChecked (.print []) = true ∧ (configured27 0).phase = .uninitialized := by decide
theorem meets_OpenTransactionRefusesUpperCommands :
    isUpperCommand (.print []) = true ∧ (Instr.print []).wellFormed = true ∧ (open27 0).txn = true ∧
      (open27 0).phase = .ready := by decide
theorem meets_DisabledBusHangsUpperCommands :
    opensTransaction (.init 2 16 0) = true ∧ (Instr.init 2 16 0).wellFormed = true ∧ State.reset.txn = false ∧
      State.reset.busEn = false ∧ isPhaseChecked (.init 2 16 0) = false ∧ opensTransaction (.setBacklight 1) = true ∧
      isPhaseChecked (.setBacklight 1) = false := by decide
/-- The last wait of CURSOR; then the last of INIT, the first of CLEAR, and a PRINT whose waits all end. -/
theorem meets_StuckSendsKeepTheEventsBefore :
    isUpperCommand (.cursor 1) = true ∧ (Instr.cursor 1).wellFormed = true ∧ (neverEnding 17 (ready27 0)).phase = .ready ∧
      (neverEnding 17 (ready27 0)).txn = false ∧ (neverEnding 17 (ready27 0)).busEn = true ∧
      17 < (eventsOf (neverEnding 17 (ready27 0)) (.cursor 1)).countP Event.waited ∧
      (neverEnding 17 (ready27 0)).waitsEnd 17 = true ∧ (neverEnding 17 (ready27 0)).waitsEnd 18 = false := by
  decide
theorem meets_StuckSendsKeepTheEventsBefore_init :
    isUpperCommand (.init 2 16 0) = true ∧ (Instr.init 2 16 0).wellFormed = true ∧ isPhaseChecked (.init 2 16 0) = false ∧
      (neverEnding 128 (configured27 0)).txn = false ∧ (neverEnding 128 (configured27 0)).busEn = true ∧
      128 < (eventsOf (neverEnding 128 (configured27 0)) (.init 2 16 0)).countP Event.waited ∧
      (neverEnding 128 (configured27 0)).waitsEnd 128 = true ∧ (neverEnding 128 (configured27 0)).waitsEnd 129 = false := by
  decide +kernel
theorem meets_StuckSendsKeepTheEventsBefore_first :
    0 < (eventsOf (neverEnding 0 (ready27 0)) .clear).countP Event.waited ∧ (neverEnding 0 (ready27 0)).waitsEnd 0 = true ∧
      (neverEnding 0 (ready27 0)).waitsEnd 1 = false := by decide
theorem meets_StuckSendsKeepTheEventsBefore_none :
    (ready27 36).phase = .ready ∧ BusReady (ready27 36)
      ((eventsOf (ready27 36) (.print [0x48, 0x69])).countP Event.waited) := ⟨rfl, ready27_ready 36⟩
/-- The statement on one run: INIT whose 41st wait never ends, inside its function set command. -/
theorem test_init_stuck :
    after (exec (.init 2 16 0) (neverEnding 40 (configured27 0)))
        (fun t => (t.trace.length, t.trace.getLast?, t.bl, t.func, t.phase))
      = some (65, some .start, true, 0x28, .uninitialized) := by decide +kernel

/-- A frame's premise: the command answers a next state. -/
def answers (i : Instr) (s : State) : Bool := (after (exec i s) fun _ => ()).isSome

theorem answers_spec {i : Instr} {s : State} (h : answers i s = true) : ∃ t, exec i s = .next t := by
  unfold answers after at h
  split at h
  · exact ⟨_, by assumption⟩
  · simp at h
  · simp at h

theorem meets_ConfigureFrame : ∃ t, exec (.configure 0x27 0x01) State.reset = .next t := answers_spec (by decide)
theorem meets_BusPrimitivesFrame :
    (∃ t, exec .start (ready27 1) = .next t) ∧ (∃ t, exec (.wbyte 0x4E) (open27 1) = .next t) ∧
      (∃ t, exec .stop (open27 0) = .next t) ∧ (∃ t, exec .rbyte (open27 1) = .next t) :=
  ⟨answers_spec (by decide), answers_spec (by decide), answers_spec (by decide), answers_spec (by decide)⟩
theorem meets_PlainSendsFrame :
    isPlainSend (.print [0x48]) = true ∧ ∃ t, exec (.print [0x48]) (ready27 18) = .next t :=
  ⟨by decide, answers_spec (by decide)⟩
theorem meets_RegisterWritersFrame :
    (∃ t, exec (.setBacklight 1) (ready27 3) = .next t) ∧ (∃ t, exec (.cursor 1) (ready27 18) = .next t) ∧
      (∃ t, exec (.autoscroll 1) (ready27 18) = .next t) :=
  ⟨answers_spec (by decide), answers_spec (by decide), answers_spec (by decide +kernel)⟩
theorem meets_InitFrame :
    (∃ t, exec (.init 2 16 0) (ready27 129) = .next t) ∧ (∃ t, exec (.init 2 16 0) State.reset = .next t) :=
  ⟨answers_spec (by decide), answers_spec (by decide +kernel)⟩
/-- One run for each clause: another command than the named ones, CONFIGURE, START, STOP, RBYTE, WBYTE, an empty PRINT. -/
theorem meets_OnlyTheNamedCommandsWriteEachRegister :
    (∃ t, exec (.display 0) (ready27 18) = .next t) ∧ (∃ t, exec (.configure 0x27 0x00) State.reset = .next t) ∧
      (∃ t, exec .start (ready27 1) = .next t) ∧ (∃ t, exec .stop (open27 0) = .next t) ∧
      (∃ t, exec .rbyte (open27 1) = .next t) ∧ (∃ t, exec (.wbyte 0x4E) (open27 1) = .next t) ∧
      (∃ t, exec (.print []) (ready27 0) = .next t) ∧ (open27 1).busEn = true ∧ (ready27 18).phase = .ready :=
  ⟨answers_spec (by decide), answers_spec (by decide), answers_spec (by decide), answers_spec (by decide),
    answers_spec (by decide), answers_spec (by decide), answers_spec (by decide), rfl, rfl⟩

theorem meets_PhaseLeavesUninitializedByInitAlone :
    (configured27 129).phase = .uninitialized ∧ (∃ t, exec (.init 2 16 0) (configured27 129) = .next t) ∧
      (∃ t, exec .clear (ready27 18) = .next t) ∧ step ((ready27 0).driveReset false) = .next
        ((ready27 0).driveReset false).holdReset := by
  exact ⟨rfl, answers_spec (by decide), answers_spec (by decide +kernel), rfl⟩

/-- A booted block: `READY27` with INIT's trace behind it. -/
def booted (n : Nat) : State := { ready27 n with trace := initEvents 0x27 2 false, data := 0x28, stopPend := true }

theorem booted_inv : Inv (booted 18) where
  bus := by constructor <;> decide +kernel
  display := by constructor <;> decide
  port := by constructor <;> decide
  config := ⟨by decide, fun h => by cases h⟩

theorem meets_EveryStepKeepsTheInvariants :
    Inv { booted 18 with cmdIn := [0x25, 0x01] } ∧ ∃ t, step { booted 18 with cmdIn := [0x25, 0x01] } = .next t := by
  refine ⟨⟨⟨booted_inv.bus.1, booted_inv.bus.2, booted_inv.bus.3, booted_inv.bus.4, booted_inv.bus.5, booted_inv.bus.6⟩,
    ⟨booted_inv.display.1, booted_inv.display.2, booted_inv.display.3, booted_inv.display.4, booted_inv.display.5,
      booted_inv.display.6, booted_inv.display.7⟩, ⟨booted_inv.port.1, booted_inv.port.2⟩,
    ⟨booted_inv.config.1, booted_inv.config.2⟩⟩, ?_⟩
  have h : step { booted 18 with cmdIn := [0x25, 0x01] }
      = exec (.cursor 1) { engine { booted 18 with cmdIn := [0x25, 0x01] } with cmdBuf := [], cmdIn := [] } := rfl
  rw [h]
  exact answers_spec (by decide)
theorem meets_ReachableTracesAreFramed : Reachable State.reset := .reset .fresh .fresh .fresh .fresh

theorem booted_boundary : ByteBoundary (booted 18) := by refine ⟨?_, ?_, ?_⟩ <;> decide +kernel
theorem booted_cache : CacheCurrent (booted 18) := by refine ⟨?_, ?_, ?_⟩ <;> decide +kernel
theorem meets_DisplayCommandsKeepTheCacheCurrent :
    isDisplayCommand (.cursor 1) = true ∧ Inv (booted 18) ∧ (CacheCurrent (booted 18) ∧ ByteBoundary (booted 18)) ∧
      ∃ t, Completes (.cursor 1) (booted 18) t := by
  refine ⟨rfl, booted_inv, ⟨booted_cache, booted_boundary⟩, ?_⟩
  have hr : BusReady ((booted 18).begin (.cursor 1)) 18 := (show BusReady (booted 18) 18 from ready27_ready 18).begin _
  have sb := sameBus_setCtrl (setFlag 2 (decide ((1 : Byte) = 1)) (booted 18).ctrl) ((booted 18).begin (.cursor 1))
  obtain ⟨t, h1, h2⟩ := sends_command (setFlag 2 (decide ((1 : Byte) = 1)) (booted 18).ctrl) _ (sb.busReady hr)
  obtain ⟨u, hu, -⟩ := completes_of_sent (i := .cursor 1) rfl ((controlFlag_legal rfl (by decide)).trans h1) sb h2 rfl
  exact ⟨u, hu⟩
/-- The statement on one run: CURSOR keeps the cache current. -/
theorem test_cursor_keeps_cache :
    after (exec (.cursor 1) (booted 18)) (fun t => (t.ctrl, lastOfClass isDisplayControl t.sentBytes,
        lastOfClass functionSetClass t.sentBytes, lastOfClass isEntryMode t.sentBytes))
      = some (0x0E, some 0x0E, some 0x28, some 0x06) := by decide +kernel

theorem meets_AcknowledgeBitsChangeNothing : ∃ t, step presented = .next t :=
  let ⟨t, ht⟩ := answers_spec (i := .configure 0x27 0x00)
    (s := { engine presented with cmdBuf := [], cmdIn := [0x21] }) (by decide)
  ⟨t, (show step presented = _ from rfl).trans ht⟩
theorem meets_UnreadRegistersChangeNothing :
    step { State.reset with cmdIn := [0x21] } = .refused .displayNotInitialised ∧ ∃ t, step presented = .next t :=
  ⟨rfl, meets_AcknowledgeBitsChangeNothing⟩
theorem meets_SendNibbleIsBusWriteByHand : BusReady (ready27 3) 3 := ready27_ready 3
theorem meets_PrintOfConcatenationIsTwoPrints :
    (ready27 54).phase = .ready ∧ BusReady (ready27 54) (18 * ([(0x48 : Byte), 0x69].length + [(0x21 : Byte)].length)) :=
  ⟨rfl, ready27_ready 54⟩
theorem meets_ClampingIsSilent :
    (ready27 18).phase = .ready ∧ 1 ≤ (ready27 18).rows.toNat ∧ (ready27 18).rows.toNat ≤ (0xFF : Byte).toNat := by decide
theorem meets_LogicalByteIsTwoLatchedNibbles : (0x01 : Byte).toNat ≤ 1 := by decide
theorem meets_UpperCommandsSendTwoByteTransactions :
    isUpperCommand (.setBacklight 1) = true ∧ ∃ t, Completes (.setBacklight 1) (ready27 3) t := by
  refine ⟨rfl, ?_⟩
  have sb := sameBus_setBl (decide ((1 : Byte) = 1)) ((ready27 3).begin (.setBacklight 1))
  obtain ⟨t, h1, h2, -⟩ := sendNibble_ends 0x00 (sb.busReady ((ready27_ready 3).begin (.setBacklight 1)))
  obtain ⟨u, hu, -⟩ := completes_of_sent (i := .setBacklight 1) rfl ((setBacklight_legal (by decide) _).trans h1) sb h2 rfl
  exact ⟨u, hu⟩
theorem meets_TraceCountsAreThoseListed : (List.replicate 8 (0xFF : Byte)).length = 8 := by decide
theorem meets_DelaysAreNeverShortened :
    respectsDelays 0 ([(0, .delay 50), (60, .start)] ++ [(61, .write 0x4E)]) = true := by decide
theorem meets_WiresShowTheTrace :
    framing ([((.start : Event), false), (.write 0x4E, true), (.stop, false), (.delay 50, false)].map Prod.fst) ≠ none := by
  decide
/-- The statement on one trace: a start and a stop condition, once each. -/
theorem test_wires :
    startConditions (waveOf [(.start, false), (.write 0x4E, true), (.stop, false), (.start, false), (.stop, false)]) = 2 ∧
      stopConditions (waveOf [(.start, false), (.write 0x4E, true), (.stop, false), (.start, false), (.stop, false)]) = 2 := by
  decide

end Sys2Proof.Tests
end

section
/-! PROOFS. What a command leaves alone, complete or stuck (R47): one frame for all commands that only send, one each for
CONFIGURE, RBYTE and INIT, and from these which command writes which register. -/

namespace Sys2Proof.Machine

/-! ## The parts of a frame -/

theorem SameBusConfig.addr {s t : State} (h : SameBusConfig s t) : t.addr = s.addr := let ⟨ha, _⟩ := h; ha

theorem SameBusConfig.busEn {s t : State} (h : SameBusConfig s t) : t.busEn = s.busEn := let ⟨_, _, _, _, he⟩ := h; he

theorem SameDisplay.ctrl {s t : State} (h : SameDisplay s t) : t.ctrl = s.ctrl := let ⟨_, hc, _⟩ := h; hc

theorem SameDisplay.mode {s t : State} (h : SameDisplay s t) : t.mode = s.mode := let ⟨_, _, hm, _⟩ := h; hm

theorem SameDisplay.phase {s t : State} (h : SameDisplay s t) : t.phase = s.phase := let ⟨_, _, _, hp⟩ := h; hp

theorem SameButBus.config {s t : State} (h : SameButBus s t) : SameBusConfig s t := let ⟨hc, _⟩ := h; hc

theorem SameButBus.resp {s t : State} (h : SameButBus s t) : t.resp = s.resp := let ⟨_, ⟨hr, _⟩, _⟩ := h; hr

/-! ## The commands that touch the bus and at most one register of their own -/

/-- Every command but CONFIGURE, RBYTE and INIT: what it writes besides the bus registers is `ownWrite` (R47). -/
def sendsOnly : Instr → Bool
  | .configure _ _ | .rbyte | .init _ _ _ => false
  | .start | .wbyte _ | .stop | .sendNibble _ | .pulseLatch _ | .sendByte _ _ | .setBacklight _ | .clear | .home
  | .setCursor _ _ | .display _ | .cursor _ | .blink _ | .entryDir _ | .autoscroll _ | .scroll _
  | .loadGlyph _ _ _ _ _ _ _ _ _ | .print _ | .backlight _ => true

/-- The register of the upper layers that a command writes before it sends, as R143 and R164 to R168 say. -/
def ownWrite (s : State) : Instr → State
  | .setBacklight on | .backlight on => s.setBl (flagOf on)
  | .display on => s.setCtrl (setFlag Config.flagDisplay (flagOf on) s.ctrl)
  | .cursor on => s.setCtrl (setFlag Config.flagCursor (flagOf on) s.ctrl)
  | .blink on => s.setCtrl (setFlag Config.flagBlink (flagOf on) s.ctrl)
  | .entryDir on => s.setMode (setFlag Config.flagLtr (flagOf on) s.mode)
  | .autoscroll on => s.setMode (setFlag Config.flagAutoscroll (flagOf on) s.mode)
  | .configure _ _ | .start | .wbyte _ | .stop | .rbyte | .sendNibble _ | .pulseLatch _ | .sendByte _ _ | .init _ _ _
  | .clear | .home | .setCursor _ _ | .scroll _ | .loadGlyph _ _ _ _ _ _ _ _ _ | .print _ => s

theorem bodyOf_busOnly {i : Instr} (hi : sendsOnly i = true) (s : State) :
    (bodyOf i s).Holds (BusOnly (ownWrite s i)) (BusOnly (ownWrite s i)) := by
  cases i with
  | configure | rbyte | init => cases hi
  | start => exact touchesBusOnly_start s
  | wbyte b => exact touchesBusOnly_writeByte b s
  | stop => exact touchesBusOnly_stop s
  | sendNibble x => exact touchesBusOnly_sendNibble x s
  | pulseLatch x => exact touchesBusOnly_pulseLatch x s
  | sendByte v m => exact touchesBusOnly_sendByte v m s
  | setBacklight on => exact setBacklight_holds on s
  | clear => exact touchesBusOnly_clear s
  | home => exact touchesBusOnly_home s
  | setCursor col row => exact touchesBusOnly_setCursor col row s
  | display on | cursor on | blink on => exact controlFlag_holds _ on s
  | entryDir on | autoscroll on => exact modeFlag_holds _ _ on s
  | scroll right => exact touchesBusOnly_scroll right s
  | loadGlyph slot p0 p1 p2 p3 p4 p5 p6 p7 => exact touchesBusOnly_loadGlyph slot _ s
  | print cs => exact touchesBusOnly_print cs s
  | backlight on => exact backlight_holds on s

/-- What a command that only sends leaves alone (R47). -/
structure SendFrame (s t : State) : Prop where
  butBus : SameButBus s t
  bl : t.bl = s.bl
  display : SameDisplay s t

theorem BusOnly.sendFrame {i : Instr} {s u : State} (h : BusOnly (s.begin i) u) : SendFrame s u :=
  let ⟨⟨_, hc, hbl, hd, hr, hb, hv, hi⟩, hg, _⟩ := h
  ⟨⟨hc, ⟨hr, hb, hv⟩, hi, hg⟩, hbl, hd⟩

theorem SendFrame.complete {s u : State} (h : SendFrame s u) : SendFrame s u.complete := ⟨h.butBus, h.bl, h.display⟩

theorem ownWrite_begin (s : State) (c i : Instr) : ownWrite (s.begin c) i = (ownWrite s i).begin c := by
  cases i <;> rfl

/-- Whether it completes or is stuck, a command has done its own register write and touched the bus. -/
theorem exec_sendFrame {i : Instr} (hi : sendsOnly i = true) {s t : State} (h : exec i s = .next t) :
    SendFrame (ownWrite s i) t := by
  rw [exec_eq_perform] at h
  have hb := bodyOf_busOnly hi (s.begin i)
  rw [ownWrite_begin] at hb
  obtain ⟨u, hu, rfl⟩ | hu := perform_next h <;> rw [hu] at hb
  · exact (BusOnly.sendFrame hb).complete
  · exact BusOnly.sendFrame hb

theorem sendsOnly_of_plainSend {i : Instr} (hi : isPlainSend i = true) : sendsOnly i = true := by
  cases i <;> simp_all [isPlainSend, sendsOnly]

theorem ownWrite_of_plainSend {i : Instr} (hi : isPlainSend i = true) (s : State) : ownWrite s i = s := by
  cases i <;> simp_all [isPlainSend, ownWrite]

/-- Settles O37: a plain send has no register write of its own. -/
theorem plainSendsFrame : Obligations.PlainSendsFrame := by
  intro i s t hi h
  obtain ⟨hb, hbl, hd⟩ := ownWrite_of_plainSend hi s ▸ exec_sendFrame (sendsOnly_of_plainSend hi) h
  exact ⟨hb, hbl, hd⟩

/-! ## INIT -/

theorem SameButBus.busOnly {s t u : State} (h : SameButBus s t) (k : BusOnly t u) : SameButBus s u := by
  obtain ⟨⟨c1, c2, c3, c4, c5⟩, ⟨r1, r2, r3⟩, ⟨i1, i2, i3⟩, hg⟩ := h
  obtain ⟨⟨-, ⟨c1', c2', c3', c4', c5'⟩, -, -, r1', r2', r3', ⟨i1', i2', i3'⟩⟩, hg', -⟩ := k
  exact ⟨by simp [SameBusConfig, *], by simp [SameResponse, *], by simp [SameInputs, *], hg.trans hg'⟩

/-- What INIT keeps at each of its positions after its geometry writes, `p` being the phase (R160). -/
structure InitKeeps (rows cols : Byte) (p : Phase) (s t : State) : Prop where
  butBus : SameButBus s t
  rows : t.rows = rows
  cols : t.cols = cols
  phase : t.phase = p

theorem InitKeeps.busOnly {rows cols : Byte} {p : Phase} {s t u : State} (h : InitKeeps rows cols p s t)
    (k : BusOnly t u) : InitKeeps rows cols p s u :=
  let ⟨⟨hr, hc, _, _⟩, _, _, hp⟩ := k.rest.display
  ⟨h.butBus.busOnly k, hr.trans h.rows, hc.trans h.cols, hp.trans h.phase⟩

theorem triple_initSends_keeps (rows cols font : Byte) (s : State) :
    Triple (fun t => SameButBus s t ∧ t.phase = s.phase) (initSends rows cols font) (InitKeeps rows cols .ready s)
      (InitKeeps rows cols s.phase s) :=
  triple_initSends (P := InitKeeps rows cols s.phase s) (fun _ _ k h => h.busOnly k) (fun _ h => h)
    (fun _ ⟨hb, hr, hc, hp⟩ => ⟨hb, hr, hc, hp⟩) (fun _ ⟨hb, hp⟩ => ⟨hb, rfl, rfl, hp⟩)
    (fun _ ⟨hb, hr, hc, hp⟩ => ⟨hb, hr, hc, hp⟩) (fun _ ⟨hb, hr, hc, hp⟩ => ⟨hb, hr, hc, hp⟩)
    (fun _ ⟨hb, hr, hc, hp⟩ => ⟨hb, hr, hc, hp⟩) (fun _ ⟨hb, hr, hc, _⟩ => ⟨hb, hr, hc, rfl⟩)

theorem sameButBus_begin (i : Instr) (s : State) : SameButBus s (s.begin i) := by
  simp [SameButBus, SameBusConfig, SameResponse, SameInputs, TraceGrows]

/-- INIT that answers a next state has completed, and the phase is Ready, or is stuck, and the phase is the old one. -/
theorem exec_init_keeps {rows cols font : Byte} {s t : State} (h : exec (.init rows cols font) s = .next t) :
    (InitKeeps rows cols .ready s t ∧ t.useq = .idle) ∨ InitKeeps rows cols s.phase s t := by
  rw [exec_eq_perform] at h
  have hb : (initialize4Bit rows cols font (s.begin (.init rows cols font))).Holds (InitKeeps rows cols .ready s)
      (InitKeeps rows cols s.phase s) := by
    by_cases ho : badRows rows = false ∧ badBool font = false
    · rw [initialize4Bit_legal cols ho.1 ho.2]
      exact triple_initSends_keeps rows cols font s _ ⟨sameButBus_begin _ s, by simp⟩
    · cases hf : initialize4Bit rows cols font (s.begin (.init rows cols font)) with
      | refused r => trivial
      | done u | stuck u => exact absurd (initialize4Bit_operands fun r hr => by rw [hf] at hr; cases hr) ho
  obtain ⟨u, hu, rfl⟩ | hu := perform_next h <;> rw [show initialize4Bit rows cols font _ = _ from hu] at hb
  · obtain ⟨k, hr, hc, hp⟩ := hb
    exact .inl ⟨⟨k, hr, hc, hp⟩, rfl⟩
  · exact .inr hb

/-- Settles O39: INIT's writes before PHASE are the geometry, BL, FUNC, CTRL and MODE alone. -/
theorem initFrame : Obligations.InitFrame := by
  intro rows cols font s t h
  obtain ⟨⟨hb, hr, hc, -⟩, hi⟩ | ⟨hb, hr, hc, hp⟩ := exec_init_keeps h
  · exact ⟨hb, hr, hc, fun hn => absurd hi hn⟩
  · exact ⟨hb, hr, hc, fun _ => hp⟩

/-! ## The BusDriver commands -/

/-- A command whose body ends in one state or is refused. -/
theorem exec_eq_of_holds {i : Instr} {s v t : State} (hb : (bodyOf i (s.begin i)).Holds (· = v) fun _ => False)
    (h : exec i s = .next t) : t = v.complete := by
  rw [exec_eq_perform] at h
  obtain ⟨u, hu, rfl⟩ | hu := perform_next h <;> rw [hu] at hb
  · rw [show u = v from hb]
  · exact hb.elim

theorem exec_configure {addr speed : Byte} {s t : State} (h : exec (.configure addr speed) s = .next t) :
    t = (State.configured addr speed (s.begin (.configure addr speed))).complete := by
  refine exec_eq_of_holds ?_ h
  rw [bodyOf]
  cases ha : badAddr addr with
  | true => rw [configure_badAddr ha]; trivial
  | false =>
    cases he : (s.begin (.configure addr speed)).busEn with
    | true => rw [configure_again ha he]; trivial
    | false => rw [configure_ends ha he]; rfl

/-- Settles O35: CONFIGURE's end state, field by field. -/
theorem configureFrame : Obligations.ConfigureFrame := by
  intro addr speed s t h
  rw [exec_configure h]
  simp [SameDisplay, SameGeometry, SameResponse, SameInputs]

/-- A property that a command's body keeps and that does not speak of the beginning and the end of a command is kept by
the command. -/
theorem exec_keeps {i : Instr} {P : State → Prop} (hb : Triple P (bodyOf i) P P) {s t : State}
    (h : exec i s = .next t) (hs : P (s.begin i)) (hc : ∀ u, P u → P u.complete) : P t := by
  rw [exec_eq_perform] at h
  obtain ⟨u, hu, rfl⟩ | hu := perform_holds hb hs h
  · exact hc u hu
  · exact hu

theorem exec_start_keeps {s t : State} (h : exec .start s = .next t) :
    t.data = s.data ∧ t.ackRx = s.ackRx ∧ t.acks = s.acks :=
  exec_keeps (i := .start) (P := fun u => u.data = s.data ∧ u.ackRx = s.ackRx ∧ u.acks = s.acks)
    (triple_start (fun _ hu _ _ => hu) (fun _ hu _ _ => hu) fun _ hu _ _ => hu) h ⟨rfl, rfl, rfl⟩ fun _ hu => hu

theorem exec_wbyte_keeps {b : Byte} {s t : State} (h : exec (.wbyte b) s = .next t) :
    t.txn = s.txn ∧ t.stopPend = s.stopPend :=
  exec_keeps (i := .wbyte b) (P := fun u => u.txn = s.txn ∧ u.stopPend = s.stopPend)
    (triple_writeByte (fun _ hu _ _ => hu) (fun _ hu _ _ => hu) fun _ hu _ _ => hu) h ⟨rfl, rfl⟩ fun _ hu => hu

theorem exec_stop_keeps {s t : State} (h : exec .stop s = .next t) :
    t.data = s.data ∧ t.ackRx = s.ackRx ∧ t.acks = s.acks ∧ t.waits = s.waits :=
  exec_keeps (i := .stop) (P := fun u => u.data = s.data ∧ u.ackRx = s.ackRx ∧ u.acks = s.acks ∧ u.waits = s.waits)
    (triple_stop fun _ hu _ => hu) h ⟨rfl, rfl, rfl, rfl⟩ fun _ hu => hu

/-- What RBYTE leaves alone (R47). -/
structure RbyteFrame (s t : State) : Prop where
  config : SameBusConfig s t
  inputs : SameInputs s t
  grows : TraceGrows s t
  bl : t.bl = s.bl
  display : SameDisplay s t
  txn : t.txn = s.txn
  stopPend : t.stopPend = s.stopPend
  ackRx : t.ackRx = s.ackRx
  acks : t.acks = s.acks

theorem exec_rbyte_frame {s t : State} (h : exec .rbyte s = .next t) : RbyteFrame s t := by
  refine exec_keeps (P := RbyteFrame s) (triple_readByte ?_ ?_ ?_) h ?_ ?_
  case refine_4 => constructor <;> simp [SameBusConfig, SameInputs, TraceGrows, SameDisplay, SameGeometry]
  all_goals
    rintro u ⟨hc, hi, hg, hbl, hd, ht, hs, ha, hf⟩
    intros
    exact ⟨hc, hi, hg.trans (by simp), hbl, hd, ht, hs, ha, hf⟩

/-- Settles O36: the frame of every sending command, and what each of the four keeps besides. -/
theorem busPrimitivesFrame : Obligations.BusPrimitivesFrame := by
  refine fun s t => ⟨fun h => ?_, fun b h => ?_, fun h => ?_, fun h => ?_⟩
  · obtain ⟨hb, hbl, hd⟩ := exec_sendFrame rfl h
    exact ⟨hb, hbl, hd, exec_start_keeps h⟩
  · obtain ⟨hb, hbl, hd⟩ := exec_sendFrame rfl h
    exact ⟨hb, hbl, hd, exec_wbyte_keeps h⟩
  · obtain ⟨hb, hbl, hd⟩ := exec_sendFrame rfl h
    exact ⟨hb, hbl, hd, exec_stop_keeps h⟩
  · obtain ⟨hc, hi, hg, hbl, hd, ht, hs, ha, hf⟩ := exec_rbyte_frame h
    exact ⟨hc, hi, hg, hbl, hd, ht, hs, ha, hf⟩

/-! ## Which command writes which register -/

theorem instr_kinds (i : Instr) :
    (∃ a v, i = .configure a v) ∨ i = .rbyte ∨ (∃ r c f, i = .init r c f) ∨ sendsOnly i = true := by
  cases i <;> simp [sendsOnly]

/-- What every command leaves alone or only adds to. -/
structure CommandFrame (s t : State) : Prop where
  busEn : s.busEn = true → t.busEn = true
  ready : s.phase = .ready → t.phase = .ready
  grows : TraceGrows s t
  inputs : SameInputs s t

theorem sameBus_ownWrite (s : State) (i : Instr) : SameBus s (ownWrite s i) := by
  cases i with
  | setBacklight | backlight => exact sameBus_setBl _ s
  | display | cursor | blink => exact sameBus_setCtrl _ s
  | entryDir | autoscroll => exact sameBus_setMode _ s
  | configure | start | wbyte | stop | rbyte | sendNibble | pulseLatch | sendByte | init | clear | home | setCursor
    | scroll | loadGlyph | print => exact .refl s

theorem ownWrite_geometry (s : State) (i : Instr) :
    SameGeometry s (ownWrite s i) ∧ (ownWrite s i).phase = s.phase := by
  cases i <;> simp [ownWrite, SameGeometry]

theorem ownWrite_bl {i : Instr} (h : ∀ v, i ≠ .setBacklight v ∧ i ≠ .backlight v) (s : State) :
    (ownWrite s i).bl = s.bl := by
  cases i <;> simp_all [ownWrite]

theorem ownWrite_ctrl {i : Instr} (h : ∀ v, i ≠ .display v ∧ i ≠ .cursor v ∧ i ≠ .blink v) (s : State) :
    (ownWrite s i).ctrl = s.ctrl := by
  cases i <;> simp_all [ownWrite]

theorem ownWrite_mode {i : Instr} (h : ∀ v, i ≠ .entryDir v ∧ i ≠ .autoscroll v) (s : State) :
    (ownWrite s i).mode = s.mode := by
  cases i <;> simp_all [ownWrite]

theorem SameBus.sameButBus {s s0 t : State} (k : SameBus s s0) (h : SameButBus s0 t) : SameButBus s t := by
  obtain ⟨⟨c1, c2, c3, c4, c5⟩, ⟨r1, r2, r3⟩, ⟨i1, i2, i3⟩, hg⟩ := h
  obtain ⟨c1', c2', c3', c4', c5'⟩ := k.config
  obtain ⟨i1', i2', i3'⟩ := k.inputs
  refine ⟨?_, ?_, ?_, ?_⟩
  · simp [SameBusConfig, *]
  · simp [SameResponse, k.resp, k.bytes, *]
  · simp [SameInputs, *]
  · rw [TraceGrows, ← k.trace]; exact hg

/-- The frame of every command but CONFIGURE, RBYTE and INIT, from the state before its register write. -/
theorem exec_send_sameButBus {i : Instr} (hi : sendsOnly i = true) {s t : State} (h : exec i s = .next t) :
    SameButBus s t ∧ SameGeometry s t ∧ t.phase = s.phase := by
  obtain ⟨hb, -, ⟨g1, g2, g3, g4⟩, -, -, hp⟩ := exec_sendFrame hi h
  obtain ⟨⟨k1, k2, k3, k4⟩, kp⟩ := ownWrite_geometry s i
  exact ⟨(sameBus_ownWrite s i).sameButBus hb, ⟨g1.trans k1, g2.trans k2, g3.trans k3, g4.trans k4⟩, hp.trans kp⟩

theorem exec_commandFrame {i : Instr} {s t : State} (h : exec i s = .next t) : CommandFrame s t := by
  obtain ⟨a, v, rfl⟩ | rfl | ⟨r, c, f, rfl⟩ | hi := instr_kinds i
  · rw [exec_configure h]
    constructor <;> simp [TraceGrows, SameInputs]
  · have k := exec_rbyte_frame h
    exact ⟨k.config.busEn.trans, k.display.phase.trans, k.grows, k.inputs⟩
  · obtain ⟨⟨⟨hc, -, hi, hg⟩, -, -, hp⟩, -⟩ | ⟨⟨hc, -, hi, hg⟩, -, -, hp⟩ := exec_init_keeps h
    · exact ⟨hc.busEn.trans, fun _ => hp, hg, hi⟩
    · exact ⟨hc.busEn.trans, hp.trans, hg, hi⟩
  · obtain ⟨⟨hc, -, hi, hg⟩, -, hp⟩ := exec_send_sameButBus hi h
    exact ⟨hc.busEn.trans, hp.trans, hg, hi⟩

theorem exec_init_butBus {r c f : Byte} {s t : State} (h : exec (.init r c f) s = .next t) : SameButBus s t := by
  obtain ⟨k, -⟩ | k := exec_init_keeps h <;> exact k.butBus

theorem exec_config {i : Instr} {s t : State} (h : exec i s = .next t) (hc : ∀ a v, i ≠ .configure a v) :
    SameBusConfig s t := by
  obtain ⟨a, v, rfl⟩ | rfl | ⟨r, c, f, rfl⟩ | hi := instr_kinds i
  · exact absurd rfl (hc a v)
  · exact (exec_rbyte_frame h).config
  · exact (exec_init_butBus h).config
  · exact (exec_send_sameButBus hi h).1.config

theorem exec_resp {i : Instr} {s t : State} (h : exec i s = .next t) (hr : i ≠ .rbyte) : t.resp = s.resp := by
  obtain ⟨a, v, rfl⟩ | rfl | ⟨r, c, f, rfl⟩ | hi := instr_kinds i
  · rw [exec_configure h]; simp
  · exact absurd rfl hr
  · exact (exec_init_butBus h).resp
  · exact (exec_send_sameButBus hi h).1.resp

theorem exec_bl {i : Instr} {s t : State} (h : exec i s = .next t) (hb : ∀ v, i ≠ .setBacklight v ∧ i ≠ .backlight v)
    (hn : ∀ r c f, i ≠ .init r c f) : t.bl = s.bl := by
  obtain ⟨a, v, rfl⟩ | rfl | ⟨r, c, f, rfl⟩ | hi := instr_kinds i
  · rw [exec_configure h]; simp
  · exact (exec_rbyte_frame h).bl
  · exact absurd rfl (hn r c f)
  · exact (exec_sendFrame hi h).bl.trans (ownWrite_bl hb s)

theorem exec_geometry {i : Instr} {s t : State} (h : exec i s = .next t) (hn : ∀ r c f, i ≠ .init r c f) :
    SameGeometry s t ∧ t.phase = s.phase := by
  obtain ⟨a, v, rfl⟩ | rfl | ⟨r, c, f, rfl⟩ | hi := instr_kinds i
  · rw [exec_configure h]; simp [SameGeometry]
  · obtain ⟨hg, -, -, hp⟩ := (exec_rbyte_frame h).display
    exact ⟨hg, hp⟩
  · exact absurd rfl (hn r c f)
  · exact (exec_send_sameButBus hi h).2

theorem exec_ctrl {i : Instr} {s t : State} (h : exec i s = .next t) (hn : ∀ r c f, i ≠ .init r c f)
    (hc : ∀ v, i ≠ .display v ∧ i ≠ .cursor v ∧ i ≠ .blink v) : t.ctrl = s.ctrl := by
  obtain ⟨a, v, rfl⟩ | rfl | ⟨r, c, f, rfl⟩ | hi := instr_kinds i
  · rw [exec_configure h]; simp
  · exact (exec_rbyte_frame h).display.ctrl
  · exact absurd rfl (hn r c f)
  · exact (exec_sendFrame hi h).display.ctrl.trans (ownWrite_ctrl hc s)

theorem exec_mode {i : Instr} {s t : State} (h : exec i s = .next t) (hn : ∀ r c f, i ≠ .init r c f)
    (hm : ∀ v, i ≠ .entryDir v ∧ i ≠ .autoscroll v) : t.mode = s.mode := by
  obtain ⟨a, v, rfl⟩ | rfl | ⟨r, c, f, rfl⟩ | hi := instr_kinds i
  · rw [exec_configure h]; simp
  · exact (exec_rbyte_frame h).display.mode
  · exact absurd rfl (hn r c f)
  · exact (exec_sendFrame hi h).display.mode.trans (ownWrite_mode hm s)

theorem exec_data {i : Instr} {s t : State} (h : exec i s = .next t)
    (hi : (∃ a v, i = .configure a v) ∨ i = .start ∨ i = .stop) : t.data = s.data := by
  obtain ⟨a, v, rfl⟩ | rfl | rfl := hi
  · rw [exec_configure h]; simp
  · exact (exec_start_keeps h).1
  · exact (exec_stop_keeps h).1

theorem exec_ackRx {i : Instr} {s t : State} (h : exec i s = .next t)
    (hi : (∃ a v, i = .configure a v) ∨ i = .start ∨ i = .stop ∨ i = .rbyte) : t.ackRx = s.ackRx := by
  obtain ⟨a, v, rfl⟩ | rfl | rfl | rfl := hi
  · rw [exec_configure h]; simp
  · exact (exec_start_keeps h).2.1
  · exact (exec_stop_keeps h).2.1
  · exact (exec_rbyte_frame h).ackRx

theorem exec_txn {i : Instr} {s t : State} (h : exec i s = .next t)
    (hi : (∃ a v, i = .configure a v) ∨ (∃ b, i = .wbyte b) ∨ i = .rbyte) :
    t.txn = s.txn ∧ t.stopPend = s.stopPend := by
  obtain ⟨a, v, rfl⟩ | ⟨b, rfl⟩ | rfl := hi
  · rw [exec_configure h]; simp
  · exact exec_wbyte_keeps h
  · exact ⟨(exec_rbyte_frame h).txn, (exec_rbyte_frame h).stopPend⟩

/-- A PRINT of no characters has only checks. -/
theorem exec_print_nil {s t : State} (h : exec (.print []) s = .next t) : t = (s.begin (.print [])).complete := by
  refine exec_eq_of_holds ?_ h
  rw [bodyOf]
  cases hp : (s.begin (.print [])).phase with
  | uninitialized => rw [print, steps_requireReady_refuse _ hp]; trivial
  | ready =>
    cases ht : (s.begin (.print [])).txn with
    | true => rw [print_refused [] hp ht]; trivial
    | false => rw [print_ready [] hp ht]; rfl

/-- Settles O38: each of these commands sends, and writes one register that the other clauses do not name. -/
theorem registerWritersFrame : Obligations.RegisterWritersFrame := by
  refine fun v s t => ⟨?_, ?_, ?_⟩
  · rintro (h | h) <;>
      exact ⟨(exec_send_sameButBus rfl h).1, (exec_geometry h (by simp)).1, exec_ctrl h (by simp) (by simp),
        exec_mode h (by simp) (by simp), (exec_geometry h (by simp)).2⟩
  · rintro (h | h | h) <;>
      exact ⟨(exec_send_sameButBus rfl h).1, exec_bl h (by simp) (by simp), (exec_geometry h (by simp)).1,
        exec_mode h (by simp) (by simp), (exec_geometry h (by simp)).2⟩
  · rintro (h | h) <;>
      exact ⟨(exec_send_sameButBus rfl h).1, exec_bl h (by simp) (by simp), (exec_geometry h (by simp)).1,
        exec_ctrl h (by simp) (by simp), (exec_geometry h (by simp)).2⟩

/-- Settles O40: each clause is the lemma about its register. -/
theorem onlyTheNamedCommandsWriteEachRegister : Obligations.OnlyTheNamedCommandsWriteEachRegister := by
  intro i s t h
  have hf := exec_commandFrame h
  refine ⟨exec_config h, exec_resp h, exec_bl h, exec_geometry h, exec_ctrl h, exec_mode h, exec_data h, exec_ackRx h,
    exec_txn h, ?_, hf.busEn, hf.ready, hf.grows, hf.inputs⟩
  rintro rfl
  rw [exec_print_nil h]
  simp

end Sys2Proof.Machine
end

section
/-! PROOFS. The state after reset (R46), and relations between states that no step sees (R25, R26, R35). -/

namespace Sys2Proof.Machine

/-- Settles O6: the fields of `State.reset`. -/
theorem resetLeavesTheListedValues : Obligations.ResetLeavesTheListedValues := by
  and_intros <;> rfl

theorem busInv_reset : BusInv State.reset := by constructor <;> decide

theorem displayInv_reset : DisplayInv State.reset := by constructor <;> decide

theorem portInv_reset : PortInv State.reset := by constructor <;> decide

theorem configInv_reset : ConfigInv State.reset := ⟨by decide, by simp [State.reset]⟩

/-- Settles O42, one invariant a part of the block. -/
theorem resetMeetsTheInvariants : Obligations.ResetMeetsTheInvariants :=
  ⟨busInv_reset, displayInv_reset, portInv_reset, configInv_reset⟩

/-! ## A relation that no step sees -/

/-- The relation is kept by all that a step does besides the bodies, and the port and the sequencer read nothing in
which related states differ. -/
structure Unseen (R : State → State → Prop) : Prop extends Blind R where
  rstN : ∀ {s t}, R s t → s.rstN = t.rstN
  useq : ∀ {s t}, R s t → s.useq = t.useq
  arrived : ∀ {s t}, R s t → s.arrived = t.arrived
  engine : ∀ {s t}, R s t → R (engine s) (engine t)
  take : ∀ {s t} rest, R s t → R (State.take rest s) (State.take rest t)
  takeAll : ∀ {s t}, R s t → R s.takeAll t.takeAll
  holdReset : ∀ {s t}, R s t → R s.holdReset t.holdReset
  start : ∀ {s t} i, R s t → R (s.begin i) (t.begin i)
  complete : ∀ {s t}, R s t → R s.complete t.complete
  configured : ∀ {s t} addr speed, R s t → R (State.configured addr speed s) (State.configured addr speed t)

/-- Both outcomes are the same refusal, or next states that are related. -/
def OutcomesRelated (R : State → State → Prop) :
    Host.Outcome State Fault Refusal → Host.Outcome State Fault Refusal → Prop
  | .next s, .next t => R s t
  | .refused q, .refused r => q = r
  | _, _ => False

section

variable {R : State → State → Prop}

theorem Unseen.bodyOf (h : Unseen R) (i : Instr) : Respects R (bodyOf i) := by
  have hb := h.toBlind
  cases i with
  | configure addr speed =>
    refine respects_steps ?_
    simp only [List.mem_cons, List.not_mem_nil, or_false, forall_eq_or_imp, forall_eq]
    exact ⟨respects_require fun _ _ _ => rfl, respects_require fun s t hr => by rw [h.busEn hr],
      respects_assign fun s t hr => h.configured addr speed hr⟩
  | start => exact hb.start
  | wbyte b => exact hb.writeByte b
  | stop => exact hb.stop
  | rbyte => exact hb.readByte
  | sendNibble x => exact hb.sendNibble x
  | pulseLatch x => exact hb.pulseLatch x
  | sendByte v m => exact hb.sendByte v m
  | setBacklight on => exact hb.setBacklight on
  | init rows cols font => exact hb.initialize4Bit rows cols font
  | clear => exact hb.clear
  | home => exact hb.home
  | setCursor col row => exact hb.setCursor col row
  | display on | cursor on | blink on => exact hb.controlFlag _ on
  | entryDir on | autoscroll on => exact hb.modeFlag _ _ on
  | scroll right => exact hb.scroll right
  | loadGlyph slot p0 p1 p2 p3 p4 p5 p6 p7 => exact hb.loadGlyph slot _
  | print cs => exact hb.print cs
  | backlight on => exact hb.backlight on

theorem Unseen.exec (h : Unseen R) (i : Instr) {s t : State} (hr : R s t) :
    OutcomesRelated R (exec i s) (Machine.exec i t) := by
  rw [exec_eq_perform, exec_eq_perform, perform, perform]
  have hb := h.bodyOf i _ _ (h.start i hr)
  cases hs : Machine.bodyOf i (s.begin i) <;> cases ht : Machine.bodyOf i (t.begin i) <;> rw [hs, ht] at hb
  case done.done => exact h.complete hb
  case stuck.stuck => exact hb
  case refused.refused => exact hb
  all_goals exact hb.elim

theorem Unseen.step (h : Unseen R) {s t : State} (hr : R s t) : OutcomesRelated R (step s) (step t) := by
  rw [Machine.step, Machine.step, ← h.rstN hr, ← h.useq hr, ← h.arrived hr]
  cases s.rstN with
  | false => exact h.holdReset hr
  | true =>
    cases s.useq with
    | executing c k => exact h.engine hr
    | idle =>
      cases decode s.arrived with
      | command i rest => exact h.exec i (h.take rest (h.engine hr))
      | incomplete => exact h.takeAll (h.engine hr)
      | reserved op => exact rfl

theorem OutcomesRelated.next {o : Host.Outcome State Fault Refusal} {s : State} (h : OutcomesRelated R (.next s) o) :
    ∃ t, o = .next t ∧ R s t := by
  cases o with
  | next t => exact ⟨t, rfl, h⟩
  | fault f => cases f
  | refused r => exact h.elim

theorem OutcomesRelated.refused {o : Host.Outcome State Fault Refusal} {r : Refusal}
    (h : OutcomesRelated R (.refused r) o) : o = .refused r := by
  cases o with
  | next t => exact h.elim
  | fault f => cases f
  | refused q => exact congrArg _ (Eq.symm h)

end

theorem unseen_unread : Unseen SameButUnread where
  toBlind := blind_unread
  rstN := by rintro s _ ⟨sp, br, pr, co, rfl⟩; rfl
  useq := by rintro s _ ⟨sp, br, pr, co, rfl⟩; rfl
  arrived := by rintro s _ ⟨sp, br, pr, co, rfl⟩; rfl
  engine := by rintro s _ ⟨sp, br, pr, co, rfl⟩; exact ⟨_, _, _, _, rfl⟩
  take := by rintro s _ rest ⟨sp, br, pr, co, rfl⟩; exact ⟨_, _, _, _, rfl⟩
  takeAll := by rintro s _ ⟨sp, br, pr, co, rfl⟩; exact ⟨_, _, _, _, rfl⟩
  holdReset := by rintro s _ ⟨sp, br, pr, co, rfl⟩; exact ⟨_, _, _, _, rfl⟩
  start := by rintro s _ i ⟨sp, br, pr, co, rfl⟩; exact ⟨_, _, _, _, rfl⟩
  complete := by rintro s _ ⟨sp, br, pr, co, rfl⟩; exact ⟨_, _, _, _, rfl⟩
  configured := by rintro s _ addr speed ⟨sp, br, pr, co, rfl⟩; exact ⟨_, _, _, _, rfl⟩

/-- Settles O47: a step does not see the four registers. -/
theorem unreadRegistersChangeNothing : Obligations.UnreadRegistersChangeNothing := by
  intro s sp br pr co
  have h := unseen_unread.step (s := s) ⟨sp, br, pr, co, rfl⟩
  refine ⟨fun t ht => ?_, fun r hr => ?_⟩
  · rw [ht] at h
    obtain ⟨t', ht', sp', br', pr', co', rfl⟩ := h.next
    exact ⟨sp', br', pr', co', ht'⟩
  · rw [hr] at h
    exact h.refused

end Sys2Proof.Machine
end

section
/-! PROOFS. A command that completes: its body has run to its end, and a command above the BusDriver has appended
exactly the events that its rule lists. -/

namespace Sys2Proof.Machine

/-! ## A command that completes -/

/-- A command that completes has run its body to the end: one that is stuck leaves the sequencer in the command. -/
theorem Completes.body {i : Instr} {s t : State} (h : Completes i s t) :
    ∃ u, bodyOf i (s.begin i) = .done u ∧ t = u.complete := by
  obtain ⟨hx, -, hidle⟩ := h
  rw [exec_eq_perform] at hx
  obtain hd | hst := perform_next hx
  · exact hd
  · have hn := named_bodyOf i i (s.begin i) ⟨0, by simp⟩
    rw [hst] at hn
    obtain ⟨k, hk⟩ := hn
    rw [hidle] at hk
    cases hk

theorem steps_require_done {ok : State → Bool} {r : Refusal} {fs : List (State → Flow)} {s u : State}
    (h : steps (require ok r :: fs) s = .done u) : ok s = true ∧ steps fs s = .done u := by
  cases hk : ok s with
  | true => rw [steps_cons, require_pos hk] at h; exact ⟨rfl, h⟩
  | false => rw [steps_cons, require_neg hk] at h; cases h

theorem steps_requireReady_done {fs : List (State → Flow)} {s u : State} (h : steps (requireReady :: fs) s = .done u) :
    s.phase = .ready ∧ steps fs s = .done u := by
  obtain ⟨h1, h2⟩ := steps_require_done h
  exact ⟨by simpa using h1, h2⟩

theorem steps_requireBool_done {name : String} {v : Byte} {fs : List (State → Flow)} {s u : State}
    (h : steps (requireBool name v :: fs) s = .done u) : v.toNat ≤ 1 ∧ steps fs s = .done u := by
  obtain ⟨h1, h2⟩ := steps_require_done h
  exact ⟨by simpa [badBool] using h1, h2⟩

theorem setBacklight_done {on : Byte} {s u : State} (h : setBacklight on s = .done u) :
    on.toNat ≤ 1 ∧ Sent 3 (sendNibbleEvents s.addr (decide (on = 1)) 0x00) (s.setBl (decide (on = 1))) u := by
  obtain ⟨h1, -⟩ := steps_require_done h
  have ho : on.toNat ≤ 1 := by simpa [badBool] using h1
  rw [setBacklight_legal ho] at h
  exact ⟨ho, by simpa using onlySends_sendNibble 0x00 _ _ h⟩

theorem controlFlag_done {f on : Byte} {s u : State} (h : controlFlag f on s = .done u) :
    s.phase = .ready ∧ on.toNat ≤ 1 ∧ Sent 18 (commandEvents s.addr s.bl (setFlag f (decide (on = 1)) s.ctrl))
      (s.setCtrl (setFlag f (decide (on = 1)) s.ctrl)) u := by
  obtain ⟨hp, h1⟩ := steps_requireReady_done h
  obtain ⟨ho, -⟩ := steps_requireBool_done h1
  rw [controlFlag_legal hp ho] at h
  exact ⟨hp, ho, by simpa using onlySends_command _ _ _ h⟩

theorem modeFlag_done {name : String} {f on : Byte} {s u : State} (h : modeFlag name f on s = .done u) :
    s.phase = .ready ∧ on.toNat ≤ 1 ∧ Sent 18 (commandEvents s.addr s.bl (setFlag f (decide (on = 1)) s.mode))
      (s.setMode (setFlag f (decide (on = 1)) s.mode)) u := by
  obtain ⟨hp, h1⟩ := steps_requireReady_done h
  obtain ⟨ho, -⟩ := steps_requireBool_done h1
  rw [modeFlag_legal hp ho] at h
  exact ⟨hp, ho, by simpa using onlySends_command _ _ _ h⟩

theorem initialize4Bit_done {rows cols font : Byte} {s u : State} (h : initialize4Bit rows cols font s = .done u) :
    s.txn = false ∧ font.toNat ≤ 1 ∧
      Sent 129 (initEvents s.addr rows (flagOf font)) (s.initialised rows cols font) u := by
  obtain ⟨hr, hf⟩ := initialize4Bit_operands fun r hr => by rw [h] at hr; cases hr
  rw [initialize4Bit_legal cols hr hf] at h
  refine ⟨?_, by simpa [badBool] using hf, initSends_done h⟩
  by_contra ht
  rw [initSends_refused (handshakeSends_refused (by simpa using ht))] at h
  cases h

/-- A command above the BusDriver that completes has appended to the trace exactly the events that its rule lists. -/
theorem bodyOf_done_trace {i : Instr} (hi : isUpperCommand i = true) {s u : State} (h : bodyOf i s = .done u) :
    u.trace = s.trace ++ eventsOf s i := by
  cases i with
  | configure | start | wbyte | stop | rbyte => cases hi
  | sendNibble x => exact (onlySends_sendNibble x s u h).trace
  | pulseLatch x => exact (onlySends_pulseLatch x s u h).trace
  | sendByte v m => exact (onlySends_sendByte v m s u h).trace
  | setBacklight on => exact (setBacklight_done h).2.trace
  | init rows cols font =>
    obtain ⟨-, hf, hs⟩ := initialize4Bit_done h
    rw [hs.trace, flagOf_eq font hf]
    simp [State.initialised, eventsOf]
  | clear =>
    rw [bodyOf, clear] at h
    obtain ⟨-, h⟩ := steps_requireReady_done h
    rw [steps_one] at h
    exact (onlySends_clearBody s u h).trace
  | home =>
    rw [bodyOf, home] at h
    obtain ⟨-, h⟩ := steps_requireReady_done h
    rw [steps_one] at h
    exact (onlySends_homeBody s u h).trace
  | setCursor col row =>
    rw [bodyOf, setCursor] at h
    obtain ⟨-, h⟩ := steps_requireReady_done h
    rw [steps_one] at h
    exact (onlySends_command _ s u h).trace
  | display on | cursor on | blink on =>
    obtain ⟨-, -, hs⟩ := controlFlag_done h
    simp only [hs.trace, eventsOf, setFlag, decide_eq_true_eq]
    rfl
  | entryDir on | autoscroll on =>
    obtain ⟨-, -, hs⟩ := modeFlag_done h
    simp only [hs.trace, eventsOf, setFlag, decide_eq_true_eq]
    rfl
  | scroll right =>
    rw [bodyOf, scroll] at h
    obtain ⟨-, h⟩ := steps_requireReady_done h
    obtain ⟨ho, h⟩ := steps_requireBool_done h
    rw [steps_one] at h
    simp only [(onlySends_command _ s u h).trace, eventsOf, scrollByte, flagOf_eq right ho, decide_eq_true_eq]
    rfl
  | loadGlyph slot p0 p1 p2 p3 p4 p5 p6 p7 =>
    rw [bodyOf, loadGlyph] at h
    obtain ⟨-, h⟩ := steps_requireReady_done h
    have hs := (onlySends_command (glyphByte slot)).cons ((onlySends_writeAll _).cons onlySends_nil) s u h
    simpa [eventsOf, loadGlyphEvents] using hs.trace
  | print cs =>
    rw [bodyOf, print] at h
    obtain ⟨-, h⟩ := steps_requireReady_done h
    obtain ⟨-, h⟩ := steps_require_done h
    rw [steps_one] at h
    exact (onlySends_printAll cs s u h).trace
  | backlight on =>
    rw [bodyOf, backlight] at h
    obtain ⟨-, h⟩ := steps_requireReady_done h
    rw [steps_one] at h
    exact (setBacklight_done h).2.trace

theorem Completes.trace_eq {i : Instr} (hi : isUpperCommand i = true) {s t : State} (h : Completes i s t) :
    t.trace = s.trace ++ eventsOf s i := by
  obtain ⟨u, hu, rfl⟩ := h.body
  simpa [show eventsOf (s.begin i) i = eventsOf s i by cases i <;> rfl] using bodyOf_done_trace hi hu

end Sys2Proof.Machine
end

section
/-! PROOFS. What a send delivers to the display (R75, R77): its expander bytes, the nibbles they latch, the logical bytes
these pair up to. -/

namespace Sys2Proof.Machine

/-! ## The expander's bytes of each send (R75) -/

theorem targetBytes_sendNibble (addr : BitVec 7) (bl : Bool) (x : Byte) (p : BusPos) (t : List Event) :
    targetBytes (addrByte addr) p (sendNibbleEvents addr bl x ++ t) =
      (x ||| blMask bl) :: targetBytes (addrByte addr) .closed t := by
  cases p <;> simp [sendNibbleEvents, busWriteEvents, targetBytes, BusPos.after]

theorem targetBytes_delay (a : Byte) (n : Nat) (p : BusPos) (t : List Event) :
    targetBytes a p (.delay n :: t) = targetBytes a p t := by
  cases p <;> simp [targetBytes, BusPos.after]

/-- The three bytes of a nibble transfer: as it stands, with the enable bit set, with it cleared (R102, R141). -/
def transferBytes (bl : Bool) (x : Byte) : List Byte :=
  [x ||| blMask bl, enableSet x ||| blMask bl, enableClear x ||| blMask bl]

theorem targetBytes_nibbleTransfer (addr : BitVec 7) (bl : Bool) (x : Byte) (p : BusPos) (t : List Event) :
    targetBytes (addrByte addr) p (nibbleTransferEvents addr bl x ++ t) =
      transferBytes bl x ++ targetBytes (addrByte addr) .closed t := by
  simp [nibbleTransferEvents, pulseLatchEvents_eq, transferBytes, targetBytes_sendNibble, targetBytes_delay]

/-! ## The enable line (R77) -/

/-- The enable line of an expander byte is low. -/
def EnableLow (b : Byte) : Prop := hasFlag Config.bitEN b = false

theorem enableLow_zero : EnableLow 0 := rfl

/-- The backlight mask leaves the enable line alone. -/
theorem enable_mask (x : Byte) (bl : Bool) : hasFlag Config.bitEN (x ||| blMask bl) = hasFlag Config.bitEN x := by
  revert x bl; decide

theorem enable_set (x : Byte) : hasFlag Config.bitEN (enableSet x) = true := by
  revert x; decide

theorem enable_clear (x : Byte) : hasFlag Config.bitEN (enableClear x) = false := by
  revert x; decide

/-- What the display latches of a byte does not depend on the enable and backlight lines. -/
theorem latchOf_pulse (x : Byte) (bl : Bool) : latchOf (enableClear x ||| blMask bl) = latchOf x := by
  revert x bl; decide

/-- A nibble transfer latches its nibble once and leaves the enable line low. -/
theorem latchFrom_transfer {prev x : Byte} (bl : Bool) (hx : EnableLow x) (bs : List Byte) :
    latchFrom prev (transferBytes bl x ++ bs) =
      (if hasFlag Config.bitEN prev then [latchOf (x ||| blMask bl)] else []) ++
        latchOf x :: latchFrom (enableClear x ||| blMask bl) bs := by
  simp only [EnableLow] at hx
  cases h : hasFlag Config.bitEN prev <;>
    simp [transferBytes, latchFrom, enable_mask, enable_set, enable_clear, latchOf_pulse, hx, h]

theorem byte_of_le_one {m : Byte} (h : m.toNat ≤ 1) : m = 0 ∨ m = 1 := by
  rw [← BitVec.toNat_inj, ← BitVec.toNat_inj]; simp; omega

theorem enableLow_hiNibble (v : Byte) {m : Byte} (h : m.toNat ≤ 1) : EnableLow (hiNibble v m) := by
  obtain rfl | rfl := byte_of_le_one h <;> revert v <;> unfold EnableLow <;> decide

theorem enableLow_loNibble (v : Byte) {m : Byte} (h : m.toNat ≤ 1) : EnableLow (loNibble v m) := by
  obtain rfl | rfl := byte_of_le_one h <;> revert v <;> unfold EnableLow <;> decide

theorem latchOf_hiNibble (v : Byte) {m : Byte} (h : m.toNat ≤ 1) :
    latchOf (hiNibble v m) = (decide (m = 1), v.extractLsb' 4 4) := by
  obtain rfl | rfl := byte_of_le_one h <;> revert v <;> decide

theorem latchOf_loNibble (v : Byte) {m : Byte} (h : m.toNat ≤ 1) :
    latchOf (loNibble v m) = (decide (m = 1), v.extractLsb' 0 4) := by
  obtain rfl | rfl := byte_of_le_one h <;> revert v <;> decide

theorem nibbles_append (v : Byte) : v.extractLsb' 4 4 ++ v.extractLsb' 0 4 = v := by
  revert v; decide

/-- SENDBYTE's six expander bytes. -/
theorem targetBytes_sendByte (addr : BitVec 7) (bl : Bool) (v m : Byte) (p : BusPos) :
    targetBytes (addrByte addr) p (sendByteEvents addr bl v m) =
      transferBytes bl (hiNibble v m) ++ transferBytes bl (loNibble v m) := by
  have h := targetBytes_nibbleTransfer addr bl (loNibble v m) .closed []
  rw [List.append_nil] at h
  rw [sendByteEvents, targetBytes_nibbleTransfer, h, targetBytes, List.append_nil]

/-- From a low enable line SENDBYTE latches the high nibble, then the low nibble, and no more. -/
theorem latchFrom_sendByte {prev m : Byte} (bl : Bool) (v : Byte) (hp : EnableLow prev) (hm : m.toNat ≤ 1) :
    latchFrom prev (transferBytes bl (hiNibble v m) ++ transferBytes bl (loNibble v m)) =
      [(decide (m = 1), v.extractLsb' 4 4), (decide (m = 1), v.extractLsb' 0 4)] := by
  have hp : hasFlag Config.bitEN prev = false := hp
  have h := latchFrom_transfer (prev := enableClear (hiNibble v m) ||| blMask bl) bl (enableLow_loNibble v hm) []
  rw [List.append_nil] at h
  rw [latchFrom_transfer bl (enableLow_hiNibble v hm), h]
  simp [hp, enable_mask, enable_clear, latchFrom, latchOf_hiNibble v hm, latchOf_loNibble v hm]

theorem getLastD_append {α : Type} (l r : List α) (d : α) : (l ++ r).getLastD d = r.getLastD (l.getLastD d) := by
  simp only [List.getLastD_eq_getLast?, List.getLast?_append]
  cases r.getLast? <;> rfl

/-! ## What events deliver to the display -/

/-- The events `evs`, which begin and end outside a transaction, deliver the logical bytes `l` and no nibble besides,
from any place on the bus and any expander byte whose enable line is low, and leave that line low. -/
structure Delivers (addr : BitVec 7) (evs : List Event) (l : List (Bool × Byte)) : Prop where
  framed : framing evs = some false
  even : ∀ p prev, EnableLow prev → 2 ∣ (latchFrom prev (targetBytes (addrByte addr) p evs)).length
  pairs : ∀ p prev, EnableLow prev → pairNibbles (latchFrom prev (targetBytes (addrByte addr) p evs)) = l
  enable : ∀ p prev, EnableLow prev → EnableLow ((targetBytes (addrByte addr) p evs).getLastD prev)

theorem Delivers.append {addr : BitVec 7} {e₁ e₂ : List Event} {l₁ l₂ : List (Bool × Byte)} (h₁ : Delivers addr e₁ l₁)
    (h₂ : Delivers addr e₂ l₂) : Delivers addr (e₁ ++ e₂) (l₁ ++ l₂) where
  framed := by rw [framing_append, h₁.framed]; exact h₂.framed
  even p prev hp := by
    rw [targetBytes_append, latchFrom_append, List.length_append]
    exact Nat.dvd_add (h₁.even p prev hp) (h₂.even _ _ (h₁.enable p prev hp))
  pairs p prev hp := by
    rw [targetBytes_append, latchFrom_append, pairNibbles_append (h₁.even p prev hp), h₁.pairs p prev hp,
      h₂.pairs _ _ (h₁.enable p prev hp)]
  enable p prev hp := by
    rw [targetBytes_append, getLastD_append]
    exact h₂.enable _ _ (h₁.enable p prev hp)

/-- Events after which nothing has reached the target deliver nothing. -/
theorem delivers_delay (addr : BitVec 7) (n : Nat) : Delivers addr [.delay n] [] where
  framed := rfl
  even p prev _ := by simp [targetBytes, latchFrom]
  pairs p prev _ := by simp [targetBytes, latchFrom, pairNibbles]
  enable p prev hp := by simpa [targetBytes] using hp

theorem delivers_nil (addr : BitVec 7) : Delivers addr [] [] where
  framed := rfl
  even p prev _ := by simp [targetBytes, latchFrom]
  pairs p prev _ := by simp [targetBytes, latchFrom, pairNibbles]
  enable p prev hp := by simpa [targetBytes] using hp

/-- A lone byte with the enable line low latches nothing. -/
theorem delivers_sendNibble (addr : BitVec 7) (bl : Bool) {x : Byte} (hx : EnableLow x) :
    Delivers addr (sendNibbleEvents addr bl x) [] := by
  have hb : ∀ p, targetBytes (addrByte addr) p (sendNibbleEvents addr bl x) = [x ||| blMask bl] := fun p => by
    simpa [targetBytes] using targetBytes_sendNibble addr bl x p []
  have hl : ∀ prev, EnableLow prev → latchFrom prev [x ||| blMask bl] = [] := fun prev hp => by
    have hp : hasFlag Config.bitEN prev = false := hp
    simp [latchFrom, hp]
  refine ⟨rfl, fun p prev hp => ?_, fun p prev hp => ?_, fun p prev _ => ?_⟩
  · simp [hb, hl prev hp]
  · simp [hb, hl prev hp, pairNibbles]
  · simpa [hb, EnableLow, enable_mask] using hx

/-- A logical byte is delivered as itself, with its register-select bit (R77, R101, R142). -/
theorem delivers_sendByte (addr : BitVec 7) (bl : Bool) (v : Byte) {m : Byte} (hm : m.toNat ≤ 1) :
    Delivers addr (sendByteEvents addr bl v m) [(decide (m = 1), v)] where
  framed := rfl
  even p prev hp := by rw [targetBytes_sendByte, latchFrom_sendByte bl v hp hm]; simp
  pairs p prev hp := by
    rw [targetBytes_sendByte, latchFrom_sendByte bl v hp hm]
    simp [pairNibbles, nibbles_append]
  enable p prev hp := by
    rw [targetBytes_sendByte]
    simp [transferBytes, EnableLow, enable_mask, enable_clear]

theorem delivers_command (addr : BitVec 7) (bl : Bool) (b : Byte) :
    Delivers addr (commandEvents addr bl b) [(false, b)] := delivers_sendByte addr bl b (by decide)

theorem delivers_data (addr : BitVec 7) (bl : Bool) (b : Byte) : Delivers addr (dataEvents addr bl b) [(true, b)] :=
  delivers_sendByte addr bl b (by decide)

theorem delivers_homing (addr : BitVec 7) (bl : Bool) (b : Byte) :
    Delivers addr (homingEvents addr bl b) [(false, b)] :=
  (delivers_command addr bl b).append (delivers_delay addr 2000)

theorem delivers_dataAll (addr : BitVec 7) (bl : Bool) (ps : List Byte) :
    Delivers addr (ps.flatMap (dataEvents addr bl)) (ps.map (true, ·)) := by
  induction ps with
  | nil => exact delivers_nil addr
  | cons p ps ih => exact (delivers_data addr bl p).append ih

theorem delivers_print (addr : BitVec 7) (bl : Bool) (cs : List Byte) :
    Delivers addr (printEvents addr bl cs) (cs.map (true, ·)) := by
  induction cs with
  | nil => exact delivers_nil addr
  | cons c cs ih => exact ((delivers_data addr bl c).append (delivers_delay addr Config.tCharUs)).append ih

theorem delivers_loadGlyph (addr : BitVec 7) (bl : Bool) (slot : Byte) (ps : List Byte) :
    Delivers addr (loadGlyphEvents addr bl slot ps) ((false, glyphByte slot) :: ps.map (true, ·)) :=
  (delivers_command addr bl (glyphByte slot)).append (delivers_dataAll addr bl ps)

/-! ## A logical byte on its way to the display -/

theorem delay_mem_sendByte {addr : BitVec 7} {bl : Bool} {v m : Byte} {n : Nat}
    (h : .delay n ∈ sendByteEvents addr bl v m) : n = 1 ∨ n = 50 := by
  have : n = 1 ∨ n = 50 ∨ n = 1 ∨ n = 50 := by
    simpa [sendByteEvents, nibbleTransferEvents, pulseLatchEvents, sendNibbleEvents, busWriteEvents, or_assoc] using h
  omega

theorem backlight_mask (bl : Bool) (x : Byte) (h : x &&& 0x08 = 0) : (x ||| blMask bl) &&& 0x08 ≠ 0 ↔ bl = true := by
  revert bl x; decide

theorem backlight_enableSet (x : Byte) : enableSet x &&& 0x08 = x &&& 0x08 := by revert x; decide

theorem backlight_enableClear (x : Byte) : enableClear x &&& 0x08 = x &&& 0x08 := by revert x; decide

/-- Every byte of a nibble transfer carries the backlight bit exactly when the flag is set (R102, R140). -/
theorem backlight_transfer {bl : Bool} {x b : Byte} (hx : x &&& 0x08 = 0) (hb : b ∈ transferBytes bl x) :
    b &&& 0x08 ≠ 0 ↔ bl = true := by
  simp only [transferBytes, List.mem_cons, List.not_mem_nil, or_false] at hb
  obtain rfl | rfl | rfl := hb
  · exact backlight_mask bl x hx
  · exact backlight_mask bl _ ((backlight_enableSet x).trans hx)
  · exact backlight_mask bl _ ((backlight_enableClear x).trans hx)

theorem backlight_hiNibble (v : Byte) {m : Byte} (h : m.toNat ≤ 1) : hiNibble v m &&& 0x08 = 0 := by
  obtain rfl | rfl := byte_of_le_one h <;> revert v <;> decide

theorem backlight_loNibble (v : Byte) {m : Byte} (h : m.toNat ≤ 1) : loNibble v m &&& 0x08 = 0 := by
  obtain rfl | rfl := byte_of_le_one h <;> revert v <;> decide

/-- Settles O51: SENDBYTE's six expander bytes latch two nibbles, which `Delivers` pairs. -/
theorem logicalByteIsTwoLatchedNibbles : Obligations.LogicalByteIsTwoLatchedNibbles := by
  intro addr bl v m hm
  have hl : latched (addrByte addr) (sendByteEvents addr bl v m) =
      [(decide (m = 1), v.extractLsb' 4 4), (decide (m = 1), v.extractLsb' 0 4)] := by
    rw [latched, targetBytes_sendByte, latchFrom_sendByte bl v enableLow_zero hm]
  refine ⟨hl, ?_, fun b hb => ?_⟩
  · have hd : Event.delay 40000 ∉ sendByteEvents addr bl v m := fun h => by simpa using delay_mem_sendByte h
    rw [logicalBytes_of_not_mem addr hd]
    exact (delivers_sendByte addr bl v hm).pairs .closed 0 enableLow_zero
  · change b ∈ targetBytes (addrByte addr) .closed (sendByteEvents addr bl v m) at hb
    rw [targetBytes_sendByte, List.mem_append] at hb
    obtain hb | hb := hb
    · exact backlight_transfer (backlight_hiNibble v hm) hb
    · exact backlight_transfer (backlight_loNibble v hm) hb

end Sys2Proof.Machine
end

section
/-! PROOFS. Which events are no part of an INIT handshake, and how the byte boundary (R231) and the logical bytes go over
a trace that grows by such events or by a handshake. -/

namespace Sys2Proof.Machine

/-! ## The last piece of a trace -/

/-- A trace is its only piece, or its last piece stands right after a handshake. -/
theorem betweenHandshakes_last {hs : List Event} (h : hs ≠ []) (t : List Event) :
    betweenHandshakes hs 0 t = [t] ∨
      2 ≤ (betweenHandshakes hs 0 t).length ∧ ∃ q, t = q ++ (hs ++ (betweenHandshakes hs 0 t).getLastD []) := by
  induction hn : t.length using Nat.strong_induction_on generalizing t with
  | _ n ih =>
  cases t with
  | nil => exact .inl rfl
  | cons e t =>
    by_cases hp : hs <+: e :: t
    · obtain ⟨t', ht⟩ := hp
      have hl : t'.length < n := by
        have h1 := congrArg List.length ht
        have h2 := List.length_pos_iff.2 h
        simp at h1 hn
        omega
      obtain ⟨p, m, hpm⟩ := List.exists_cons_of_ne_nil (betweenHandshakes_ne_nil hs 0 t')
      have hlast : (betweenHandshakes hs 0 (e :: t)).getLastD [] = (betweenHandshakes hs 0 t').getLastD [] := by
        rw [← ht, betweenHandshakes_prefix h, hpm]; simp
      refine .inr ⟨by rw [← ht, betweenHandshakes_prefix h, hpm]; simp, ?_⟩
      rw [hlast, ← ht]
      obtain h1 | ⟨-, q, h1⟩ := ih _ hl t' rfl
      · exact ⟨[], by rw [h1]; rfl⟩
      · exact ⟨hs ++ q, by rw [List.append_assoc, ← h1]⟩
    · obtain ⟨p, m, h1, h2⟩ := betweenHandshakes_cons hp
      obtain h3 | ⟨h3, q, h4⟩ := ih t.length (by simp at hn; omega) t rfl
      · rw [h3] at h1
        cases h1
        exact .inl h2
      · rw [h1] at h3 h4
        rw [h2]
        cases m with
        | nil => simp at h3
        | cons d m => exact .inr ⟨by simp, e :: q, by rw [h4]; simp⟩

/-- A handshake ends with its bus closed. -/
theorem busPosAfter_handshake (addr : BitVec 7) (a : Byte) (p : BusPos) :
    busPosAfter a p (handshakeEvents addr) = .closed := by
  simp [busPosAfter, handshakeEvents, nibbleTransferEvents, pulseLatchEvents, sendNibbleEvents, busWriteEvents,
    BusPos.after]

/-- Where the enable line is low at the end of a trace it is low at the end of the bytes of its last piece. -/
theorem enableLow_lastPiece {addr : BitVec 7} {t : List Event}
    (h : EnableLow ((targetBytes (addrByte addr) .closed t).getLastD 0)) :
    EnableLow ((targetBytes (addrByte addr) .closed ((piecesOf addr t).getLastD [])).getLastD 0) := by
  obtain h1 | ⟨-, q, h1⟩ := betweenHandshakes_last (hs := handshakeEvents addr) (by simp [handshakeEvents]) t
  · rw [piecesOf, h1]; exact h
  · rw [← piecesOf] at h1
    generalize (piecesOf addr t).getLastD [] = piece at h1 ⊢
    subst h1
    rw [← List.append_assoc, targetBytes_append, busPosAfter, List.foldl_append, ← busPosAfter, busPosAfter_handshake,
      getLastD_append] at h
    cases hb : targetBytes (addrByte addr) .closed piece with
    | nil => exact enableLow_zero
    | cons b bs => rw [hb, List.getLastD_cons] at h; rwa [List.getLastD_cons]

/-! ## Events that are no part of a handshake -/

/-- The events neither hold a handshake nor go on with one that has begun, and so belong to the last piece. -/
def NoHandshake (addr : BitVec 7) (evs : List Event) : Prop :=
  (∀ v, v <:+ evs → ¬ handshakeEvents addr <+: v) ∧
    ∀ k, 0 < k → k < (handshakeEvents addr).length → ¬ (handshakeEvents addr).drop k <+: evs

theorem piecesOf_append {addr : BitVec 7} {evs : List Event} (h : NoHandshake addr evs) (t : List Event) :
    piecesOf addr (t ++ evs) = (piecesOf addr t).dropLast ++ [(piecesOf addr t).getLastD [] ++ evs] :=
  betweenHandshakes_append (by simp [handshakeEvents]) h.1 h.2 t

/-- A handshake holds the delays of 40000 and of 4500 microseconds: events without one of them hold none. -/
theorem not_handshake_of_delays {addr : BitVec 7} {evs : List Event}
    (h : Event.delay 40000 ∉ evs ∨ Event.delay 4500 ∉ evs) : ∀ v, v <:+ evs → ¬ handshakeEvents addr <+: v := by
  intro v hv hp
  have hsub : ∀ e ∈ handshakeEvents addr, e ∈ evs := fun e he => hv.subset (hp.subset he)
  obtain h | h := h <;> exact h (hsub _ (by simp [handshakeEvents]))

/-- An event but for the byte that it writes. -/
def Event.shape : Event → Event
  | .write _ => .write 0
  | .start => .start
  | .read v => .read v
  | .stop => .stop
  | .delay n => .delay n

/-- Whatever the bytes, SENDBYTE's events go on with a handshake at most where its last nibble transfer begins. -/
theorem handshake_shape : ∀ k < 64, 0 < k →
    (((handshakeEvents 0).map Event.shape).drop k).take 28 <+: (sendByteEvents 0 false 0 0).map Event.shape →
    k = 50 := by
  decide

theorem handshake_shape_sendNibble : ∀ k < 64, 0 < k →
    ¬ (((handshakeEvents 0).map Event.shape).drop k) <+: (sendNibbleEvents 0 false 0).map Event.shape := by
  decide

theorem shape_handshake (addr : BitVec 7) :
    (handshakeEvents addr).map Event.shape = (handshakeEvents 0).map Event.shape := rfl

theorem shape_sendByte (addr : BitVec 7) (bl : Bool) (v m : Byte) :
    (sendByteEvents addr bl v m).map Event.shape = (sendByteEvents 0 false 0 0).map Event.shape := rfl

theorem shape_sendNibble (addr : BitVec 7) (bl : Bool) (x : Byte) :
    (sendNibbleEvents addr bl x).map Event.shape = (sendNibbleEvents 0 false 0).map Event.shape := rfl

theorem length_handshake (addr : BitVec 7) : (handshakeEvents addr).length = 64 := rfl

/-- A logical byte whose first expander byte is not that of the handshake's last nibble goes on with no handshake,
whatever follows it. -/
theorem not_drop_handshake_sendByte {addr : BitVec 7} {bl : Bool} {v m : Byte} (r : List Event)
    (h : hiNibble v m ||| blMask bl ≠ 0x28) :
    ∀ k, 0 < k → k < (handshakeEvents addr).length →
      ¬ (handshakeEvents addr).drop k <+: sendByteEvents addr bl v m ++ r := by
  intro k h0 hk hp
  rw [length_handshake] at hk
  have hshape := (hp.take 28).map Event.shape
  rw [List.take_left' (show (sendByteEvents addr bl v m).length = 28 from rfl), shape_sendByte, List.map_take,
    List.map_drop, shape_handshake] at hshape
  obtain rfl := handshake_shape k hk h0 hshape
  obtain ⟨q, hq⟩ := hp
  have hbyte : Event.write (0x20 ||| blMask true) = Event.write (hiNibble v m ||| blMask bl) :=
    Option.some.inj (congrArg (·[2]?) hq)
  exact h (Event.write.inj hbyte).symm

theorem noHandshake_nil (addr : BitVec 7) : NoHandshake addr [] := by
  refine ⟨not_handshake_of_delays (by simp), fun k _ hk hp => ?_⟩
  have := List.drop_eq_nil_iff.1 (List.prefix_nil.1 hp)
  omega

theorem noHandshake_sendNibble (addr : BitVec 7) (bl : Bool) (x : Byte) :
    NoHandshake addr (sendNibbleEvents addr bl x) := by
  refine ⟨not_handshake_of_delays (by simp [sendNibbleEvents, busWriteEvents]), fun k h0 hk hp => ?_⟩
  have hshape := hp.map Event.shape
  rw [shape_sendNibble, List.map_drop, shape_handshake] at hshape
  exact handshake_shape_sendNibble k hk h0 hshape

/-- The handshake's last nibble is 0x2: no command byte with another high nibble is taken for it. -/
theorem commandNibble_ne : ∀ (b : Byte) (bl : Bool), b &&& 0xF0 ≠ 0x20 → hiNibble b 0x00 ||| blMask bl ≠ 0x28 := by
  decide

/-- A data byte has the register-select bit, which no nibble of the handshake has. -/
theorem dataNibble_ne : ∀ (b : Byte) (bl : Bool), hiNibble b Config.bitRS ||| blMask bl ≠ 0x28 := by decide

theorem noHandshake_command {addr : BitVec 7} {b : Byte} {r : List Event} (bl : Bool) (hb : b &&& 0xF0 ≠ 0x20)
    (hr : Event.delay 40000 ∉ r) : NoHandshake addr (commandEvents addr bl b ++ r) := by
  refine ⟨not_handshake_of_delays (.inl ?_), not_drop_handshake_sendByte r (commandNibble_ne b bl hb)⟩
  rw [List.mem_append, not_or]
  exact ⟨fun h => by simpa using delay_mem_sendByte h, hr⟩

theorem noHandshake_command_alone {addr : BitVec 7} {b : Byte} (bl : Bool) (hb : b &&& 0xF0 ≠ 0x20) :
    NoHandshake addr (commandEvents addr bl b) := by
  simpa using noHandshake_command bl hb (r := []) (by simp)

theorem delay_mem_dataAll {addr : BitVec 7} {bl : Bool} {ps : List Byte} {n : Nat}
    (h : .delay n ∈ ps.flatMap (dataEvents addr bl)) : n = 1 ∨ n = 50 := by
  obtain ⟨p, -, hp⟩ := List.mem_flatMap.1 h
  exact delay_mem_sendByte hp

theorem delay_mem_print {addr : BitVec 7} {bl : Bool} {cs : List Byte} {n : Nat}
    (h : .delay n ∈ printEvents addr bl cs) : n = 1 ∨ n = 50 ∨ n = Config.tCharUs := by
  obtain ⟨c, -, hc⟩ := List.mem_flatMap.1 h
  obtain hc | hc := List.mem_append.1 hc
  · have := delay_mem_sendByte hc
    omega
  · simp at hc
    omega

/-- `T_CHAR_US`, whatever it is, is not both of the delays that a handshake holds. -/
theorem noHandshake_print (addr : BitVec 7) (bl : Bool) (cs : List Byte) :
    NoHandshake addr (printEvents addr bl cs) := by
  cases cs with
  | nil => exact noHandshake_nil addr
  | cons c cs =>
    refine ⟨not_handshake_of_delays ?_, ?_⟩
    · by_contra h
      rw [not_or, not_not, not_not] at h
      have h1 := delay_mem_print h.1
      have h2 := delay_mem_print h.2
      omega
    · rw [printEvents, List.flatMap_cons, List.append_assoc]
      exact not_drop_handshake_sendByte _ (dataNibble_ne c bl)

/-! ## The cache and the byte boundary over a growing trace -/

theorem lastOfClass_append (isClass : Byte → Bool) (l r : List (Bool × Byte)) :
    lastOfClass isClass (l ++ r) = (lastOfClass isClass r).or (lastOfClass isClass l) := by
  simp [lastOfClass, List.getLast?_append]

theorem exists_lastPiece (addr : BitVec 7) (t : List Event) : ∃ q p, piecesOf addr t = q ++ [p] :=
  ⟨_, _, (List.dropLast_concat_getLast (betweenHandshakes_ne_nil (handshakeEvents addr) 0 t)).symm⟩

/-- Events that deliver the logical bytes `l` and are no part of a handshake add `l` to what was sent, from one byte
boundary to the next. -/
theorem ByteBoundary.delivers {s t : State} {evs : List Event} {l : List (Bool × Byte)} (hs : ByteBoundary s)
    (ha : t.addr = s.addr) (ht : t.trace = s.trace ++ evs) (hn : NoHandshake s.addr evs) (hd : Delivers s.addr evs l) :
    ByteBoundary t ∧ t.sentBytes = s.sentBytes ++ l := by
  obtain ⟨hf, he, hl⟩ := hs
  rw [← List.getLastD_eq_getLast?, State.busBytes] at hl
  have hlow := enableLow_lastPiece hl
  rw [State.lastNibbles] at he
  have hp := piecesOf_append hn s.trace
  obtain ⟨q, p, hq⟩ := exists_lastPiece s.addr s.trace
  rw [hq] at he hlow hp
  simp only [List.dropLast_concat, List.getLastD_concat] at he hlow hp
  have hlatch : latched (addrByte s.addr) (p ++ evs) = latched (addrByte s.addr) p ++
      latchFrom ((targetBytes (addrByte s.addr) .closed p).getLastD 0)
        (targetBytes (addrByte s.addr) (busPosAfter (addrByte s.addr) .closed p) evs) := by
    rw [latched, latched, targetBytes_append, latchFrom_append]
  refine ⟨⟨?_, ?_, ?_⟩, ?_⟩
  · rw [ht, framing_append, hf]
    exact hd.framed
  · rw [State.lastNibbles, ha, ht, hp, List.getLastD_concat, hlatch, List.length_append]
    exact Nat.dvd_add he (hd.even _ _ hlow)
  · rw [State.busBytes, ha, ht, targetBytes_append, ← List.getLastD_eq_getLast?, getLastD_append]
    exact hd.enable _ _ hl
  · rw [State.sentBytes, State.sentBytes, ha, ht, logicalBytes, logicalBytes, hp, hq, List.flatMap_append,
      List.flatMap_append, List.flatMap_singleton, List.flatMap_singleton, hlatch, pairNibbles_append he,
      hd.pairs _ _ hlow, List.append_assoc]

theorem piecesOf_handshake (addr : BitVec 7) (t r : List Event) :
    piecesOf addr (t ++ (handshakeEvents addr ++ r)) = piecesOf addr t ++ piecesOf addr r :=
  betweenHandshakes_parts (e := .delay 40000) (hs := (handshakeEvents addr).tail)
    (by simp [handshakeEvents, sendNibbleEvents, nibbleTransferEvents, pulseLatchEvents, busWriteEvents]) t r

theorem enableLow_handshake (addr : BitVec 7) (p : BusPos) (prev : Byte) :
    EnableLow ((targetBytes (addrByte addr) p (handshakeEvents addr)).getLastD prev) := by
  obtain ⟨l, hl⟩ : ∃ l, handshakeEvents addr = l ++ nibbleTransferEvents addr true 0x20 := ⟨_, rfl⟩
  have h := targetBytes_nibbleTransfer addr true 0x20 (busPosAfter (addrByte addr) p l) []
  rw [List.append_nil] at h
  rw [hl, targetBytes_append, h]
  simp only [transferBytes, targetBytes, getLastD_append]
  exact (enable_mask _ true).trans (enable_clear _)

/-- A handshake and events without another one after it put the trace at a byte boundary, whatever stands before. -/
theorem ByteBoundary.handshake {t : State} {before evs : List Event} {l : List (Bool × Byte)}
    (ht : t.trace = before ++ (handshakeEvents t.addr ++ evs)) (hf : framing before = some false)
    (hm : Event.delay 40000 ∉ evs) (hd : Delivers t.addr evs l) :
    ByteBoundary t ∧ t.sentBytes = logicalBytes t.addr before ++ l := by
  have hp := piecesOf_handshake t.addr before evs
  rw [piecesOf_of_not_mem t.addr hm] at hp
  refine ⟨⟨?_, ?_, ?_⟩, ?_⟩
  · rw [ht, framing_append, hf, List.foldl_append]
    exact hd.framed
  · rw [State.lastNibbles, ht, hp, List.getLastD_concat]
    exact hd.even _ _ enableLow_zero
  · rw [State.busBytes, ht, targetBytes_append, targetBytes_append, ← List.getLastD_eq_getLast?, getLastD_append,
      getLastD_append]
    exact hd.enable _ _ (enableLow_handshake _ _ _)
  · rw [State.sentBytes, ht, logicalBytes_handshake, logicalBytes_of_not_mem t.addr hm]
    congr 1
    exact hd.pairs _ _ enableLow_zero

end Sys2Proof.Machine
end

section
/-! PROOFS. The cache invariant (R41): which bytes are of which class, and what each DisplayController command sends. -/

namespace Sys2Proof.Machine

/-! ## Classes of command byte (R37 to R39) -/

/-- The byte is of none of the three classes that the block caches. -/
def Unclassed (b : Byte) : Prop :=
  functionSetClass b = false ∧ isDisplayControl b = false ∧ isEntryMode b = false

theorem unclassed_clear : Unclassed 0x01 := by unfold Unclassed; decide

theorem unclassed_home : Unclassed 0x02 := by unfold Unclassed; decide

theorem unclassed_setDdram (x : Byte) : Unclassed (Config.cmdSetDdram ||| x) := by
  refine ⟨?_, ?_, ?_⟩ <;> revert x <;> decide

theorem unclassed_glyphByte (slot : Byte) : Unclassed (glyphByte slot) := by
  refine ⟨?_, ?_, ?_⟩ <;> revert slot <;> decide

theorem displayControl_other : ∀ b : Byte, isDisplayControl b = true →
    functionSetClass b = false ∧ isEntryMode b = false := by
  decide

theorem entryMode_other : ∀ b : Byte, isEntryMode b = true →
    functionSetClass b = false ∧ isDisplayControl b = false := by
  decide

theorem functionSet_classes (rows : Byte) (font : Bool) : functionSetClass (functionSet rows font) = true ∧
    isDisplayControl (functionSet rows font) = false ∧ isEntryMode (functionSet rows font) = false := by
  unfold functionSet
  split <;> split <;> decide

theorem highNibble_displayControl : ∀ b : Byte, isDisplayControl b = true → b &&& 0xF0 ≠ 0x20 := by decide

theorem highNibble_entryMode : ∀ b : Byte, isEntryMode b = true → b &&& 0xF0 ≠ 0x20 := by decide

theorem highNibble_setDdram (x : Byte) : (Config.cmdSetDdram ||| x) &&& 0xF0 ≠ 0x20 := by revert x; decide

theorem highNibble_glyphByte (slot : Byte) : glyphByte slot &&& 0xF0 ≠ 0x20 := by revert slot; decide

/-- Setting or clearing a flag leaves the bits under a mask that does not hold it. -/
theorem setFlag_and {f m : Byte} (h : f &&& m = 0) (on : Bool) (v : Byte) : setFlag f on v &&& m = v &&& m := by
  ext i hi
  have hbit : (f[i] && m[i]) = false := by simpa using congrArg (fun w : Byte => w[i]) h
  cases on <;> cases hf : f[i] <;> cases hm : m[i] <;> simp_all [setFlag]

theorem setFlag_displayControl {f v : Byte} (hf : f &&& 0xF8 = 0) (on : Bool) (h : isDisplayControl v = true) :
    isDisplayControl (setFlag f on v) = true := by
  rw [isDisplayControl, setFlag_and hf]; exact h

theorem setFlag_entryMode {f v : Byte} (hf : f &&& 0xFC = 0) (on : Bool) (h : isEntryMode v = true) :
    isEntryMode (setFlag f on v) = true := by
  rw [isEntryMode, setFlag_and hf]; exact h

/-! ## The cache over delivered bytes -/

theorem lastOfClass_eq_none {isClass : Byte → Bool} {l : List (Bool × Byte)}
    (h : ∀ x ∈ l, x.1 = true ∨ isClass x.2 = false) : lastOfClass isClass l = none := by
  have : l.filter (fun x => !x.1 && isClass x.2) = [] := by
    rw [List.filter_eq_nil_iff]
    intro x hx
    obtain hx | hx := h x hx <;> simp [hx]
  simp [lastOfClass, this]

theorem lastOfClass_single {isClass : Byte → Bool} {b : Byte} (h : isClass b = true) :
    lastOfClass isClass [(false, b)] = some b := by simp [lastOfClass, h]

theorem lastOfClass_single_other {isClass : Byte → Bool} {b : Byte} (h : isClass b = false) :
    lastOfClass isClass [(false, b)] = none := by simp [lastOfClass, h]

/-- Data bytes and command bytes of no class leave the cache as current as it was. -/
theorem CacheCurrent.unclassed {s t : State} {l : List (Bool × Byte)} (hs : CacheCurrent s)
    (hl : ∀ x ∈ l, x.1 = true ∨ Unclassed x.2) (hb : t.sentBytes = s.sentBytes ++ l)
    (hf : t.func = s.func) (hc : t.ctrl = s.ctrl) (hm : t.mode = s.mode) : CacheCurrent t := by
  obtain ⟨h1, h2, h3⟩ := hs
  have k1 := lastOfClass_eq_none fun x hx => (hl x hx).imp_right fun ⟨h, _, _⟩ => h
  have k2 := lastOfClass_eq_none fun x hx => (hl x hx).imp_right fun ⟨_, h, _⟩ => h
  have k3 := lastOfClass_eq_none fun x hx => (hl x hx).imp_right fun ⟨_, _, h⟩ => h
  refine ⟨?_, ?_, ?_⟩
  · rw [hb, lastOfClass_append, k1, Option.none_or, h1, hf]
  · rw [hb, lastOfClass_append, k2, Option.none_or, h2, hc]
  · rw [hb, lastOfClass_append, k3, Option.none_or, h3, hm]

/-- The new CTRL byte, sent as a command, is the last of its class. -/
theorem CacheCurrent.displayControl {s t : State} (hs : CacheCurrent s) (hc : isDisplayControl t.ctrl = true)
    (hb : t.sentBytes = s.sentBytes ++ [(false, t.ctrl)]) (hf : t.func = s.func) (hm : t.mode = s.mode) :
    CacheCurrent t := by
  obtain ⟨h1, -, h3⟩ := hs
  obtain ⟨k1, k3⟩ := displayControl_other _ hc
  refine ⟨?_, ?_, ?_⟩
  · rw [hb, lastOfClass_append, lastOfClass_single_other k1, Option.none_or, h1, hf]
  · rw [hb, lastOfClass_append, lastOfClass_single hc, Option.some_or]
  · rw [hb, lastOfClass_append, lastOfClass_single_other k3, Option.none_or, h3, hm]

/-- The new MODE byte, sent as a command, is the last of its class. -/
theorem CacheCurrent.entryMode {s t : State} (hs : CacheCurrent s) (hm : isEntryMode t.mode = true)
    (hb : t.sentBytes = s.sentBytes ++ [(false, t.mode)]) (hf : t.func = s.func) (hc : t.ctrl = s.ctrl) :
    CacheCurrent t := by
  obtain ⟨h1, h2, -⟩ := hs
  obtain ⟨k1, k2⟩ := entryMode_other _ hm
  refine ⟨?_, ?_, ?_⟩
  · rw [hb, lastOfClass_append, lastOfClass_single_other k1, Option.none_or, h1, hf]
  · rw [hb, lastOfClass_append, lastOfClass_single_other k2, Option.none_or, h2, hc]
  · rw [hb, lastOfClass_append, lastOfClass_single hm, Option.some_or]

/-! ## The commands that cache nothing -/

/-- The events are no part of a handshake and deliver only data and command bytes of no class. -/
def Uncached (addr : BitVec 7) (evs : List Event) : Prop :=
  NoHandshake addr evs ∧ ∃ l, Delivers addr evs l ∧ ∀ x ∈ l, x.1 = true ∨ Unclassed x.2

theorem uncached_command {addr : BitVec 7} {b : Byte} (bl : Bool) (hb : b &&& 0xF0 ≠ 0x20) (hu : Unclassed b) :
    Uncached addr (commandEvents addr bl b) :=
  ⟨noHandshake_command_alone bl hb, _, delivers_command addr bl b, by simpa using hu⟩

theorem uncached_homing {addr : BitVec 7} {b : Byte} (bl : Bool) (hb : b &&& 0xF0 ≠ 0x20) (hu : Unclassed b) :
    Uncached addr (homingEvents addr bl b) :=
  ⟨noHandshake_command bl hb (by simp), _, delivers_homing addr bl b, by simpa using hu⟩

theorem uncached_loadGlyph (addr : BitVec 7) (bl : Bool) (slot : Byte) (ps : List Byte) :
    Uncached addr (loadGlyphEvents addr bl slot ps) := by
  refine ⟨noHandshake_command bl (highNibble_glyphByte slot) fun h => ?_, _, delivers_loadGlyph addr bl slot ps, ?_⟩
  · simpa using delay_mem_dataAll h
  · simp [unclassed_glyphByte]

theorem uncached_print (addr : BitVec 7) (bl : Bool) (cs : List Byte) : Uncached addr (printEvents addr bl cs) :=
  ⟨noHandshake_print addr bl cs, _, delivers_print addr bl cs, by simp⟩

theorem uncached_backlight (addr : BitVec 7) (bl : Bool) : Uncached addr (sendNibbleEvents addr bl 0x00) :=
  ⟨noHandshake_sendNibble addr bl 0x00, _, delivers_sendNibble addr bl enableLow_zero, by simp⟩

/-- A command that caches nothing keeps the cache current and the byte boundary. -/
theorem Completes.keeps_cache {i : Instr} {s t : State} (h : Completes i s t) (hi : isUpperCommand i = true)
    (hu : Uncached s.addr (eventsOf s i)) (hc : SameBusConfig s t) (hd : SameDisplay s t)
    (hs : CacheCurrent s ∧ ByteBoundary s) : CacheCurrent t ∧ ByteBoundary t := by
  obtain ⟨hn, l, hl, hx⟩ := hu
  obtain ⟨⟨-, -, -, hf⟩, hctrl, hmode, -⟩ := hd
  obtain ⟨hbound, hb⟩ := hs.2.delivers hc.addr (h.trace_eq hi) hn hl
  exact ⟨hs.1.unclassed hx hb hf hctrl hmode, hbound⟩

theorem Completes.plainSend_keeps_cache {i : Instr} {s t : State} (h : Completes i s t) (hp : isPlainSend i = true)
    (hi : isUpperCommand i = true) (hu : Uncached s.addr (eventsOf s i)) (hs : CacheCurrent s ∧ ByteBoundary s) :
    CacheCurrent t ∧ ByteBoundary t :=
  let ⟨hb, _, hd⟩ := plainSendsFrame i s t hp h.1
  h.keeps_cache hi hu hb.config hd hs

/-! ## The commands that cache what they send -/

theorem Completes.controlFlag_keeps_cache {i : Instr} {f on : Byte} {s t : State} (h : Completes i s t)
    (hi : bodyOf i = controlFlag f on) (hf : f &&& 0xF8 = 0) (hinv : DisplayInv s)
    (hs : CacheCurrent s ∧ ByteBoundary s) : CacheCurrent t ∧ ByteBoundary t := by
  obtain ⟨u, hu, rfl⟩ := h.body
  rw [hi] at hu
  obtain ⟨hp, -, hsent⟩ := controlFlag_done hu
  obtain ⟨⟨-, -, -, hfunc⟩, hctrl, hmode, -⟩ := hsent.rest.display
  replace hctrl : u.ctrl = setFlag f (decide (on = 1)) s.ctrl := hctrl
  have hclass : isDisplayControl u.ctrl = true := hctrl ▸ setFlag_displayControl hf _ (hinv.ready_ctrl hp)
  have htrace : u.trace = s.trace ++ commandEvents s.addr s.bl u.ctrl := hctrl ▸ hsent.trace
  have hn := noHandshake_command_alone (addr := s.addr) s.bl (highNibble_displayControl _ hclass)
  obtain ⟨hbound, hb⟩ := hs.2.delivers (t := u.complete) hsent.rest.config.addr htrace hn (delivers_command _ _ u.ctrl)
  exact ⟨hs.1.displayControl hclass hb hfunc hmode, hbound⟩

theorem Completes.modeFlag_keeps_cache {i : Instr} {name : String} {f on : Byte} {s t : State} (h : Completes i s t)
    (hi : bodyOf i = modeFlag name f on) (hf : f &&& 0xFC = 0) (hinv : DisplayInv s)
    (hs : CacheCurrent s ∧ ByteBoundary s) : CacheCurrent t ∧ ByteBoundary t := by
  obtain ⟨u, hu, rfl⟩ := h.body
  rw [hi] at hu
  obtain ⟨hp, -, hsent⟩ := modeFlag_done hu
  obtain ⟨⟨-, -, -, hfunc⟩, hctrl, hmode, -⟩ := hsent.rest.display
  replace hmode : u.mode = setFlag f (decide (on = 1)) s.mode := hmode
  have hclass : isEntryMode u.mode = true := hmode ▸ setFlag_entryMode hf _ (hinv.ready_mode hp)
  have htrace : u.trace = s.trace ++ commandEvents s.addr s.bl u.mode := hmode ▸ hsent.trace
  have hn := noHandshake_command_alone (addr := s.addr) s.bl (highNibble_entryMode _ hclass)
  obtain ⟨hbound, hb⟩ := hs.2.delivers (t := u.complete) hsent.rest.config.addr htrace hn (delivers_command _ _ u.mode)
  exact ⟨hs.1.entryMode hclass hb hfunc hctrl, hbound⟩

/-! ## INIT -/

/-- INIT's events after the handshake (R160). -/
def afterHandshake (addr : BitVec 7) (rows : Byte) (font : Bool) : List Event :=
  commandEvents addr true (functionSet rows font) ++ (commandEvents addr true 0x0C ++ (homingEvents addr true 0x01 ++
    (commandEvents addr true 0x06 ++ homingEvents addr true 0x02)))

theorem initEvents_split (addr : BitVec 7) (rows : Byte) (font : Bool) :
    initEvents addr rows font = handshakeEvents addr ++ afterHandshake addr rows font := by
  simp only [initEvents, afterHandshake, List.append_assoc]

theorem delivers_afterHandshake (addr : BitVec 7) (rows : Byte) (font : Bool) :
    Delivers addr (afterHandshake addr rows font)
      [(false, functionSet rows font), (false, 0x0C), (false, 0x01), (false, 0x06), (false, 0x02)] :=
  (delivers_command addr true _).append <| (delivers_command addr true _).append <|
    (delivers_homing addr true _).append <| (delivers_command addr true _).append (delivers_homing addr true _)

theorem powerOn_not_mem_afterHandshake (addr : BitVec 7) (rows : Byte) (font : Bool) :
    Event.delay 40000 ∉ afterHandshake addr rows font := by
  have hc : ∀ b, Event.delay 40000 ∉ commandEvents addr true b := fun b h => by simpa using delay_mem_sendByte h
  simp [afterHandshake, homingEvents, hc]

theorem initialCtrl_eq : initialCtrl = 0x0C := by decide

theorem initialMode_eq : initialMode = 0x06 := by decide

/-- The five bytes that follow a handshake hold one of each class, those that INIT caches. -/
theorem cacheCurrent_afterHandshake {t : State} {l : List (Bool × Byte)} {rows : Byte} {font : Bool}
    (hb : t.sentBytes = l ++
      [(false, functionSet rows font), (false, 0x0C), (false, 0x01), (false, 0x06), (false, 0x02)])
    (hf : t.func = functionSet rows font) (hc : t.ctrl = initialCtrl) (hm : t.mode = initialMode) : CacheCurrent t := by
  obtain ⟨k1, k2, k3⟩ := functionSet_classes rows font
  have c1 : functionSetClass 0x0C = false ∧ functionSetClass 0x01 = false ∧ functionSetClass 0x06 = false ∧
      functionSetClass 0x02 = false := by decide
  have c2 : isDisplayControl 0x0C = true ∧ isDisplayControl 0x01 = false ∧ isDisplayControl 0x06 = false ∧
      isDisplayControl 0x02 = false := by decide
  have c3 : isEntryMode 0x0C = false ∧ isEntryMode 0x01 = false ∧ isEntryMode 0x06 = true ∧
      isEntryMode 0x02 = false := by decide
  refine ⟨?_, ?_, ?_⟩ <;> rw [hb, lastOfClass_append]
  · simp only [lastOfClass, List.filter, k1, c1, hf]; rfl
  · simp only [lastOfClass, List.filter, k2, c2, hc, initialCtrl_eq]; rfl
  · simp only [lastOfClass, List.filter, k3, c3, hm, initialMode_eq]; rfl

/-- A completed INIT makes the cache current and ends at a byte boundary, whatever was sent before. -/
theorem Completes.init_cache {rows cols font : Byte} {s t : State} (h : Completes (.init rows cols font) s t)
    (hinv : BusInv s) : CacheCurrent t ∧ ByteBoundary t := by
  obtain ⟨u, hu, rfl⟩ := h.body
  obtain ⟨ht, -, hsent⟩ := initialize4Bit_done hu
  have hframed : framing s.trace = some false := by rw [hinv.framed, show s.txn = false from ht]
  have haddr : u.addr = s.addr := hsent.rest.config.addr
  obtain ⟨⟨-, -, -, hfunc⟩, hctrl, hmode, -⟩ := hsent.rest.display
  have htrace : u.trace = s.trace ++ (handshakeEvents u.addr ++ afterHandshake u.addr rows (flagOf font)) := by
    rw [haddr, ← initEvents_split]
    exact hsent.trace
  obtain ⟨hbound, hb⟩ := ByteBoundary.handshake (t := u.complete) htrace hframed
    (powerOn_not_mem_afterHandshake _ _ _) (delivers_afterHandshake _ _ _)
  exact ⟨cacheCurrent_afterHandshake hb hfunc hctrl hmode, hbound⟩

/-- Settles O45: INIT's five bytes after its handshake make the cache current, a flag command sends the byte that it
caches, and the bytes of every other command are of no class. -/
theorem displayCommandsKeepTheCacheCurrent : Obligations.DisplayCommandsKeepTheCacheCurrent := by
  intro i s t hi hinv hpre h
  cases i with
  | configure | start | wbyte | stop | rbyte | sendNibble | pulseLatch | sendByte | setBacklight => cases hi
  | init rows cols font => exact h.init_cache hinv.bus
  | clear =>
    exact h.plainSend_keeps_cache rfl rfl (uncached_homing s.bl (by decide) unclassed_clear) (hpre (by simp))
  | home =>
    exact h.plainSend_keeps_cache rfl rfl (uncached_homing s.bl (by decide) unclassed_home) (hpre (by simp))
  | setCursor col row =>
    exact h.plainSend_keeps_cache rfl rfl (uncached_command s.bl (highNibble_setDdram _) (unclassed_setDdram _))
      (hpre (by simp))
  | display on | cursor on | blink on => exact h.controlFlag_keeps_cache rfl (by decide) hinv.display (hpre (by simp))
  | entryDir on | autoscroll on => exact h.modeFlag_keeps_cache rfl (by decide) hinv.display (hpre (by simp))
  | scroll right =>
    refine h.plainSend_keeps_cache rfl rfl (uncached_command s.bl ?_ ?_) (hpre (by simp))
    · split <;> decide
    · unfold Unclassed; split <;> decide
  | loadGlyph slot p0 p1 p2 p3 p4 p5 p6 p7 =>
    exact h.plainSend_keeps_cache rfl rfl (uncached_loadGlyph s.addr s.bl slot _) (hpre (by simp))
  | print cs => exact h.plainSend_keeps_cache rfl rfl (uncached_print s.addr s.bl cs) (hpre (by simp))
  | backlight on =>
    obtain ⟨hb, hd⟩ := (registerWritersFrame on s t).1 (.inr h.1)
    exact h.keeps_cache rfl (uncached_backlight s.addr _) hb.config hd (hpre (by simp))

end Sys2Proof.Machine
end

section
/-! PROOFS. The shape of what the upper commands append to the trace (R66, R67): delays and whole two-byte writes to the
expander. -/

namespace Sys2Proof.Machine

/-- What stands before keeps the shape where it consists of whole transactions and delays itself. -/
@[simp] theorem isBusWrites_append {a : Byte} {l : List Event} (hl : isBusWrites a l = true) (r : List Event) :
    isBusWrites a (l ++ r) = isBusWrites a r := by
  induction l using isBusWrites.induct with
  | case1 => rfl
  | case2 n l ih => exact ih hl
  | case3 a' b l ih =>
    rw [isBusWrites, Bool.and_eq_true] at hl
    obtain ⟨ha, hl⟩ := hl
    simp [isBusWrites, of_decide_eq_true ha, ih hl]
  | case4 l hnil hdelay hwrite => simp [isBusWrites] at hl

theorem isBusWrites_flatMap {α : Type} {a : Byte} {f : α → List Event} (h : ∀ x, isBusWrites a (f x) = true)
    (l : List α) : isBusWrites a (l.flatMap f) = true := by
  induction l with
  | nil => rfl
  | cons x l ih => rw [List.flatMap_cons, isBusWrites_append (h x), ih]

@[simp] theorem isBusWrites_nil (a : Byte) : isBusWrites a [] = true := rfl

@[simp] theorem isBusWrites_delay_cons (a : Byte) (n : Nat) (t : List Event) :
    isBusWrites a (.delay n :: t) = isBusWrites a t := rfl

/-- SENDNIBBLE's transaction is the one shape of R66; every other send is made of these and delays. -/
@[simp] theorem isBusWrites_sendNibble (addr : BitVec 7) (bl : Bool) (x : Byte) :
    isBusWrites (addrByte addr) (sendNibbleEvents addr bl x) = true := by
  simp [sendNibbleEvents, busWriteEvents, isBusWrites]

@[simp] theorem isBusWrites_pulseLatch (addr : BitVec 7) (bl : Bool) (x : Byte) :
    isBusWrites (addrByte addr) (pulseLatchEvents addr bl x) = true := by
  simp [pulseLatchEvents]

@[simp] theorem isBusWrites_nibbleTransfer (addr : BitVec 7) (bl : Bool) (x : Byte) :
    isBusWrites (addrByte addr) (nibbleTransferEvents addr bl x) = true := by
  simp [nibbleTransferEvents]

@[simp] theorem isBusWrites_sendByte (addr : BitVec 7) (bl : Bool) (v m : Byte) :
    isBusWrites (addrByte addr) (sendByteEvents addr bl v m) = true := by
  simp [sendByteEvents]

@[simp] theorem isBusWrites_command (addr : BitVec 7) (bl : Bool) (b : Byte) :
    isBusWrites (addrByte addr) (commandEvents addr bl b) = true :=
  isBusWrites_sendByte addr bl b 0x00

@[simp] theorem isBusWrites_data (addr : BitVec 7) (bl : Bool) (b : Byte) :
    isBusWrites (addrByte addr) (dataEvents addr bl b) = true :=
  isBusWrites_sendByte addr bl b Config.bitRS

@[simp] theorem isBusWrites_homing (addr : BitVec 7) (bl : Bool) (b : Byte) :
    isBusWrites (addrByte addr) (homingEvents addr bl b) = true := by
  simp [homingEvents]

theorem isBusWrites_loadGlyph (addr : BitVec 7) (bl : Bool) (slot : Byte) (pattern : List Byte) :
    isBusWrites (addrByte addr) (loadGlyphEvents addr bl slot pattern) = true := by
  rw [loadGlyphEvents, isBusWrites_append (isBusWrites_command addr bl _)]
  exact isBusWrites_flatMap (isBusWrites_data addr bl) pattern

theorem isBusWrites_print (addr : BitVec 7) (bl : Bool) (cs : List Byte) :
    isBusWrites (addrByte addr) (printEvents addr bl cs) = true :=
  isBusWrites_flatMap (fun c => by simp) cs

@[simp] theorem isBusWrites_handshake (addr : BitVec 7) :
    isBusWrites (addrByte addr) (handshakeEvents addr) = true := by
  simp [handshakeEvents]

theorem isBusWrites_init (addr : BitVec 7) (rows : Byte) (font : Bool) :
    isBusWrites (addrByte addr) (initEvents addr rows font) = true := by
  simp [initEvents]

/-- Every command above the BusDriver lists only whole two-byte writes and delays. -/
theorem isBusWrites_eventsOf {i : Instr} (hi : isUpperCommand i = true) (s : State) :
    isBusWrites (addrByte s.addr) (eventsOf s i) = true := by
  cases i with
  | configure | start | wbyte | stop | rbyte => cases hi
  | sendNibble | setBacklight | backlight => exact isBusWrites_sendNibble s.addr _ _
  | pulseLatch x => exact isBusWrites_pulseLatch s.addr s.bl x
  | sendByte v m => exact isBusWrites_sendByte s.addr s.bl v m
  | init rows cols font => exact isBusWrites_init s.addr rows _
  | clear | home => exact isBusWrites_homing s.addr s.bl _
  | setCursor | display | cursor | blink | entryDir | autoscroll | scroll => exact isBusWrites_command s.addr s.bl _
  | loadGlyph slot => exact isBusWrites_loadGlyph s.addr s.bl slot _
  | print cs => exact isBusWrites_print s.addr s.bl cs

/-- Settles O54: a command that completes has appended the events that its rule lists, and these are of that shape. -/
theorem upperCommandsSendTwoByteTransactions : Obligations.UpperCommandsSendTwoByteTransactions :=
  fun i s _ hi h => ⟨eventsOf s i, h.trace_eq hi, isBusWrites_eventsOf hi s⟩

end Sys2Proof.Machine
end

section
/-! PROOFS. What the wires show (R73, R74): the bits that a receiver clocks in, and the start and stop conditions of a
framed trace. -/

namespace Sys2Proof.Machine

/-! ## The bits clocked in (R74) -/

/-- Each pulse begins and ends with SCL low, so it has one rising edge of its own, at the level of its bit. -/
theorem sampled_pulses (bits : List Bool) : sampled (bits.flatMap pulse) = bits := by
  induction bits with
  | nil => rfl
  | cons x bits ih =>
    cases bits with
    | nil => rfl
    | cons y bits => simpa [pulse, sampled] using ih

theorem readAckLevel_eq : readAckLevel = if Config.readAck then false else true := by
  cases h : Config.readAck <;> simp [readAckLevel, h]

/-! ## Start and stop conditions (R74) -/

/-- The start conditions and the stop conditions of a wave. -/
def busConditions (l : List Lines) : Nat × Nat := (startConditions l, stopConditions l)

/-- Neither condition begins from SCL low. -/
theorem busConditions_low (sda : Bool) (l : List Lines) : busConditions (⟨false, sda⟩ :: l) = busConditions l := by
  cases l <;> simp [busConditions, startConditions, stopConditions]

/-- Neither condition ends in SCL low. -/
theorem busConditions_high_low (x y : Bool) (l : List Lines) :
    busConditions (⟨true, x⟩ :: ⟨false, y⟩ :: l) = busConditions l := by
  rw [← busConditions_low y l]
  simp [busConditions, startConditions, stopConditions]

theorem busConditions_pulses (bits : List Bool) (l : List Lines) :
    busConditions (bits.flatMap pulse ++ l) = busConditions l := by
  induction bits with
  | nil => rfl
  | cons x bits ih => simpa [pulse, busConditions_low, busConditions_high_low] using ih

theorem busConditions_start (ack : Bool) (l : List Lines) :
    busConditions (wave ack .start ++ l) = ((busConditions l).1 + 1, (busConditions l).2) := by
  rw [← busConditions_high_low false false l]
  simp [wave, busConditions, startConditions, stopConditions, Nat.add_comm]

/-- A stop condition leaves the lines released; what follows on the wires goes on from there. -/
theorem busConditions_stop (ack : Bool) (l : List Lines) :
    busConditions (wave ack .stop ++ l) =
      ((busConditions (.released :: l)).1, (busConditions (.released :: l)).2 + 1) := by
  simp [wave, busConditions, startConditions, stopConditions, Lines.released, Nat.add_comm]

/-! ## The wave of a framed trace (R125) -/

theorem foldl_frame_none (t : List Event) : t.foldl Event.frame none = none := by
  induction t with
  | nil => rfl
  | cons e t ih => cases e <;> exact ih

theorem waveOf_cons (e : Event) (ack : Bool) (t : List (Event × Bool)) :
    waveOf ((e, ack) :: t) = wave ack e ++ waveOf t := rfl

/-- Outside a transaction a framed trace goes on with released lines or with nothing at all. -/
theorem waveOf_closed {t : List (Event × Bool)} (h : (t.map Prod.fst).foldl Event.frame (some false) ≠ none) :
    waveOf t = [] ∨ ∃ l, waveOf t = .released :: l := by
  induction t with
  | nil => exact .inl rfl
  | cons x t ih =>
    obtain ⟨e, ack⟩ := x
    cases e with
    | start => exact .inr ⟨_, rfl⟩
    | delay n => exact ih h
    | write | read | stop => exact absurd (foldl_frame_none _) h

theorem busConditions_released_waveOf {t : List (Event × Bool)}
    (h : (t.map Prod.fst).foldl Event.frame (some false) ≠ none) :
    busConditions (.released :: waveOf t) = busConditions (waveOf t) := by
  obtain ht | ⟨l, ht⟩ := waveOf_closed h <;> rw [ht]
  · rfl
  · simp [busConditions, startConditions, stopConditions, Lines.released]

/-- A trace that is well framed from inside or outside a transaction, as `o` says, shows one condition for each `S` and
each `P`. -/
theorem busConditions_waveOf {t : List (Event × Bool)} {o : Bool}
    (h : (t.map Prod.fst).foldl Event.frame (some o) ≠ none) :
    busConditions (waveOf t) = ((t.map Prod.fst).countP (· = .start), (t.map Prod.fst).countP (· = .stop)) := by
  induction t generalizing o with
  | nil => rfl
  | cons x t ih =>
    obtain ⟨e, ack⟩ := x
    rw [List.map_cons, List.foldl_cons] at h
    rw [waveOf_cons]
    cases e with
    | delay n => cases o <;> simpa [wave] using ih h
    | write b | read b =>
      cases o with
      | false => exact absurd (foldl_frame_none _) h
      | true => rw [wave, busConditions_pulses, ih h]; simp
    | start =>
      cases o with
      | false => rw [busConditions_start, ih h]; simp
      | true => exact absurd (foldl_frame_none _) h
    | stop =>
      cases o with
      | false => exact absurd (foldl_frame_none _) h
      | true => rw [busConditions_stop, busConditions_released_waveOf h, ih h]; simp

/-- Settles O56: the receiver's bits are those of the pulses, and the conditions are those of the framed trace. -/
theorem wiresShowTheTrace : Obligations.WiresShowTheTrace := by
  refine ⟨fun ack b => ⟨sampled_pulses _, ?_⟩, fun t h => Prod.mk.inj (busConditions_waveOf h)⟩
  rw [← readAckLevel_eq]
  exact sampled_pulses _

end Sys2Proof.Machine
end

section
/-! PROOFS. The encoding (R92 to R95, R97): what each operand format reads, and from that the two directions of the round
trip and the reserved opcodes. -/

namespace Sys2Proof

/-! ## Decode of encode -/

/-- The count byte of an encodable PRINT lets the decoder read back exactly its characters (R93 format CV). -/
theorem decodeV_count {cs : List Byte} (f : List Byte → Instr) (h : legalCount cs = true) (rest : List Byte) :
    decodeV f (BitVec.ofNat 8 cs.length :: (cs ++ rest)) = .command (f cs) rest := by
  rw [decodeV, countByte_toNat h, splitBytes_append]

theorem decode_encode (i : Instr) (rest : List Byte) (h : i.encodable = true) :
    decode (encode i ++ rest) = .command i rest := by
  cases i with
  | print cs => exact decodeV_count .print h rest
  | configure | start | wbyte | stop | rbyte | sendNibble | pulseLatch | sendByte | setBacklight | init | clear | home
  | setCursor | display | cursor | blink | entryDir | autoscroll | scroll | loadGlyph | backlight => rfl

/-- Settles O2: fixed formats read their operands back as they stand, PRINT's through its count. -/
theorem decodeOfEncodeIsTheCommand : Obligations.DecodeOfEncodeIsTheCommand := decode_encode

/-! ## What each format reads (R93) -/

/-- The bytes `bs` are the encoding of `i`, which has one, and then `rest`. -/
def ReadsOwn (bs : List Byte) (i : Instr) (rest : List Byte) : Prop := bs = encode i ++ rest ∧ i.encodable = true

section
variable {op : Byte} {bs rest : List Byte} {i : Instr}

theorem decode1_readsOwn {f : Byte → Instr} (hf : ∀ a, encode (f a) = [op, a] ∧ (f a).encodable = true)
    (h : decode1 f bs = .command i rest) : ReadsOwn (op :: bs) i rest := by
  match bs, h with
  | a :: _, rfl => obtain ⟨he, hn⟩ := hf a; exact ⟨by rw [he]; rfl, hn⟩

theorem decode2_readsOwn {f : Byte → Byte → Instr}
    (hf : ∀ a b, encode (f a b) = [op, a, b] ∧ (f a b).encodable = true)
    (h : decode2 f bs = .command i rest) : ReadsOwn (op :: bs) i rest := by
  match bs, h with
  | a :: b :: _, rfl => obtain ⟨he, hn⟩ := hf a b; exact ⟨by rw [he]; rfl, hn⟩

theorem decode3_readsOwn {f : Byte → Byte → Byte → Instr}
    (hf : ∀ a b c, encode (f a b c) = [op, a, b, c] ∧ (f a b c).encodable = true)
    (h : decode3 f bs = .command i rest) : ReadsOwn (op :: bs) i rest := by
  match bs, h with
  | a :: b :: c :: _, rfl => obtain ⟨he, hn⟩ := hf a b c; exact ⟨by rw [he]; rfl, hn⟩

theorem decode9_readsOwn (h : decode9 .loadGlyph bs = .command i rest) : ReadsOwn (0x2A :: bs) i rest := by
  match bs, h with
  | _ :: _ :: _ :: _ :: _ :: _ :: _ :: _ :: _ :: _, rfl => exact ⟨rfl, rfl⟩

theorem decodeV_readsOwn (h : decodeV .print bs = .command i rest) : ReadsOwn (0x2B :: bs) i rest := by
  match bs with
  | n :: bs =>
    rw [decodeV] at h
    split at h
    next cs _ hsplit =>
      cases h
      obtain ⟨rfl, hlen⟩ := splitBytes_some hsplit
      refine ⟨?_, ?_⟩
      · simp [encode, opcode, operands, hlen]
      · have := n.isLt
        simp only [Instr.encodable, legalCount, decide_eq_true_eq]
        omega
    next => cases h

/-- The decoder's 22 branches, by format; the last one, of the other opcode bytes, reads no command. -/
theorem decode_readsOwn (h : decode bs = .command i rest) : ReadsOwn bs i rest := by
  match bs, h with
  | op :: bs, h =>
    rw [decode] at h
    split at h
    case h_23 => cases h
    all_goals
      rename_i hop
      obtain rfl := byte_eq_of_toNat hop
    case h_2 | h_4 | h_5 | h_11 | h_12 => cases h; exact ⟨rfl, rfl⟩
    case h_3 | h_6 | h_7 | h_9 | h_14 | h_15 | h_16 | h_17 | h_18 | h_19 | h_22 =>
      exact decode1_readsOwn (fun _ => ⟨rfl, rfl⟩) h
    case h_1 | h_8 | h_13 => exact decode2_readsOwn (fun _ _ => ⟨rfl, rfl⟩) h
    case h_10 => exact decode3_readsOwn (fun _ _ _ => ⟨rfl, rfl⟩) h
    case h_20 => exact decode9_readsOwn h
    case h_21 => exact decodeV_readsOwn h

end

/-- Settles O3: every format reads only what its commands encode to. -/
theorem decodedBytesAreTheEncoding : Obligations.DecodedBytesAreTheEncoding := fun _ _ _ => decode_readsOwn

/-! ## Reserved opcodes (R95) -/

@[simp] theorem decode1_ne_reserved (f : Byte → Instr) (bs : List Byte) (op : Byte) : decode1 f bs ≠ .reserved op := by
  unfold decode1; split <;> simp

@[simp] theorem decode2_ne_reserved (f : Byte → Byte → Instr) (bs : List Byte) (op : Byte) :
    decode2 f bs ≠ .reserved op := by
  unfold decode2; split <;> simp

@[simp] theorem decode3_ne_reserved (f : Byte → Byte → Byte → Instr) (bs : List Byte) (op : Byte) :
    decode3 f bs ≠ .reserved op := by
  unfold decode3; split <;> simp

@[simp] theorem decode9_ne_reserved (f : Byte → Byte → Byte → Byte → Byte → Byte → Byte → Byte → Byte → Instr)
    (bs : List Byte) (op : Byte) : decode9 f bs ≠ .reserved op := by
  unfold decode9; split <;> simp

@[simp] theorem decodeV_ne_reserved (f : List Byte → Instr) (bs : List Byte) (op : Byte) :
    decodeV f bs ≠ .reserved op := by
  unfold decodeV; split <;> [split <;> simp; simp]

/-- Settles O4: an opcode of R92 leads to a format, and no format answers reserved. -/
theorem reservedOpcodesAreExactlyThoseListed : Obligations.ReservedOpcodesAreExactlyThoseListed := by
  intro op rest
  rw [decode]
  split
  case h_23 =>
    simp only [imp_false, true_iff] at *
    omega
  all_goals
    rename_i hop
    simp [hop]

/-! ## Fixed words (R92, R97) -/

/-- Settles O1, word by word. -/
theorem specBytesDecodeToTheirCommands : Obligations.SpecBytesDecodeToTheirCommands := by
  unfold Obligations.SpecBytesDecodeToTheirCommands
  and_intros <;> rfl

/-- Settles O5: each encoding is the opcode byte, then the operand bytes (PUTC's with their count 1). -/
theorem pseudoCommandsStandForOneCommand : Obligations.PseudoCommandsStandForOneCommand := fun _ => ⟨rfl, rfl, rfl⟩

end Sys2Proof
end

section
/-! PROOFS. The step by what has arrived on the command port (R90), the operand values that R94 reserves (R205, R207), and
what the display makes of INIT's events (R77, R104). -/

namespace Sys2Proof.Machine

/-! ## The step of an idle block (R90) -/

section
variable {s : State} (hr : s.rstN = true) (hu : s.useq = .idle)
include hr hu

theorem step_command {i : Instr} {rest : List Byte} (h : decode s.arrived = .command i rest) :
    step s = exec i ((engine s).take rest) := by simp only [step, hr, hu, h, if_true]

theorem step_incomplete (h : decode s.arrived = .incomplete) : step s = .next (engine s).takeAll := by
  simp only [step, hr, hu, h, if_true]

theorem step_reserved {op : Byte} (h : decode s.arrived = .reserved op) :
    step s = .refused (.reservedOpcode op) := by simp only [step, hr, hu, h, if_true]

end

/-- Settles O8: what has arrived decodes to the command, since it begins with its encoding. -/
theorem stepRunsTheDecodedCommand : Obligations.StepRunsTheDecodedCommand := by
  intro s i rest hr hu hi harrived
  exact step_command hr hu ((congrArg decode harrived).trans (decode_encode i rest hi))

/-- Settles O9: the block takes every byte, or the opcode byte has no meaning. -/
theorem stepWaitsForAWholeCommand : Obligations.StepWaitsForAWholeCommand := by
  intro s hr hu
  refine ⟨fun h => ⟨_, step_incomplete hr hu h, ?_⟩, fun op h => step_reserved hr hu h⟩
  simp +contextual [State.arrived, State.cmdReady, USeq.isIdle, SameBusConfig, SameDisplay, SameGeometry, hr, hu]

/-! ## Reserved operand values (R94, R205, R207) -/

theorem legalBool_eq_false {v : Byte} : legalBool v = false ↔ 2 ≤ v.toNat := by
  rw [legalBool, decide_eq_false_iff_not]; omega

theorem badAddr_eq_not_legal : ∀ addr : Byte, badAddr addr = !legalAddr addr := by unfold badAddr legalAddr; decide

theorem badRows_eq_not_legal : ∀ rows : Byte, badRows rows = !legalRows rows := by unfold badRows legalRows; decide

theorem badBool_eq_not_legal : ∀ v : Byte, badBool v = !legalBool v := by unfold badBool legalBool; decide

/-- INIT checks the row count, then the font (R160, R207). -/
theorem initialize4Bit_reserved {rows font : Byte} (cols : Byte) (h : (legalRows rows && legalBool font) = false)
    (s : State) : ∃ name, initialize4Bit rows cols font s = .refused (.reservedOperand name) := by
  cases hr : legalRows rows with
  | false => exact ⟨_, initialize4Bit_badRows cols font (by simp [badRows_eq_not_legal, hr]) s⟩
  | true =>
    rw [hr, Bool.true_and] at h
    exact ⟨_, initialize4Bit_badFont cols (by simp [badRows_eq_not_legal, hr]) (by simp [badBool_eq_not_legal, h]) s⟩

section
variable {v : Byte} {s : State} (hp : s.phase = .ready) (hv : 2 ≤ v.toNat)
include hp hv

theorem controlFlag_reserved (f : Byte) : controlFlag f v s = .refused (.reservedOperand "on") := by
  rw [controlFlag, steps_requireReady _ hp, steps_requireBool_refuse _ _ hv]

theorem modeFlag_reserved (name : String) (f : Byte) : modeFlag name f v s = .refused (.reservedOperand name) := by
  rw [modeFlag, steps_requireReady _ hp, steps_requireBool_refuse _ _ hv]

theorem scroll_reserved : scroll v s = .refused (.reservedOperand "right") := by
  rw [scroll, steps_requireReady _ hp, steps_requireBool_refuse _ _ hv]

theorem backlight_reserved : backlight v s = .refused (.reservedOperand "on") := by
  rw [backlight_ready v hp, setBacklight_reserved hv]

end

/-- A body whose command has a reserved operand value ends at the check of it, once past the phase check. -/
theorem bodyOf_reserved {i : Instr} {s : State} (he : i.encodable = true) (hw : i.wellFormed = false)
    (hp : isPhaseChecked i = true → s.phase = .ready) : ∃ name, bodyOf i s = .refused (.reservedOperand name) := by
  cases i with
  | start | wbyte | stop | rbyte | sendNibble | pulseLatch | sendByte | clear | home | setCursor | loadGlyph => cases hw
  | print cs => cases he.symm.trans hw
  | configure addr speed => exact ⟨_, configure_badAddr ((badAddr_eq_not_legal addr).trans (congrArg (!·) hw))⟩
  | init rows cols font => exact initialize4Bit_reserved cols hw s
  | setBacklight on => exact ⟨_, setBacklight_reserved (legalBool_eq_false.1 hw) s⟩
  | display on | cursor on | blink on => exact ⟨_, controlFlag_reserved (hp rfl) (legalBool_eq_false.1 hw) _⟩
  | entryDir on | autoscroll on => exact ⟨_, modeFlag_reserved (hp rfl) (legalBool_eq_false.1 hw) _ _⟩
  | scroll right => exact ⟨_, scroll_reserved (hp rfl) (legalBool_eq_false.1 hw)⟩
  | backlight on => exact ⟨_, backlight_reserved (hp rfl) (legalBool_eq_false.1 hw)⟩

/-- Settles O30: the body of such a command ends at its operand check. -/
theorem reservedOperandsAreRefused : Obligations.ReservedOperandsAreRefused := by
  intro i s he hw hp
  obtain ⟨name, h⟩ := bodyOf_reserved (s := s.begin i) he hw hp
  exact ⟨name, (exec_eq_perform i s).trans (perform_refused h)⟩

/-! ## INIT's events as the display latches them (R77, R104, R160) -/

/-- The bytes of a handshake that reach the expander: the lone 0x00 with the backlight on, then the four transfers. -/
theorem targetBytes_handshake (addr : BitVec 7) (p : BusPos) (t : List Event) :
    targetBytes (addrByte addr) p (handshakeEvents addr ++ t) =
      blMask true :: (transferBytes true 0x30 ++ (transferBytes true 0x30 ++ (transferBytes true 0x30 ++
        (transferBytes true 0x20 ++ targetBytes (addrByte addr) .closed t)))) := by
  simp [handshakeEvents, targetBytes_delay, targetBytes_sendNibble, targetBytes_nibbleTransfer]

/-- A handshake latches its four nibbles, whatever follows. -/
theorem latched_handshake (addr : BitVec 7) (t : List Event) : ∃ l,
    latched (addrByte addr) (handshakeEvents addr ++ t) = [(false, 3), (false, 3), (false, 3), (false, 2)] ++ l := by
  rw [latched, targetBytes_handshake]
  exact ⟨_, rfl⟩

/-- Settles O52: INIT's events are a handshake, which pairing leaves out, and the events of its five command bytes. -/
theorem initLatchesTheHandshakeFirst : Obligations.InitLatchesTheHandshakeFirst := by
  intro addr rows font
  rw [initEvents_split]
  refine ⟨?_, fun before => ?_⟩
  · obtain ⟨l, hl⟩ := latched_handshake addr (afterHandshake addr rows font)
    exact (congrArg (List.take 4) hl).trans rfl
  · rw [logicalBytes_handshake, logicalBytes_of_not_mem addr (powerOn_not_mem_afterHandshake addr rows font)]
    exact congrArg _ ((delivers_afterHandshake addr rows font).pairs .closed 0 enableLow_zero)

end Sys2Proof.Machine
end

section
/-! PROOFS. The invariants of the block (R27, R32, R35 to R39, R96, R125, R126): each part over the command that a step
runs, then over every step and every run. -/

namespace Sys2Proof.Machine

/-! ## What the invariants do not read -/

/-- The invariants speak neither of the host's `rst_n` and presented bytes nor of the environment's answers. -/
theorem Inv.withInputs {s : State} (h : Inv s) (level : Bool) (bs : List Byte) (w a : Feed Bool) (b : Feed Byte)
    (e : Feed Bool) :
    Inv { s with rstN := level, cmdIn := bs, waits := w, acks := a, bytes := b, stops := e } := by
  obtain ⟨⟨b1, b2, b3, b4, b5, b6⟩, ⟨d1, d2, d3, d4, d5, d6, d7⟩, ⟨p1, p2⟩, ⟨c1, c2⟩⟩ := h
  exact ⟨⟨b1, b2, b3, b4, b5, b6⟩, ⟨d1, d2, d3, d4, d5, d6, d7⟩, ⟨p1, p2⟩, ⟨c1, c2⟩⟩

/-- The engine may only end a pending stop. -/
theorem Inv.engine {s : State} (h : Inv s) : Inv (engine s) := by
  obtain ⟨⟨b1, b2, b3, b4, b5, b6⟩, ⟨d1, d2, d3, d4, d5, d6, d7⟩, ⟨p1, p2⟩, ⟨c1, c2⟩⟩ := h
  refine ⟨⟨b1, b2, fun hp => b3 ?_, b4, b5, b6⟩, ⟨d1, d2, d3, d4, d5, d6, d7⟩, ⟨p1, p2⟩, ⟨c1, c2⟩⟩
  exact (Bool.and_eq_true_iff.1 hp).1

/-- Taking a whole command leaves no beginning of one. -/
theorem Inv.take {s : State} (h : Inv s) (rest : List Byte) : Inv (s.take rest) := by
  obtain ⟨⟨b1, b2, b3, b4, b5, b6⟩, ⟨d1, d2, d3, d4, d5, d6, d7⟩, ⟨-, p2⟩, ⟨c1, c2⟩⟩ := h
  exact ⟨⟨b1, b2, b3, b4, b5, b6⟩, ⟨d1, d2, d3, d4, d5, d6, d7⟩, ⟨rfl, p2⟩, ⟨c1, c2⟩⟩

/-- Taking all that has arrived keeps a proper beginning of a command, if it is one. -/
theorem Inv.takeAll {s : State} (h : Inv s) (ha : decode s.arrived = .incomplete) : Inv s.takeAll := by
  obtain ⟨⟨b1, b2, b3, b4, b5, b6⟩, ⟨d1, d2, d3, d4, d5, d6, d7⟩, -, ⟨c1, c2⟩⟩ := h
  exact ⟨⟨b1, b2, b3, b4, b5, b6⟩, ⟨d1, d2, d3, d4, d5, d6, d7⟩, ⟨ha, by simp⟩, ⟨c1, c2⟩⟩

theorem Inv.holdReset (s : State) : Inv s.holdReset :=
  resetMeetsTheInvariants.withInputs s.rstN s.cmdIn s.waits s.acks s.bytes s.stops

/-! ## The bus registers and the configuration -/

/-- Between commands the bus registers are as between the primitives of one. -/
theorem Inv.running {s : State} (h : Inv s) (hi : s.useq = .idle) : Running s := by
  obtain ⟨⟨hf, ht, hs, hd, hid, -⟩, -, -, ⟨hz, hq⟩⟩ := h
  exact ⟨⟨hf, ht, hs, fun he => ⟨hz he, hq he⟩⟩, Bool.eq_iff_iff.2 ⟨hd, hid hi⟩⟩

theorem Running.busInv {s : State} (h : Running s) (hi : s.useq = .idle) : BusInv s := by
  obtain ⟨⟨hf, ht, hs, -⟩, hd⟩ := h
  exact ⟨hf, ht, hs, hd.symm.trans, fun _ => hd.trans, fun hn => absurd hi hn⟩

theorem Halted.busInv {s : State} {i : Instr} (h : Halted s) (hn : Named i s) : BusInv s := by
  obtain ⟨⟨hf, ht, hs, -⟩, hd⟩ := h
  obtain ⟨k, hk⟩ := hn
  exact ⟨hf, ht, hs, by simp [hd], by simp [hk], fun _ => hd⟩

theorem Untouched.configInv {s : State} (h : Untouched s) : ConfigInv s :=
  ⟨fun he => (h he).1, fun he => (h he).2⟩

/-- Every command keeps the parts of the invariants that speak of the bus. -/
theorem exec_bus_config {i : Instr} {s t : State} (hr : Running s) (h : exec i s = .next t) :
    BusInv t ∧ ConfigInv t := by
  obtain ⟨k, hi⟩ | ⟨k, hn⟩ := exec_running hr h
  · exact ⟨k.busInv hi, k.base.untouched.configInv⟩
  · exact ⟨k.busInv hn, k.base.untouched.configInv⟩

/-! ## The ports -/

/-- RBYTE raises `rsp_valid` only by completing, with one byte in `RESP` and the shift register (R124, R96). -/
theorem exec_rbyte_valid {s t : State} (h : exec .rbyte s = .next t) (hv : t.rspValid = true) :
    t.useq = .idle ∧ t.resp = t.data := by
  rw [exec_eq_perform] at h
  have hb : Triple (fun u => u.rspValid = false) readByte (fun u => u.resp = u.data) (fun u => u.rspValid = false) :=
    triple_readByte (fun _ _ _ _ => rfl) (fun _ hu _ _ => hu) fun _ hu _ _ => hu
  obtain ⟨u, hu, rfl⟩ | ht := perform_holds hb rfl h
  · exact ⟨rfl, hu⟩
  · cases ht.symm.trans hv

theorem exec_rspValid {i : Instr} {s t : State} (h : exec i s = .next t) (hr : i ≠ .rbyte) : t.rspValid = false := by
  obtain ⟨a, v, rfl⟩ | rfl | ⟨r, c, f, rfl⟩ | hi := instr_kinds i
  · rw [exec_configure h]; simp
  · exact absurd rfl hr
  · obtain ⟨-, ⟨-, -, hv⟩, -⟩ := exec_init_butBus h
    exact hv
  · obtain ⟨⟨-, ⟨-, -, hv⟩, -⟩, -⟩ := exec_send_sameButBus hi h
    exact hv

theorem exec_portInv {i : Instr} {s t : State} (hp : PortInv s) (h : exec i s = .next t) : PortInv t := by
  obtain ⟨-, -, hbuf⟩ := (exec_commandFrame h).inputs
  refine ⟨hbuf ▸ hp.half_taken, fun hv => ?_⟩
  by_cases hi : i = .rbyte
  · subst hi
    exact exec_rbyte_valid h hv
  · exact absurd hv (by simp [exec_rspValid h hi])

/-! ## The display registers under every command but INIT -/

theorem bodyOf_uninitialized {i : Instr} (hi : isPhaseChecked i = true) {s : State} (hp : s.phase = .uninitialized) :
    bodyOf i s = .refused .displayNotInitialised := by
  cases i with
  | configure | start | wbyte | stop | rbyte | sendNibble | pulseLatch | sendByte | setBacklight | init => cases hi
  | clear | home | setCursor | display | cursor | blink | entryDir | autoscroll | scroll | loadGlyph | print
    | backlight => exact steps_requireReady_refuse _ hp

/-- A phase-checked command that answers a next state has found the phase Ready (R177). -/
theorem exec_ready {i : Instr} {s t : State} (h : exec i s = .next t) (hi : isPhaseChecked i = true) :
    s.phase = .ready := by
  cases hp : s.phase with
  | ready => rfl
  | uninitialized =>
    rw [exec_eq_perform, perform_refused (bodyOf_uninitialized hi (s := s.begin i) (by simpa using hp))] at h
    cases h

/-- A command other than INIT writes no display register but its own. -/
theorem exec_sameDisplay {i : Instr} {s t : State} (h : exec i s = .next t) (hn : ∀ r c f, i ≠ .init r c f) :
    SameDisplay (ownWrite s i) t := by
  obtain ⟨a, v, rfl⟩ | rfl | ⟨r, c, f, rfl⟩ | hi := instr_kinds i
  · rw [exec_configure h]; simp [SameDisplay, SameGeometry, ownWrite]
  · exact (exec_rbyte_frame h).display
  · exact absurd rfl (hn r c f)
  · exact (exec_sendFrame hi h).display

/-- The display part reads the display registers alone, if the peripheral stays enabled and no command was executing. -/
theorem DisplayInv.of_sameDisplay {s t : State} (h : DisplayInv s) (hi : s.useq = .idle)
    (he : s.busEn = true → t.busEn = true) (hd : SameDisplay s t) : DisplayInv t := by
  obtain ⟨⟨hr, hc, hf, hfn⟩, hct, hm, hp⟩ := hd
  obtain ⟨d1, d2, d3, d4, d5, d6, d7⟩ := h
  exact ⟨fun k => he (d1 (hp ▸ k)), by rwa [hp, hr], by rwa [hp, hfn], by rwa [hp, hct], by rwa [hp, hm],
    fun k _ => by rw [hfn, hr, hf]; exact d6 (hp ▸ k) hi,
    fun k _ => by rw [hr, hc, hf, hfn, hct, hm]; exact d7 (hp ▸ k) hi⟩

theorem DisplayInv.setBl {s : State} (h : DisplayInv s) (v : Bool) : DisplayInv (s.setBl v) := by
  obtain ⟨d1, d2, d3, d4, d5, d6, d7⟩ := h
  exact ⟨d1, d2, d3, d4, d5, d6, d7⟩

theorem DisplayInv.setCtrl {s : State} (h : DisplayInv s) (hp : s.phase = .ready) {v : Byte}
    (hv : isDisplayControl v = true) : DisplayInv (s.setCtrl v) := by
  obtain ⟨d1, d2, d3, -, d5, d6, -⟩ := h
  exact ⟨d1, d2, d3, fun _ => hv, d5, d6, fun hn => by cases hp.symm.trans hn⟩

theorem DisplayInv.setMode {s : State} (h : DisplayInv s) (hp : s.phase = .ready) {v : Byte}
    (hv : isEntryMode v = true) : DisplayInv (s.setMode v) := by
  obtain ⟨d1, d2, d3, d4, -, d6, -⟩ := h
  exact ⟨d1, d2, d3, d4, fun _ => hv, d6, fun hn => by cases hp.symm.trans hn⟩

/-- A flag of `CTRL` or `MODE` is no bit of its class (R38, R39, R107). -/
theorem DisplayInv.ownWrite {i : Instr} {s : State} (h : DisplayInv s)
    (hp : isPhaseChecked i = true → s.phase = .ready) : DisplayInv (ownWrite s i) := by
  cases i with
  | setBacklight on | backlight on => exact h.setBl _
  | display on | cursor on | blink on =>
    exact h.setCtrl (hp rfl) (setFlag_displayControl (by decide) _ (h.ready_ctrl (hp rfl)))
  | entryDir on | autoscroll on =>
    exact h.setMode (hp rfl) (setFlag_entryMode (by decide) _ (h.ready_mode (hp rfl)))
  | configure | start | wbyte | stop | rbyte | sendNibble | pulseLatch | sendByte | init | clear | home | setCursor
    | scroll | loadGlyph | print => exact h

theorem exec_displayInv {i : Instr} {s t : State} (hd : DisplayInv s) (hi : s.useq = .idle) (h : exec i s = .next t)
    (hn : ∀ r c f, i ≠ .init r c f) : DisplayInv t := by
  have hw := sameBus_ownWrite s i
  exact (hd.ownWrite (exec_ready h)).of_sameDisplay (hw.useq.trans hi)
    (fun he => (exec_commandFrame h).busEn (hw.config.busEn.symm.trans he)) (exec_sameDisplay h hn)

/-! ## The display registers under INIT -/

/-- What DisplayInv says of the registers in Ready, whether or not a command is executing. -/
structure ReadyValues (s : State) : Prop where
  rows : 1 ≤ s.rows.toNat ∧ s.rows.toNat ≤ 4
  func : isFunctionSet s.func = true
  ctrl : isDisplayControl s.ctrl = true
  mode : isEntryMode s.mode = true

theorem DisplayInv.readyValues {s : State} (h : DisplayInv s) (hp : s.phase = .ready) : ReadyValues s :=
  ⟨h.ready_rows hp, h.ready_func hp, h.ready_ctrl hp, h.ready_mode hp⟩

theorem ReadyValues.of_sameDisplay {s t : State} (h : ReadyValues s) (hd : SameDisplay s t) : ReadyValues t := by
  obtain ⟨⟨hr, -, -, hf⟩, hc, hm, -⟩ := hd
  obtain ⟨v1, v2, v3, v4⟩ := h
  exact ⟨by rwa [hr], by rwa [hf], by rwa [hc], by rwa [hm]⟩

theorem badRows_eq_false {rows : Byte} : badRows rows = false ↔ 1 ≤ rows.toNat ∧ rows.toNat ≤ 4 := by
  simp [badRows_eq_not_legal, legalRows]

theorem isFunctionSet_functionSet (rows : Byte) (font : Bool) : isFunctionSet (functionSet rows font) = true := by
  unfold functionSet
  split <;> split <;> decide

theorem isDisplayControl_initialCtrl : isDisplayControl initialCtrl = true := by decide

theorem isEntryMode_initialMode : isEntryMode initialMode = true := by decide

/-- The display registers that INIT leaves (R160). -/
theorem initialised_display (rows cols font : Byte) (s : State) :
    let t := s.initialised rows cols font
    t.rows = rows ∧ t.font = flagOf font ∧ t.func = functionSet rows (flagOf font) ∧ t.ctrl = initialCtrl ∧
      t.mode = initialMode ∧ t.phase = .ready := by
  simp [State.initialised]

/-- Inside an INIT that was begun in Ready the registers keep their classes. -/
theorem initSends_readyValues {rows : Byte} (cols font : Byte) (hr : badRows rows = false) :
    Triple ReadyValues (initSends rows cols font) ReadyValues ReadyValues := by
  refine triple_initSends (P := ReadyValues) (fun _ _ k h => h.of_sameDisplay k.rest.display) (fun _ h => h)
    ?_ ?_ ?_ ?_ ?_ ?_
  all_goals rintro s ⟨hrows, hf, hc, hm⟩
  · exact ⟨hrows, hf, hc, hm⟩
  · exact ⟨badRows_eq_false.1 hr, hf, hc, hm⟩
  · exact ⟨hrows, isFunctionSet_functionSet s.rows s.font, hc, hm⟩
  · exact ⟨hrows, hf, isDisplayControl_initialCtrl, hm⟩
  · exact ⟨hrows, hf, hc, isEntryMode_initialMode⟩
  · exact ⟨hrows, hf, hc, hm⟩

/-- INIT before CONFIGURE gets no further than its first START (R126). -/
theorem initSends_disabled (rows cols font : Byte) {s : State} (ht : s.txn = false) (he : s.busEn = false) :
    initSends rows cols font s =
      .stuck (emit (.delay Config.tPowerUs) (engine ((s.setGeometry rows cols (flagOf font)).setBl true))).request :=
  initSends_stuck (handshakeSends_disabled (by simpa using ht) (by simpa using he))

theorem initialize4Bit_done_enabled {rows cols font : Byte} {s u : State}
    (h : initialize4Bit rows cols font s = .done u) : s.busEn = true := by
  obtain ⟨ht, -⟩ := initialize4Bit_done h
  obtain ⟨hr, hf⟩ := initialize4Bit_operands fun r hr => by rw [h] at hr; cases hr
  rw [initialize4Bit_legal cols hr hf] at h
  cases he : s.busEn with
  | true => rfl
  | false => rw [initSends_disabled rows cols font ht he] at h; cases h

/-- A completed INIT establishes the display part from any state (R160). -/
theorem initialize4Bit_done_displayInv {rows cols font : Byte} {s u : State}
    (h : initialize4Bit rows cols font s = .done u) : DisplayInv u.complete := by
  obtain ⟨-, -, hs⟩ := initialize4Bit_done h
  obtain ⟨hr, -⟩ := initialize4Bit_operands fun r hr => by rw [h] at hr; cases hr
  have he : u.busEn = true := by
    simpa [State.initialised, initialize4Bit_done_enabled h] using hs.rest.config.busEn
  obtain ⟨⟨hrows, -, hfont, hfunc⟩, hctrl, hmode, hphase⟩ := hs.rest.display
  obtain ⟨i1, i2, i3, i4, i5, i6⟩ := initialised_display rows cols font s
  rw [i1] at hrows
  rw [i2] at hfont
  rw [i3] at hfunc
  rw [i4] at hctrl
  rw [i5] at hmode
  refine ⟨fun _ => he, fun _ => ?_, fun _ => ?_, fun _ => ?_, fun _ => ?_, fun _ _ => ?_, fun hn => ?_⟩
  · simpa [hrows] using badRows_eq_false.1 hr
  · simp [hfunc, isFunctionSet_functionSet]
  · simp [hctrl, isDisplayControl_initialCtrl]
  · simp [hmode, isEntryMode_initialMode]
  · simp [hfunc, hrows, hfont]
  · cases (hphase.trans i6).symm.trans hn

theorem initialize4Bit_stuck_readyValues {rows cols font : Byte} {s u : State} (hs : ReadyValues s)
    (h : initialize4Bit rows cols font s = .stuck u) : ReadyValues u := by
  obtain ⟨hr, hf⟩ := initialize4Bit_operands fun r hr => by rw [h] at hr; cases hr
  have hu := initSends_readyValues cols font hr s hs
  rwa [← initialize4Bit_legal cols hr hf, h] at hu

/-- INIT keeps the display part: a stuck one, whatever it has written, has left the phase, and in Ready each cached byte
in its class (R160). -/
theorem exec_init_displayInv {rows cols font : Byte} {s t : State} (hd : DisplayInv s)
    (h : exec (.init rows cols font) s = .next t) : DisplayInv t := by
  have hc := exec_config h (by simp)
  obtain ⟨-, -, -, hf⟩ := initFrame rows cols font s t h
  rw [exec_eq_perform] at h
  obtain ⟨u, hu, rfl⟩ | hu := perform_next h
  · exact initialize4Bit_done_displayInv hu
  · have hn := named_bodyOf (.init rows cols font) (.init rows cols font) (s.begin (.init rows cols font)) ⟨0, rfl⟩
    rw [hu] at hn
    obtain ⟨k, hk⟩ := hn
    have hp : t.phase = s.phase := hf (by simp [hk])
    have hb : SameDisplay s (s.begin (.init rows cols font)) := by simp [SameDisplay, SameGeometry]
    have hv : t.phase = .ready → ReadyValues t := fun hr =>
      initialize4Bit_stuck_readyValues ((hd.readyValues (hp ▸ hr)).of_sameDisplay hb) hu
    exact ⟨fun hr => hc.busEn.trans (hd.ready_enabled (hp ▸ hr)), fun hr => (hv hr).rows, fun hr => (hv hr).func,
      fun hr => (hv hr).ctrl, fun hr => (hv hr).mode, by simp [hk], by simp [hk]⟩

/-! ## Every step and every run -/

/-- A command from the idle block keeps the invariants, complete or stuck. -/
theorem exec_inv {i : Instr} {s t : State} (hs : Inv s) (hi : s.useq = .idle) (h : exec i s = .next t) : Inv t := by
  obtain ⟨hb, hc⟩ := exec_bus_config (hs.running hi) h
  refine ⟨hb, ?_, exec_portInv hs.port h, hc⟩
  by_cases hn : ∃ rows cols font, i = .init rows cols font
  · obtain ⟨rows, cols, font, rfl⟩ := hn
    exact exec_init_displayInv hs.display h
  · exact exec_displayInv hs.display hi h fun rows cols font hi => hn ⟨rows, cols, font, hi⟩

/-- Settles O43: a step holds reset, waits on in a stuck command, runs a command, or takes the bytes presented. -/
theorem everyStepKeepsTheInvariants : Obligations.EveryStepKeepsTheInvariants := by
  intro s t hs h
  cases hr : s.rstN with
  | false =>
    rw [step, hr] at h
    cases h
    exact .holdReset s
  | true =>
    cases hu : s.useq with
    | executing c k =>
      simp only [step, hr, hu, if_true, Host.Outcome.next.injEq] at h
      exact h ▸ hs.engine
    | idle =>
      cases hd : decode s.arrived with
      | command i rest =>
        rw [step_command hr hu hd] at h
        exact exec_inv (hs.engine.take rest) hu h
      | incomplete =>
        rw [step_incomplete hr hu hd] at h
        cases h
        exact hs.engine.takeAll hd
      | reserved op =>
        rw [step_reserved hr hu hd] at h
        cases h

/-- Whatever the host and the environment do, the invariants hold. -/
theorem Reachable.inv {s : State} (h : Reachable s) : Inv s := by
  induction h with
  | reset w a b e => exact resetMeetsTheInvariants.withInputs true [] w a b e
  | step _ hx hs => exact everyStepKeepsTheInvariants _ _ hs hx
  | @host s level bs _ hs => exact hs.withInputs level bs s.waits s.acks s.bytes s.stops

/-- Settles O44: it is part of the bus invariant. -/
theorem reachableTracesAreFramed : Obligations.ReachableTracesAreFramed := fun _ h =>
  ⟨h.inv.bus.framed, h.inv.bus.txn_enabled⟩

end Sys2Proof.Machine
end

section
/-! PROOFS. The BusDriver commands (R120 to R124), outcome by outcome, and what the commands above them do at their
first START: refused with a transaction open (R125), stuck before CONFIGURE (R126). -/

namespace Sys2Proof.Machine

/-! ## From the end of a body to the end of its command -/

section
variable {i : Instr} {s u : State}

theorem exec_of_refused {r : Refusal} (h : bodyOf i (s.begin i) = .refused r) : exec i s = .refused r :=
  (exec_eq_perform i s).trans (perform_refused h)

theorem completes_of_done (h : bodyOf i (s.begin i) = .done u) (hc : u.cp = s.cp) : Completes i s u.complete :=
  ⟨(exec_eq_perform i s).trans (perform_done h), congrArg (· + 1) hc, rfl⟩

theorem hangs_of_stuck {k : Nat} (h : bodyOf i (s.begin i) = .stuck u) (hc : u.cp = s.cp)
    (hu : u.useq = .executing i k) : Hangs i s k u :=
  ⟨(exec_eq_perform i s).trans (perform_stuck h), hc, hu⟩

end

/-- One wait asks for the next answer alone. -/
theorem waitsEnd_one (s : State) : s.waitsEnd 1 = s.waits.head Config.waitEnds := Bool.and_true _

/-! ## CONFIGURE (R120) -/

theorem badAddr_iff {addr : Byte} : badAddr addr = true ↔ 0x80 ≤ addr.toNat := by
  simp [badAddr_eq_not_legal, legalAddr]

theorem toNat_addrOf {addr : Byte} (h : addr.toNat < 0x80) : (addrOf addr).toNat = addr.toNat := by
  rw [addrOf, BitVec.toNat_setWidth]
  exact Nat.mod_eq_of_lt h

theorem divisorFor_unsupported {speed : Byte} (h : 2 ≤ speed.toNat) (old : Byte) : divisorFor speed old = old := by
  have h0 : speed ≠ 0x00 := by rintro rfl; simp at h
  have h1 : speed ≠ 0x01 := by rintro rfl; simp at h
  rw [divisorFor, if_neg h0, if_neg h1]

/-- Settles O12: the two checks, then one state with every write in it. -/
theorem configureWritesTheBusConfig : Obligations.ConfigureWritesTheBusConfig := by
  intro addr speed s
  have legal : addr.toNat < 0x80 → badAddr addr = false := fun ha =>
    Bool.eq_false_iff.2 fun hb => absurd (badAddr_iff.1 hb) (by omega)
  refine ⟨fun ha => ?_, fun ha he => ?_, fun ha he => ?_⟩
  · exact exec_of_refused (configure_badAddr (badAddr_iff.2 ha))
  · exact exec_of_refused (configure_again (legal ha) he)
  · refine ⟨_, completes_of_done (configure_ends (legal ha) he) rfl, toNat_addrOf ha, rfl, rfl, rfl, rfl, rfl,
      ?_, ?_, ?_⟩
    · rintro rfl; rfl
    · rintro rfl; rfl
    · exact fun hv => divisorFor_unsupported hv s.bitrate

/-! ## START, WBYTE, STOP and RBYTE (R121 to R124) -/

/-- Settles O13: the four outcomes of START's body, the two waits that never end being one case. -/
theorem startOpensATransaction : Obligations.StartOpensATransaction := by
  intro s
  rw [waitsEnd_one]
  refine ⟨fun ht => exec_of_refused (start_refused ht), fun ht he hw => ?_, fun ht hstop => ?_⟩
  · exact ⟨_, completes_of_done (start_ends ht he hw) rfl, rfl, rfl, rfl, rfl⟩
  · cases he : s.busEn with
    | false => exact ⟨_, hangs_of_stuck (start_disabled ht he) rfl rfl, rfl, ht, rfl⟩
    | true =>
      have hw := hstop.resolve_left (by simp [he])
      exact ⟨_, hangs_of_stuck (start_never ht he hw) rfl rfl, rfl, ht, rfl⟩

/-- Settles O14: the three outcomes of WBYTE's body. -/
theorem wbyteShiftsTheByteOut : Obligations.WbyteShiftsTheByteOut := by
  intro b s
  rw [waitsEnd_one]
  refine ⟨fun ht => exec_of_refused (writeByte_refused b ht), fun ht he hw => ?_, fun ht he hw => ?_⟩
  · exact ⟨_, completes_of_done (writeByte_ends b ht he hw) rfl, rfl, rfl, rfl, ht, rfl, rfl⟩
  · exact ⟨_, hangs_of_stuck (writeByte_never b ht he hw) rfl rfl, rfl, rfl, rfl, ht, rfl⟩

/-- Settles O15: STOP's body has no wait. -/
theorem stopClosesWithoutWaiting : Obligations.StopClosesWithoutWaiting := fun _ =>
  ⟨fun ht => exec_of_refused (stop_refused ht), fun ht =>
    ⟨_, completes_of_done (stop_ends ht) rfl, rfl, rfl, rfl, rfl, rfl⟩⟩

/-- Settles O16: the three outcomes of RBYTE's body. -/
theorem rbyteReturnsTheReceivedByte : Obligations.RbyteReturnsTheReceivedByte := by
  intro s
  rw [waitsEnd_one]
  refine ⟨fun ht => exec_of_refused (readByte_refused ht), fun ht he hw => ?_, fun ht he hw => ?_⟩
  · exact ⟨_, completes_of_done (readByte_ends ht he hw) rfl, rfl, rfl, rfl, rfl, rfl, rfl, rfl, ht⟩
  · exact ⟨_, hangs_of_stuck (readByte_never ht he hw) rfl rfl, rfl, rfl, rfl, rfl, rfl, ht⟩

/-! ## The first SENDNIBBLE of a command above the BusDriver (R125) -/

/-- The state in which a command above the BusDriver comes to its first START: its own register is written, and INIT has
written the geometry, waited for the display's power and forced the backlight (R160). -/
def beforeFirstSend (s : State) : Instr → State
  | .init rows cols font =>
    emit (.delay Config.tPowerUs) (engine ((s.setGeometry rows cols (flagOf font)).setBl true))
  | i => ownWrite s i

/-- The flow is a SENDNIBBLE in `s0` and whatever comes after it. -/
def BeginsWithSend (f : Flow) (s0 : State) : Prop := ∃ x g, f = (sendNibble x s0).andThen g

namespace BeginsWithSend

theorem steps {f : State → Flow} {s s0 : State} (h : BeginsWithSend (f s) s0) (fs : List (State → Flow)) :
    BeginsWithSend (Machine.steps (f :: fs) s) s0 := by
  obtain ⟨x, g, hx⟩ := h
  exact ⟨x, _, by rw [steps_cons, hx, Flow.andThen_assoc]⟩

theorem sendNibble (x : Byte) (s : State) : BeginsWithSend (sendNibble x s) s := ⟨x, .done, (Flow.andThen_done _).symm⟩

theorem pulseLatch (x : Byte) (s : State) : BeginsWithSend (pulseLatch x s) s := (sendNibble _ s).steps _

theorem sendByte (v m : Byte) (s : State) : BeginsWithSend (sendByte v m s) s := (sendNibble _ s).steps _

theorem command (b : Byte) (s : State) : BeginsWithSend (command b s) s := sendByte b 0x00 s

/-- With a transaction open a PRINT is refused by a check of its own, as its first SENDNIBBLE would be. -/
theorem print {s : State} (c : Byte) (cs : List Byte) (hp : s.phase = .ready) :
    BeginsWithSend (print (c :: cs) s) s := by
  cases ht : s.txn with
  | true => exact ⟨0, .done, by rw [print_refused _ hp ht, sendNibble_refused _ ht, Flow.refused_andThen]⟩
  | false =>
    obtain ⟨x, g, hx⟩ := (sendByte c Config.bitRS s).steps [delayUs Config.tCharUs]
    exact ⟨x, _, by rw [print_ready _ hp ht, printAll, writeData, hx, Flow.andThen_assoc]⟩

/-- INIT begins with its register writes and the wait for the display's power (R160). -/
theorem initSends (rows cols font : Byte) (s : State) :
    BeginsWithSend (initSends rows cols font s) (beforeFirstSend s (.init rows cols font)) := by
  obtain ⟨x, g, hx⟩ : BeginsWithSend (handshakeSends ((s.setGeometry rows cols (flagOf font)).setBl true))
      (beforeFirstSend s (.init rows cols font)) := by
    rw [handshakeSends, steps_cons, delayUs_apply, Flow.done_andThen]
    exact (sendNibble _ _).steps _
  exact ⟨x, _, by
    rw [Machine.initSends, steps_cons, assign_apply, Flow.done_andThen, steps_cons, handshake_eq, hx,
      Flow.andThen_assoc]⟩

theorem controlFlag {f on : Byte} {s : State} (hp : s.phase = .ready) (hb : on.toNat ≤ 1) :
    BeginsWithSend (controlFlag f on s) (s.setCtrl (setFlag f (flagOf on) s.ctrl)) := by
  rw [controlFlag_legal hp hb, flagOf_eq on hb]
  exact command _ _

theorem modeFlag {name : String} {f on : Byte} {s : State} (hp : s.phase = .ready) (hb : on.toNat ≤ 1) :
    BeginsWithSend (modeFlag name f on s) (s.setMode (setFlag f (flagOf on) s.mode)) := by
  rw [modeFlag_legal hp hb, flagOf_eq on hb]
  exact command _ _

theorem setBacklight {on : Byte} (hb : on.toNat ≤ 1) (s : State) :
    BeginsWithSend (setBacklight on s) (s.setBl (flagOf on)) := by
  rw [setBacklight_legal hb, flagOf_eq on hb]
  exact sendNibble _ _

end BeginsWithSend

theorem toNat_le_one_of_legalBool {v : Byte} (h : legalBool v = true) : v.toNat ≤ 1 := of_decide_eq_true h

/-- Past its checks, a command that opens a transaction begins with a SENDNIBBLE. -/
theorem bodyOf_beginsWithSend {i : Instr} {s : State} (ho : opensTransaction i = true) (hw : i.wellFormed = true)
    (hp : isPhaseChecked i = true → s.phase = .ready) : BeginsWithSend (bodyOf i s) (beforeFirstSend s i) := by
  cases i with
  | configure | start | wbyte | stop | rbyte => cases ho
  | sendNibble x => exact .sendNibble x s
  | pulseLatch x => exact .pulseLatch x s
  | sendByte v m => exact .sendByte v m s
  | setBacklight on => exact .setBacklight (toNat_le_one_of_legalBool hw) s
  | init rows cols font =>
    obtain ⟨hr, hf⟩ := Bool.and_eq_true_iff.1 hw
    rw [bodyOf, initialize4Bit_legal cols (by simp [badRows_eq_not_legal, hr]) (by simp [badBool_eq_not_legal, hf])]
    exact .initSends rows cols font s
  | clear => rw [bodyOf, clear_ready (hp rfl)]; exact (BeginsWithSend.command _ s).steps _
  | home => rw [bodyOf, home_ready (hp rfl)]; exact (BeginsWithSend.command _ s).steps _
  | setCursor col row => rw [bodyOf, setCursor_ready col row (hp rfl)]; exact .command _ s
  | display on | cursor on | blink on => exact .controlFlag (hp rfl) (toNat_le_one_of_legalBool hw)
  | entryDir on | autoscroll on => exact .modeFlag (hp rfl) (toNat_le_one_of_legalBool hw)
  | scroll right => rw [bodyOf, scroll_legal (hp rfl) (toNat_le_one_of_legalBool hw)]; exact .command _ s
  | loadGlyph slot p0 p1 p2 p3 p4 p5 p6 p7 =>
    rw [bodyOf, loadGlyph_ready slot _ (hp rfl)]
    exact (BeginsWithSend.command _ s).steps _
  | print cs =>
    cases cs with
    | nil => cases ho
    | cons c cs => exact .print c cs (hp rfl)
  | backlight on =>
    rw [bodyOf, backlight_ready on (hp rfl)]
    exact .setBacklight (toNat_le_one_of_legalBool hw) s

/-- What stands before the first START changes neither the position of the command nor the state of the bus, and leaves
no event but INIT's first delay. -/
theorem beforeFirstSend_fields (s : State) (i : Instr) :
    (beforeFirstSend s i).cp = s.cp ∧ (beforeFirstSend s i).useq = s.useq ∧ (beforeFirstSend s i).txn = s.txn ∧
      (beforeFirstSend s i).busEn = s.busEn ∧
      (beforeFirstSend s i).trace =
        s.trace ++ (match i with | .init _ _ _ => [Event.delay 40000] | _ => []) := by
  have hb := sameBus_ownWrite s i
  cases i with
  | init => simp [beforeFirstSend, Config.tPowerUs]
  | _ => exact ⟨hb.cp, hb.useq, hb.txn, hb.config.busEn, hb.trace.trans (List.append_nil _).symm⟩

theorem opensTransaction_or_print_nil {i : Instr} (h : isUpperCommand i = true) :
    opensTransaction i = true ∨ i = .print [] := by
  cases i with
  | print cs => cases cs <;> simp [opensTransaction]
  | _ => exact .inl h

/-- Settles O32: the first START is refused, or PRINT's own check. -/
theorem openTransactionRefusesUpperCommands : Obligations.OpenTransactionRefusesUpperCommands := by
  intro i s hu hw ht hp
  refine exec_of_refused ?_
  obtain ho | rfl := opensTransaction_or_print_nil hu
  · obtain ⟨x, g, hx⟩ := bodyOf_beginsWithSend (s := s.begin i) ho hw (by simpa using hp)
    obtain ⟨-, -, hopen, -⟩ := beforeFirstSend_fields (s.begin i) i
    rw [hx, sendNibble_refused x (by simpa [ht] using hopen), Flow.refused_andThen]
  · exact print_refused [] (hp rfl) ht

/-- Settles O33: the first START waits for ever. -/
theorem disabledBusHangsUpperCommands : Obligations.DisabledBusHangsUpperCommands := by
  intro i s ho hw ht he hp
  obtain ⟨x, g, hx⟩ := bodyOf_beginsWithSend (s := s.begin i) ho hw (by simpa using hp)
  obtain ⟨hcp, huseq, htxn, hen, htrace⟩ := beforeFirstSend_fields (s.begin i) i
  simp only [begin_fields, ht, he] at hcp huseq htxn hen htrace
  rw [sendNibble_disabled x htxn hen, Flow.stuck_andThen] at hx
  exact ⟨_, hangs_of_stuck hx hcp huseq, htxn, rfl, htrace⟩

end Sys2Proof.Machine
end

section
/-! PROOFS. The ExpanderFramer commands (R140 to R143): SENDNIBBLE as the four primitives one after the other, complete
and stuck at each of its three waits, and from it the commands that are made of SENDNIBBLEs. -/

namespace Sys2Proof.Machine

/-! ## SENDNIBBLE wait by wait (R140) -/

/-- Waits that end, the last of them apart. -/
theorem waitsEnd_succ (s : State) (n : Nat) :
    s.waitsEnd (n + 1) = (s.waitsEnd n && (s.waits.skip n).head Config.waitEnds) := by
  rw [waitsEnd_add, Feed.allTrue_succ, Feed.allTrue_zero, Bool.and_true]

/-- What a START that completes leaves (R121). -/
def State.afterStart (s : State) : State := s.request.waitEnded.started

/-- What a WBYTE that completes leaves (R122). -/
def State.afterWrite (b : Byte) (s : State) : State :=
  State.wrote b (State.waitEnded (State.request (State.load b s)))

/-- What a WBYTE that waits for ever leaves (R122). -/
def State.stuckWrite (b : Byte) (s : State) : State := State.waitNever (State.request (State.load b s))

section
variable {s : State} (x : Byte) (ht : s.txn = false) (he : s.busEn = true)
include ht he

theorem sendNibble_startNever (h1 : s.waits.head Config.waitEnds = false) :
    sendNibble x s = .stuck s.request.waitNever := by
  rw [sendNibble, steps_cons, start_never ht he h1, Flow.stuck_andThen]

theorem sendNibble_of_start (h1 : s.waits.head Config.waitEnds = true) :
    sendNibble x s = steps [writeByte (addrByte s.addr), writeByte (x ||| blMask s.bl), stop] s.afterStart := by
  rw [sendNibble, steps_cons, start_ends ht he h1, Flow.done_andThen, State.afterStart]

theorem sendNibble_addressNever (h1 : s.waits.head Config.waitEnds = true)
    (h2 : (s.waits.skip 1).head Config.waitEnds = false) :
    sendNibble x s = .stuck (s.afterStart.stuckWrite (addrByte s.addr)) := by
  rw [sendNibble_of_start x ht he h1, steps_cons, writeByte_never (s := s.afterStart) _ rfl he h2, Flow.stuck_andThen,
    State.stuckWrite]

theorem sendNibble_of_address (h1 : s.waits.head Config.waitEnds = true)
    (h2 : (s.waits.skip 1).head Config.waitEnds = true) :
    sendNibble x s = steps [writeByte (x ||| blMask s.bl), stop] (s.afterStart.afterWrite (addrByte s.addr)) := by
  rw [sendNibble_of_start x ht he h1, steps_cons, writeByte_ends (s := s.afterStart) _ rfl he h2, Flow.done_andThen,
    State.afterWrite]

theorem sendNibble_dataNever (h1 : s.waits.head Config.waitEnds = true)
    (h2 : (s.waits.skip 1).head Config.waitEnds = true) (h3 : (s.waits.skip 2).head Config.waitEnds = false) :
    sendNibble x s =
      .stuck ((s.afterStart.afterWrite (addrByte s.addr)).stuckWrite (x ||| blMask s.bl)) := by
  rw [sendNibble_of_address x ht he h1 h2, steps_cons,
    writeByte_never (s := s.afterStart.afterWrite _) _ rfl he h3, Flow.stuck_andThen, State.stuckWrite]

theorem sendNibble_of_data (h1 : s.waits.head Config.waitEnds = true)
    (h2 : (s.waits.skip 1).head Config.waitEnds = true) (h3 : (s.waits.skip 2).head Config.waitEnds = true) :
    sendNibble x s =
      .done ((s.afterStart.afterWrite (addrByte s.addr)).afterWrite (x ||| blMask s.bl)).stopped := by
  rw [sendNibble_of_address x ht he h1 h2, steps_cons,
    writeByte_ends (s := s.afterStart.afterWrite _) _ rfl he h3, Flow.done_andThen, steps_one, ← State.afterWrite,
    stop_ends rfl]

end

/-- Three waits that end, each by itself. -/
theorem waitsEnd_three {s : State} (h : s.waitsEnd 3 = true) :
    s.waits.head Config.waitEnds = true ∧ (s.waits.skip 1).head Config.waitEnds = true ∧
      (s.waits.skip 2).head Config.waitEnds = true := by
  rw [waitsEnd_succ, waitsEnd_succ, waitsEnd_one, Bool.and_eq_true, Bool.and_eq_true] at h
  exact and_assoc.1 h

/-! ## From a sending body to the end of its command -/

theorem exec_of_done {i : Instr} {s u : State} (h : bodyOf i (s.begin i) = .done u) : exec i s = .next u.complete :=
  (exec_eq_perform i s).trans (perform_done h)

/-- A command that has written registers of the upper layers, `s0` being the state after that, and then only sends
completes from a ready bus (R47, R202). -/
theorem completes_of_sends {i : Instr} {g : State → Flow} {s s0 : State} {n : Nat} {ev : BitVec 7 → Bool → List Event}
    (hb : bodyOf i (s.begin i) = g s0) (hs : SameBus (s.begin i) s0) (hg : Sends g n ev) (hr : BusReady s n) :
    ∃ t, Completes i s t ∧ AfterSending n (ev s0.addr s0.bl) s t ∧ t.bl = s0.bl ∧ SameDisplay s0 t := by
  have ⟨_, ht, _⟩ := hr
  obtain ⟨u, hu, hsent⟩ := hg s0 (hs.busReady (hr.begin i))
  obtain ⟨t, hc, ha, hbl, hd, -⟩ := completes_of_sent (exec_eq_perform i s) (hb.trans hu) hs hsent ht
  exact ⟨t, hc, ha, hbl, hd⟩

/-- A command that comes down to one SENDNIBBLE leaves its stop condition pending (R123, R140). -/
theorem completes_of_sendNibble {i : Instr} {x : Byte} {s s0 : State} (hb : bodyOf i (s.begin i) = sendNibble x s0)
    (hs : SameBus (s.begin i) s0) (hr : BusReady s 3) :
    ∃ t, Completes i s t ∧ AfterSending 3 (sendNibbleEvents s0.addr s0.bl x) s t ∧ t.bl = s0.bl ∧
      t.stopPend = true := by
  have ⟨_, ht, _⟩ := hr
  obtain ⟨u, hu, hsent, hp⟩ := sendNibble_ends x (hs.busReady (hr.begin i))
  obtain ⟨t, hc, ha, hbl, -, hpend⟩ := completes_of_sent (exec_eq_perform i s) (hb.trans hu) hs hsent ht
  exact ⟨t, hc, ha, hbl, hpend.trans hp⟩

/-! ## The four commands -/

/-- Settles O17: the refusal, the completion, and the three waits one after the other. -/
theorem sendNibbleIsOneTransaction : Obligations.SendNibbleIsOneTransaction := by
  intro x s
  refine ⟨fun ht => exec_of_refused (sendNibble_refused x ht), fun hr => ?_, fun ht he h1 => ?_,
    fun ht he h1 h2 => ?_, fun ht he h2 h3 => ?_⟩
  · obtain ⟨t, hc, ha, -, hp⟩ := completes_of_sendNibble (i := .sendNibble x) rfl (.refl _) hr
    exact ⟨t, hc, ha, ha.data, ha.done, hp⟩
  · rw [waitsEnd_one] at h1
    exact ⟨_, hangs_of_stuck (sendNibble_startNever x ht he h1) rfl rfl, rfl, ht⟩
  · rw [waitsEnd_succ, h1, Bool.true_and] at h2
    rw [waitsEnd_one] at h1
    exact ⟨_, hangs_of_stuck (sendNibble_addressNever x ht he h1 h2) rfl rfl, rfl, rfl⟩
  · rw [waitsEnd_succ, h2, Bool.true_and] at h3
    rw [waitsEnd_succ, waitsEnd_one, Bool.and_eq_true] at h2
    obtain ⟨h1, h2⟩ := h2
    exact ⟨_, hangs_of_stuck (sendNibble_dataNever x ht he h1 h2 h3) rfl rfl, List.append_assoc .., rfl⟩

/-- Settles O18: PULSELATCH only sends, and by its own lines the events are R141's. -/
theorem pulseLatchRaisesAndDropsEnable : Obligations.PulseLatchRaisesAndDropsEnable := fun x _ hr =>
  completes_of_sends (i := .pulseLatch x) rfl (.refl _) (sends_pulseLatch x) hr

/-- Settles O19: SENDBYTE only sends, and by its own lines the events are R142's. -/
theorem sendByteSendsTwoNibbleTransfers : Obligations.SendByteSendsTwoNibbleTransfers := fun v m _ hr =>
  ⟨rfl, completes_of_sends (i := .sendByte v m) rfl (.refl _) (sends_sendByte v m) hr⟩

/-- SETBACKLIGHT's data byte is the backlight bit alone (R143). -/
theorem sendNibbleEvents_backlight (addr : BitVec 7) (on : Byte) :
    sendNibbleEvents addr (decide (on = 1)) 0x00 =
      [.start, .write (addrByte addr), .write (if on = 1 then 0x08 else 0x00), .stop] := by
  simp [sendNibbleEvents, busWriteEvents, blMask, Config.bitBL]

/-- Settles O20: past its check, SETBACKLIGHT is the flag's write and one SENDNIBBLE. -/
theorem setBacklightStoresAndSendsTheFlag : Obligations.SetBacklightStoresAndSendsTheFlag := by
  intro on s
  have hbody (ho : on.toNat ≤ 1) := setBacklight_legal ho (s.begin (.setBacklight on))
  have hs := sameBus_setBl (decide (on = 1)) (s.begin (.setBacklight on))
  refine ⟨fun ho => exec_of_refused (setBacklight_reserved ho _), fun ho ht => ?_, fun ho hr => ?_,
    fun ho ht hstop => ?_⟩
  · exact exec_of_refused ((hbody ho).trans (sendNibble_refused _ ht))
  · obtain ⟨t, hc, ha, hbl, hp⟩ := completes_of_sendNibble (i := .setBacklight on) (hbody ho) hs hr
    exact ⟨t, hc, hbl, sendNibbleEvents_backlight s.addr on ▸ ha, hp⟩
  · obtain ⟨k, hk, hstops⟩ := exists_stopsAt ht hstop
    obtain ⟨t, hu, hst⟩ := halts_sendNibble 0x00 _ k hk (hs.stopsAt (hstops.begin _))
    obtain ⟨hh, -, -, hbl, -⟩ := hangs_of_stuckAfter (exec_eq_perform (.setBacklight on) s) ((hbody ho).trans hu) hs hst
    exact ⟨k, t, hh, hbl⟩

/-- Settles O48: the five bodies in the states they reach, which differ in `CP` alone. -/
theorem sendNibbleIsBusWriteByHand : Obligations.SendNibbleIsBusWriteByHand := by
  rintro x s ⟨he, ht, hw⟩
  obtain ⟨h1, h2, h3⟩ := waitsEnd_three hw
  exact ⟨_, _, _, _, _, exec_of_done (start_ends ht he h1), exec_of_done (writeByte_ends _ rfl he h2),
    exec_of_done (writeByte_ends _ rfl he h3), exec_of_done (stop_ends rfl),
    exec_of_done (sendNibble_of_data x ht he h1 h2 h3), rfl⟩

/-! ## Counts (R144, R175) -/

theorem counts_eq_iff {t : List Event} {n k d : Nat} :
    counts t = (n, k, d) ↔ t.length = n ∧ transactions t = k ∧ leastDelayUs t = d := by
  simp [counts]

theorem counts_data (a : BitVec 7) (b : Bool) (c : Byte) : counts (dataEvents a b c) = (28, 6, 102) :=
  counts_sendByte a b c Config.bitRS

theorem counts_homing (a : BitVec 7) (b : Bool) (v : Byte) : counts (homingEvents a b v) = (29, 6, 2102) := by
  simp only [homingEvents, commandEvents, counts_append, counts_sendByte, counts_delay]

theorem counts_handshake (a : BitVec 7) : counts (handshakeEvents a) = (64, 13, 49354) := by
  simp only [handshakeEvents, counts_append, counts_sendNibble, counts_nibbleTransfer, counts_delay]

theorem counts_init (a : BitVec 7) (rows : Byte) (font : Bool) :
    counts (initEvents a rows font) = (206, 43, 53864) := by
  simp only [initEvents, commandEvents, counts_append, counts_handshake, counts_sendByte, counts_homing]

/-- Pieces that all count alike count as many times as there are pieces. -/
theorem counts_flatMap {α : Type} {f : α → List Event} {n k d : Nat} (h : ∀ x, counts (f x) = (n, k, d))
    (l : List α) : counts (l.flatMap f) = (n * l.length, k * l.length, d * l.length) := by
  induction l with
  | nil => rfl
  | cons x l ih => simp [counts_append, h, ih, Nat.mul_succ, Nat.add_comm]

theorem counts_loadGlyph (a : BitVec 7) (b : Bool) (slot : Byte) {ps : List Byte} (h : ps.length = 8) :
    counts (loadGlyphEvents a b slot ps) = (252, 54, 918) := by
  simp only [loadGlyphEvents, commandEvents, counts_append, counts_sendByte, counts_flatMap (counts_data a b), h]

theorem counts_print (a : BitVec 7) (b : Bool) (cs : List Byte) :
    counts (printEvents a b cs) = (29 * cs.length, 6 * cs.length, cs.length * (102 + Config.tCharUs)) := by
  have each (c : Byte) : counts (dataEvents a b c ++ [.delay Config.tCharUs]) = (29, 6, 102 + Config.tCharUs) := by
    simp only [counts_append, counts_data, counts_delay]
  rw [printEvents, counts_flatMap each, Nat.mul_comm cs.length]

/-- Settles O53, from the counts of each command's events. -/
theorem traceCountsAreThoseListed : Obligations.TraceCountsAreThoseListed := by
  intro addr bl font v m rows cs
  simp only [← counts_eq_iff]
  exact ⟨counts_sendNibble addr bl v, counts_pulseLatch addr bl v, counts_sendByte addr bl v m,
    counts_homing addr bl v, counts_init addr rows font, counts_loadGlyph addr bl v,
    counts_print addr bl cs⟩

end Sys2Proof.Machine
end

section
/-! PROOFS. The DisplayController commands (R160 to R172, R177): what each sends and leaves when it completes from a ready
bus, two commands that end alike, and the state machine of PHASE (R174). -/

namespace Sys2Proof.Machine

/-! ## The commands that only send (R161 to R163, R169, R170) -/

/-- Settles O22: past the phase check, each is its byte's SENDBYTE and the delay. -/
theorem clearAndHomeSendAndWaitTwoMilliseconds : Obligations.ClearAndHomeSendAndWaitTwoMilliseconds := fun _ hp hr =>
  ⟨completes_of_sends (i := .clear) (clear_ready hp) (.refl _) sends_clearBody hr,
    completes_of_sends (i := .home) (home_ready hp) (.refl _) sends_homeBody hr⟩

/-- The clamp is the minimum: a row count of at least 1 does not wrap (R163, R107). -/
theorem toNat_clampRow {rows : Byte} (row : Byte) (h : 1 ≤ rows.toNat) :
    (clampRow row rows).toNat = min row.toNat (rows.toNat - 1) := by
  have hpred : (rows - 1).toNat = rows.toNat - 1 := BitVec.toNat_sub_of_le (by simpa [BitVec.le_def] using h)
  unfold clampRow
  split <;> omega

/-- The four entries of the table (R7, R71). -/
theorem rowOffset_of_le {r : Byte} (h : r.toNat ≤ 3) : Config.rowOffset r =
    if r.toNat = 0 then 0x00 else if r.toNat = 1 then 0x40 else if r.toNat = 2 then 0x14 else 0x54 := by
  unfold Config.rowOffset
  split
  case h_5 =>
    simp only [imp_false] at *
    omega
  all_goals
    rename_i hr
    simp [hr]

/-- Settles O23: SETCURSOR's command byte, with the clamped row's entry of the table. -/
theorem setCursorSendsTheClampedAddress : Obligations.SetCursorSendsTheClampedAddress := by
  intro col row s hp h1 h4 hr r offset
  have hclamp := toNat_clampRow row h1
  have hbyte : cursorByte col row s.rows = 0x80 ||| (col + offset) := by
    rw [cursorByte, rowOffset_of_le (by omega), hclamp]
    rfl
  rw [← hbyte]
  exact completes_of_sends (i := .setCursor col row) (setCursor_ready col row hp) (.refl _) (sends_command _) hr

theorem scrollByte_legal {right : Byte} (h : right.toNat ≤ 1) :
    scrollByte right = if right = 1 then 0x1C else 0x18 := by
  simp [scrollByte, flagOf_eq right h, Config.cmdShiftDisplay, Config.flagRight]

/-- Settles O26: SCROLL's command byte, by its operand. -/
theorem scrollSendsTheShiftCommand : Obligations.ScrollSendsTheShiftCommand := by
  intro right s ho hp hr
  rw [← scrollByte_legal ho]
  exact completes_of_sends (i := .scroll right) (scroll_legal hp ho) (.refl _) (sends_command _) hr

theorem sends_loadGlyph (slot : Byte) (ps : List Byte) : Sends (steps [command (glyphByte slot), writeAll ps])
    (18 + 18 * ps.length) fun a b => loadGlyphEvents a b slot ps := by
  simpa [loadGlyphEvents] using (sends_command (glyphByte slot)).cons ((sends_writeAll ps).cons sends_nil)

/-- Settles O27: LOADGLYPH's address command and its eight pattern bytes, in a row. -/
theorem loadGlyphSendsAddressThenPattern : Obligations.LoadGlyphSendsAddressThenPattern := by
  intro slot p0 p1 p2 p3 p4 p5 p6 p7 s hp hr
  obtain ⟨t, hc, ha, hbl, hd⟩ := completes_of_sends (i := .loadGlyph slot p0 p1 p2 p3 p4 p5 p6 p7)
    (loadGlyph_ready slot _ hp) (.refl _) (sends_loadGlyph slot [p0, p1, p2, p3, p4, p5, p6, p7]) hr
  refine ⟨t, hc, ?_, hbl, hd⟩
  simpa [loadGlyphEvents, commandEvents, dataEvents, glyphByte, Config.cmdSetCgram, Config.bitRS] using ha

/-! ## PRINT (R171) -/

theorem completes_print {cs : List Byte} {s : State} (hp : s.phase = .ready) (hr : BusReady s (18 * cs.length)) :
    ∃ t, Completes (.print cs) s t ∧ AfterSending (18 * cs.length) (printEvents s.addr s.bl cs) s t ∧ t.bl = s.bl ∧
      SameDisplay s t :=
  have ⟨_, ht, _⟩ := hr
  completes_of_sends (i := .print cs) (print_ready cs hp ht) (.refl _) (sends_printAll cs) hr

/-- Settles O28: the loop over the characters, and the empty loop, which asks nothing of the bus. -/
theorem printSendsEachCharacter : Obligations.PrintSendsEachCharacter := fun _ hp =>
  ⟨fun _ hr => completes_print hp hr,
    fun ht => ⟨_, completes_of_done (i := .print []) (print_ready [] hp ht) rfl, rfl, rfl⟩⟩

/-- What a completed send leaves of a ready bus is ready for the waits that remain. -/
theorem AfterSending.busReady {m n : Nat} {evs : List Event} {s t : State} (h : AfterSending m evs s t)
    (hr : BusReady s (m + n)) : BusReady t n := by
  obtain ⟨he, -, hw⟩ := hr
  rw [waitsEnd_add, Bool.and_eq_true] at hw
  obtain ⟨-, hw⟩ := hw
  exact ⟨h.config.busEn.trans he, h.txn, by rwa [State.waitsEnd, h.waits]⟩

theorem printAll_append (cs ds : List Byte) (s : State) :
    printAll (cs ++ ds) s = (printAll cs s).andThen (printAll ds) := by
  induction cs generalizing s with
  | nil => rfl
  | cons c cs ih => rw [List.cons_append, printAll, printAll, Flow.andThen_assoc, funext ih]

/-- The states differ in `CP` and `USEQ` alone: in where the block stands in its program. -/
def SameButPosition (s t : State) : Prop := ∃ cp useq, t = { s with cp := cp, useq := useq }

theorem blind_position : Blind SameButPosition := by
  constructor <;> intros <;> rename_i h <;> obtain ⟨cp, useq, rfl⟩ := h
  case txn | busEn | waits | addr | bl | rows | font | func | ctrl | mode | phase => rfl
  all_goals exact ⟨_, _, rfl⟩

/-- Between two PRINTs only the position moves. -/
theorem SameButPosition.complete_begin {m t : State} (h : SameButPosition m t) (hv : t.rspValid = false) (i : Instr) :
    SameButPosition m (t.complete.begin i) := by
  obtain ⟨cp, useq, rfl⟩ := h
  exact ⟨cp + 1, .executing i 0, by simp only [State.begin, State.complete]; congr; exact hv.symm⟩

/-- The body of a completed PRINT is its loop. -/
theorem Completes.printLoop {cs : List Byte} {s t : State} (h : Completes (.print cs) s t) (hp : s.phase = .ready)
    (ht : s.txn = false) : ∃ u, printAll cs (s.begin (.print cs)) = .done u ∧ t = u.complete := by
  obtain ⟨u, hu, rfl⟩ := h.body
  rw [bodyOf, print_ready cs (by simpa using hp) (by simpa using ht)] at hu
  exact ⟨u, hu, rfl⟩

/-- Settles O49: the loop over the concatenation is one loop after the other, and no loop reads the position. -/
theorem printOfConcatenationIsTwoPrints : Obligations.PrintOfConcatenationIsTwoPrints := by
  intro cs ds s hp hr
  have ⟨_, htxn, _⟩ := hr
  have hsum : 18 * (cs.length + ds.length) = 18 * cs.length + 18 * ds.length := Nat.mul_add ..
  obtain ⟨t, ht, hat, -, hdt⟩ := completes_print hp (hsum ▸ hr).mono
  have hpt : t.phase = .ready := hdt.phase.trans hp
  obtain ⟨u, hu, -⟩ := completes_print hpt (hat.busReady (hsum ▸ hr))
  obtain ⟨v, hv, -⟩ := completes_print (cs := cs ++ ds) hp (by rwa [List.length_append])
  refine ⟨t, u, v, ht, hu, hv, ?_⟩
  have hcp : u.cp = s.cp + 2 := by
    obtain ⟨-, hcpt, -⟩ := ht
    obtain ⟨-, hcpu, -⟩ := hu
    omega
  obtain ⟨u', hu', rfl⟩ := hu.printLoop hpt hat.txn
  obtain ⟨t', ht', rfl⟩ := ht.printLoop hp htxn
  obtain ⟨v', hv', rfl⟩ := hv.printLoop hp htxn
  rw [printAll_append] at hv'
  obtain ⟨m, hm, hv'⟩ := andThen_done hv'
  have hmid : SameButPosition m t' := by
    have h := blind_position.printAll cs (s.begin (.print (cs ++ ds))) (s.begin (.print cs)) ⟨_, _, rfl⟩
    rwa [hm, ht'] at h
  have hend : SameButPosition v' u' := by
    obtain ⟨-, -, hvalid⟩ := hat.response
    have h := blind_position.printAll ds _ _ (hmid.complete_begin hvalid (.print ds))
    rwa [hv', hu'] at h
  obtain ⟨cp, useq, rfl⟩ := hend
  rw [← hcp]
  rfl

/-! ## The flags of CTRL and MODE (R164 to R168) -/

theorem setFlag_operand (f on v : Byte) : setFlag f (decide (on = 1)) v = if on = 1 then v ||| f else v &&& ~~~f := by
  simp [setFlag]

theorem completes_controlFlag {i : Instr} {f on : Byte} {s : State} (hi : bodyOf i = controlFlag f on)
    (ho : on.toNat ≤ 1) (hp : s.phase = .ready) (hr : BusReady s 18) :
    ∃ t, Completes i s t ∧ t.ctrl = (if on = 1 then s.ctrl ||| f else s.ctrl &&& ~~~f) ∧
      AfterSending 18 (commandEvents s.addr s.bl t.ctrl) s t ∧ t.bl = s.bl ∧ SameGeometry s t ∧ t.mode = s.mode ∧
      t.phase = s.phase := by
  obtain ⟨t, hc, ha, hbl, hg, hctrl, hmode, hphase⟩ := completes_of_sends
    (hi ▸ controlFlag_legal (s := s.begin i) hp ho) (sameBus_setCtrl _ _) (sends_command _) hr
  exact ⟨t, hc, hctrl.trans (setFlag_operand f on s.ctrl), hctrl ▸ ha, hbl, hg, hmode, hphase⟩

theorem completes_modeFlag {i : Instr} {name : String} {f on : Byte} {s : State} (hi : bodyOf i = modeFlag name f on)
    (ho : on.toNat ≤ 1) (hp : s.phase = .ready) (hr : BusReady s 18) :
    ∃ t, Completes i s t ∧ t.mode = (if on = 1 then s.mode ||| f else s.mode &&& ~~~f) ∧
      AfterSending 18 (commandEvents s.addr s.bl t.mode) s t ∧ t.bl = s.bl ∧ SameGeometry s t ∧ t.ctrl = s.ctrl ∧
      t.phase = s.phase := by
  obtain ⟨t, hc, ha, hbl, hg, hctrl, hmode, hphase⟩ := completes_of_sends
    (hi ▸ modeFlag_legal (s := s.begin i) hp ho) (sameBus_setMode _ _) (sends_command _) hr
  exact ⟨t, hc, hmode.trans (setFlag_operand f on s.mode), hmode ▸ ha, hbl, hg, hctrl, hphase⟩

/-- Settles O24: the three display-control toggles, with their own flags. -/
theorem controlFlagsAreCachedAndSent : Obligations.ControlFlagsAreCachedAndSent := fun on _ ho hp hr =>
  ⟨completes_controlFlag (i := .display on) rfl ho hp hr, completes_controlFlag (i := .cursor on) rfl ho hp hr,
    completes_controlFlag (i := .blink on) rfl ho hp hr⟩

/-- Settles O25: the two entry-mode toggles, with their own flags. -/
theorem entryModeFlagsAreCachedAndSent : Obligations.EntryModeFlagsAreCachedAndSent := fun on _ ho hp hr =>
  ⟨completes_modeFlag (i := .entryDir on) rfl ho hp hr, completes_modeFlag (i := .autoscroll on) rfl ho hp hr⟩

/-! ## INIT (R160) -/

theorem sameBus_initialised (rows cols font : Byte) (s : State) : SameBus s (s.initialised rows cols font) := by
  constructor <;> simp [State.initialised, SameBusConfig, SameInputs]

theorem functionSet_operands (rows font : Byte) : functionSet rows (decide (font = 1)) =
    0x20 ||| (if 1 < rows.toNat then 0x08 else 0x00) ||| (if font = 1 ∧ rows = 1 then 0x04 else 0x00) := by
  simp [functionSet, Config.classFunctionSet, Config.flagLines, Config.flagTall, BitVec.toNat_eq]

/-- Settles O21: INIT's sends between its register writes, and what the writes have left. -/
theorem initRunsTheHandshakeAndBecomesReady : Obligations.InitRunsTheHandshakeAndBecomesReady := by
  intro rows cols font s h1 h4 hf hr a nibble byte func evs
  have ⟨_, ht, _⟩ := hr
  have hfunc : functionSet rows (decide (font = 1)) = func := functionSet_operands rows font
  have hevs : evs = initEvents s.addr rows (decide (font = 1)) := by
    simp only [evs, initEvents, handshakeEvents, homingEvents, hfunc, List.append_assoc]
    rfl
  refine ⟨hevs, ?_⟩
  obtain ⟨u, hu, hsent⟩ := initSends_ends (rows := rows) (cols := cols) (font := font) (hr.begin (.init rows cols font))
  have hbody := (initialize4Bit_legal cols (badRows_legal h1 h4) (badBool_legal hf) _).trans hu
  obtain ⟨t, hc, ha, hbl, ⟨⟨hrows, hcols, hfont, hfn⟩, hctrl, hmode, hphase⟩, -⟩ :=
    completes_of_sent rfl hbody (sameBus_initialised rows cols font _) hsent ht
  rw [flagOf_eq font hf] at ha
  replace hfont : t.font = decide (font = 1) := hfont.trans (flagOf_eq font hf)
  replace hfn : t.func = func := hfn.trans ((congrArg (functionSet rows) (flagOf_eq font hf)).trans hfunc)
  exact ⟨t, hc, hevs ▸ ha, hrows, hcols, hfont, hbl, hctrl, hmode, hphase, hfn⟩

/-! ## Two commands that end alike (R172) -/

/-- A body that is stuck stands in its own command. -/
theorem bodyOf_stuck_named {i : Instr} {s u : State} (h : bodyOf i (s.begin i) = .stuck u) : Named i u := by
  have hn := named_bodyOf i i (s.begin i) ⟨0, rfl⟩
  rwa [h] at hn

/-- No body of a command that only sends counts the command (R22). -/
theorem bodyOf_keeps_cp {i : Instr} (hi : sendsOnly i = true) (s : State) :
    (bodyOf i (s.begin i)).Holds (fun u => u.cp = s.cp) fun u => u.cp = s.cp :=
  have hw := (sameBus_ownWrite (s.begin i) i).cp
  (bodyOf_busOnly hi (s.begin i)).mono (fun _ h => h.rest.cp.trans hw) fun _ h => h.rest.cp.trans hw

/-- A refused command's body is refused. -/
theorem bodyOf_of_refused {i : Instr} {s : State} {r : Refusal} (h : exec i s = .refused r) :
    bodyOf i (s.begin i) = .refused r := by
  rw [exec_eq_perform, perform] at h
  cases hb : bodyOf i (s.begin i) <;> rw [hb] at h <;> cases h
  rfl

/-- A hanging command's body is stuck. -/
theorem Hangs.body {i : Instr} {s t : State} {k : Nat} (h : Hangs i s k t) : bodyOf i (s.begin i) = .stuck t := by
  obtain ⟨hx, -, hu⟩ := h
  rw [exec_eq_perform] at hx
  obtain ⟨u, -, rfl⟩ | hst := perform_next hx
  · cases hu
  · exact hst

section
variable {R : State → State → Prop} {f : Flow} {s : State}

theorem Flow.Related.done (h : (Flow.done s).Related R f) : ∃ t, f = .done t ∧ R s t := by
  cases f with
  | done t => exact ⟨t, rfl, h⟩
  | stuck | refused => exact h.elim

theorem Flow.Related.stuck (h : (Flow.stuck s).Related R f) : ∃ t, f = .stuck t ∧ R s t := by
  cases f with
  | stuck t => exact ⟨t, rfl, h⟩
  | done | refused => exact h.elim

theorem Flow.Related.refused {r : Refusal} (h : (Flow.refused r).Related R f) : f = .refused r := by
  cases f with
  | refused q => exact congrArg _ (Eq.symm h)
  | done | stuck => exact h.elim

end

/-- Both commands' bodies, started in `s`, end the same way but for the name of the command. -/
def BodiesAlike (i j : Instr) (s : State) : Prop :=
  (bodyOf i (s.begin i)).Related SameButName (bodyOf j (s.begin j))

namespace BodiesAlike
variable {i j : Instr} {s : State} (h : BodiesAlike i j s)
include h

theorem completes (hj : sendsOnly j = true) {t : State} (ht : Completes i s t) : Completes j s t := by
  have ⟨_, hcp, _⟩ := ht
  obtain ⟨u, hu, rfl⟩ := ht.body
  rw [BodiesAlike, hu] at h
  obtain ⟨v, hv, huv⟩ := h.done
  have hcv := bodyOf_keeps_cp hj s
  rw [hv] at hcv
  rw [huv.complete ((Nat.succ.inj hcp).trans (Eq.symm hcv))]
  exact completes_of_done hv hcv

theorem refused {r : Refusal} (hr : exec i s = .refused r) : exec j s = .refused r := by
  rw [BodiesAlike, bodyOf_of_refused hr] at h
  exact exec_of_refused h.refused

theorem hangs (hj : sendsOnly j = true) {k : Nat} {t : State} (ht : Hangs i s k t) :
    ∃ u, Hangs j s k u ∧ u.trace = t.trace := by
  have ⟨_, _, huseq⟩ := ht
  rw [BodiesAlike, ht.body] at h
  obtain ⟨u, hu, cp, i', j', k', hk, rfl⟩ := h.stuck
  obtain ⟨-, rfl⟩ := USeq.executing.inj (hk.symm.trans huseq)
  obtain ⟨n, hn⟩ := bodyOf_stuck_named hu
  obtain ⟨rfl, -⟩ := USeq.executing.inj hn
  have hcu := bodyOf_keeps_cp hj s
  rw [hu] at hcu
  exact ⟨_, hangs_of_stuck hu hcu rfl, rfl⟩

end BodiesAlike

/-- Commands that come down to one body end alike. -/
theorem endAlike_of_body {i j : Instr} {g : State → Flow} {s : State} (hi : sendsOnly i = true)
    (hj : sendsOnly j = true) (bi : bodyOf i (s.begin i) = g (s.begin i)) (bj : bodyOf j (s.begin j) = g (s.begin j))
    (hg : Respects SameButName g) : EndAlike i j s := by
  have hij : BodiesAlike i j s := by rw [BodiesAlike, bi, bj]; exact hg _ _ (sameButName_begin i j s)
  have hji : BodiesAlike j i s := by rw [BodiesAlike, bi, bj]; exact hg _ _ (sameButName_begin j i s)
  refine ⟨fun t => ⟨hij.completes hj, hji.completes hi⟩, fun r => ⟨hij.refused, hji.refused⟩, fun k tr => ⟨?_, ?_⟩⟩
  · rintro ⟨t, ht, rfl⟩
    exact hij.hangs hj ht
  · rintro ⟨t, ht, rfl⟩
    exact hji.hangs hi ht

/-- Settles O29: past the phase check, BACKLIGHT's body is SETBACKLIGHT's. -/
theorem backlightIsSetBacklightInReady : Obligations.BacklightIsSetBacklightInReady := by
  intro on s hp
  have halike : EndAlike (.backlight on) (.setBacklight on) s :=
    endAlike_of_body rfl rfl (backlight_ready on hp) rfl (blind_name.setBacklight on)
  refine ⟨halike, fun ho hr => ?_⟩
  obtain ⟨-, -, hsend, -⟩ := setBacklightStoresAndSendsTheFlag on s
  obtain ⟨hcompletes, -⟩ := halike
  obtain ⟨t, hc, hbl, ha, -⟩ := hsend ho hr
  exact ⟨t, (hcompletes t).2 hc, hbl, ha.trace⟩

/-! ## PHASE (R174, R177) -/

/-- Settles O31: the phase check comes first. -/
theorem displayCommandsNeedInit : Obligations.DisplayCommandsNeedInit := fun i s hi hp =>
  exec_of_refused (bodyOf_uninitialized hi (s := s.begin i) hp)

/-- INIT that answers a next state with the sequencer idle has completed. -/
theorem exec_init_ready {rows cols font : Byte} {s t : State} (h : exec (.init rows cols font) s = .next t)
    (hi : t.useq = .idle) : t.phase = .ready := by
  rw [exec_eq_perform] at h
  obtain ⟨u, hu, rfl⟩ | hst := perform_next h
  · obtain ⟨-, -, hsent⟩ := initialize4Bit_done hu
    exact hsent.rest.display.phase
  · obtain ⟨k, hk⟩ := bodyOf_stuck_named hst
    cases hi.symm.trans hk

/-- INIT is the only command that leads to Ready, and it does where it completes. -/
theorem exec_becomes_ready {i : Instr} {s t : State} (h : exec i s = .next t) (hp : s.phase = .uninitialized) :
    t.phase = .ready ↔ (∃ r c f, i = .init r c f) ∧ t.useq = .idle := by
  constructor
  · intro ht
    by_cases hinit : ∃ r c f, i = .init r c f
    · refine ⟨hinit, ?_⟩
      obtain ⟨r, c, f, rfl⟩ := hinit
      obtain ⟨-, hidle⟩ | hstuck := exec_init_keeps h
      · exact hidle
      · cases ht.symm.trans (hstuck.phase.trans hp)
    · obtain ⟨-, hsame⟩ := exec_geometry h fun r c f hi => hinit ⟨r, c, f, hi⟩
      cases ht.symm.trans (hsame.trans hp)
  · rintro ⟨⟨r, c, f, rfl⟩, hidle⟩
    exact exec_init_ready h hidle

/-- With reset released a step keeps Ready. -/
theorem step_keeps_ready {s t : State} (h : step s = .next t) (hr : s.rstN = true) (hp : s.phase = .ready) :
    t.phase = .ready := by
  cases hu : s.useq with
  | executing c k =>
    simp only [step, hr, hu, if_true, Host.Outcome.next.injEq] at h
    exact h ▸ hp
  | idle =>
    cases hd : decode s.arrived with
    | command i rest =>
      rw [step_command hr hu hd] at h
      exact (exec_commandFrame h).ready hp
    | incomplete =>
      rw [step_incomplete hr hu hd] at h
      cases h
      exact hp
    | reserved op =>
      rw [step_reserved hr hu hd] at h
      cases h

/-- Settles O41: the transitions of every command, and of every step with reset released. -/
theorem phaseLeavesUninitializedByInitAlone : Obligations.PhaseLeavesUninitializedByInitAlone := by
  refine ⟨fun i s t h => ⟨(exec_commandFrame h).ready, exec_becomes_ready h⟩, fun s t h hp ht => ?_⟩
  by_contra hr
  cases ht.symm.trans (step_keeps_ready h (by simpa using hr) hp)

end Sys2Proof.Machine
end

section
/-! PROOFS. The exceptional outcomes (R200 to R205): acknowledge bits that nothing reads, a wait that never ends, silent
clamping. -/

namespace Sys2Proof.Machine

/-! ## Acknowledge bits (R203) -/

theorem unseen_acks : Unseen SameButAcks where
  toBlind := blind_acks
  rstN := by rintro s _ ⟨bit, coming, rfl⟩; rfl
  useq := by rintro s _ ⟨bit, coming, rfl⟩; rfl
  arrived := by rintro s _ ⟨bit, coming, rfl⟩; rfl
  engine := by rintro s _ ⟨bit, coming, rfl⟩; exact ⟨_, _, rfl⟩
  take := by rintro s _ rest ⟨bit, coming, rfl⟩; exact ⟨_, _, rfl⟩
  takeAll := by rintro s _ ⟨bit, coming, rfl⟩; exact ⟨_, _, rfl⟩
  holdReset := by rintro s _ ⟨bit, coming, rfl⟩; exact ⟨_, _, rfl⟩
  start := by rintro s _ i ⟨bit, coming, rfl⟩; exact ⟨_, _, rfl⟩
  complete := by rintro s _ ⟨bit, coming, rfl⟩; exact ⟨_, _, rfl⟩
  configured := by rintro s _ addr speed ⟨bit, coming, rfl⟩; exact ⟨_, _, rfl⟩

/-- A completed WBYTE leaves the environment's bit in `ACK_RX` (R30, R122). -/
theorem Completes.wbyte_ackRx {b : Byte} {s t : State} (h : Completes (.wbyte b) s t) :
    t.ackRx = s.acks.head Config.ackBit := by
  obtain ⟨u, hu, rfl⟩ := h.body
  obtain ⟨-, -, -, rfl⟩ := writeByte_done hu
  rfl

/-- Settles O46: the completed WBYTE, and a step that does not see the acknowledge bits. -/
theorem acknowledgeBitsChangeNothing : Obligations.AcknowledgeBitsChangeNothing := by
  intro s bit coming
  have h := unseen_acks.step (s := s) ⟨bit, coming, rfl⟩
  refine ⟨fun b t => Completes.wbyte_ackRx, fun t ht => ?_, fun r hr => ?_⟩
  · rw [ht] at h
    obtain ⟨_, ht', bit', coming', rfl⟩ := h.next
    exact ⟨bit', coming', ht'⟩
  · rw [hr] at h
    exact h.refused

/-! ## A wait that never ends (R202) -/

theorem step_executing {s : State} {i : Instr} {k : Nat} (hr : s.rstN = true) (hu : s.useq = .executing i k) :
    step s = .next (engine s) := by simp only [step, hr, hu, if_true]

/-- Out of reset a stuck block only lets the engine finish its pending stop, whatever number of steps it takes. -/
theorem runSteps_executing {s : State} {i : Instr} {k : Nat} (n : Nat) (hr : s.rstN = true)
    (hu : s.useq = .executing i k) :
    ∃ stopPend stops, runSteps n s = .next { s with stopPend := stopPend, stops := stops } := by
  induction n generalizing s with
  | zero => exact ⟨_, _, rfl⟩
  | succ n ih => rw [runSteps_succ n (step_executing hr hu)]; exact ih hr hu

/-- Settles O10: the state that the steps reach differs in the pending stop alone. -/
theorem stuckForEverUntilReset : Obligations.StuckForEverUntilReset := by
  intro s i k n hr hu
  obtain ⟨stopPend, stops, h⟩ := runSteps_executing n hr hu
  refine ⟨_, h, hu, ?_, ?_, ?_⟩
  · simp [State.cmdReady, hu, USeq.isIdle]
  · simp [State.busy, hu, USeq.isIdle]
  · simp [SameBusConfig, SameDisplay, SameGeometry]

/-! ## Silent clamping (R204) -/

/-- Every row at or above the row count is clamped to the last one, which stays as it is (R163). -/
theorem clampRow_of_le {row rows : Byte} (h1 : 1 ≤ rows.toNat) (h : rows.toNat ≤ row.toNat) :
    clampRow row rows = clampRow (rows - 1) rows := by
  have hpred : (rows - 1).toNat = rows.toNat - 1 := BitVec.toNat_sub_of_le (by simpa [BitVec.le_def] using h1)
  rw [clampRow, if_neg (by omega), clampRow, if_pos le_rfl]

/-- Only the low three bits of a slot are looked at (R170). -/
theorem glyphByte_low (slot : Byte) : glyphByte (slot &&& 0x07) = glyphByte slot := by
  rw [glyphByte, glyphByte, BitVec.and_assoc, BitVec.and_self]

/-- Settles O50: the clamped operand gives the same byte to send, and no body reads the command's name. -/
theorem clampingIsSilent : Obligations.ClampingIsSilent := by
  refine fun s hp => ⟨fun col row h1 h => ?_, fun slot p0 p1 p2 p3 p4 p5 p6 p7 => ?_⟩
  · have hbyte : cursorByte col row s.rows = cursorByte col (s.rows - 1) s.rows := by
      rw [cursorByte, cursorByte, clampRow_of_le h1 h]
    exact endAlike_of_body (g := command (cursorByte col row s.rows)) rfl rfl (setCursor_ready col row hp)
      (hbyte ▸ setCursor_ready col (s.rows - 1) hp) (blind_name.command _)
  · have hbody : loadGlyph (slot &&& 0x07) = loadGlyph slot := by
      funext ps; rw [loadGlyph, loadGlyph, glyphByte_low]
    exact endAlike_of_body rfl rfl rfl (congrFun (congrFun hbody _) _) (blind_name.loadGlyph slot _)

end Sys2Proof.Machine
end

section
/-! PROOFS. The commands above the BusDriver as bodies that only send once their checks are passed and their own register
is written, and with them the two tables of outcomes: which steps are refused (R205), and what stands in the trace at a
wait that never ends (R202). -/

namespace Sys2Proof.Machine

/-! ## A command above the BusDriver past its checks -/

/-- The body only sends the events `ev`, with `n` waits: it completes with all of them, is stuck at any of its waits with
those before it, and is never refused while no transaction is open. -/
structure Sender (g : State → Flow) (n : Nat) (ev : BitVec 7 → Bool → List Event) : Prop where
  sends : Sends g n ev
  halts : Halts g n ev
  accepts : Accepts g
  waited : ∀ a b, waitedIn (ev a b) = n

theorem sender_sendNibble (x : Byte) : Sender (sendNibble x) 3 fun a b => sendNibbleEvents a b x :=
  ⟨sends_sendNibble x, halts_sendNibble x, accepts_sendNibble x, fun _ _ => rfl⟩

theorem sender_pulseLatch (x : Byte) : Sender (pulseLatch x) 6 fun a b => pulseLatchEvents a b x :=
  ⟨sends_pulseLatch x, halts_pulseLatch x, accepts_pulseLatch x, fun _ _ => rfl⟩

theorem sender_sendByte (v m : Byte) : Sender (sendByte v m) 18 fun a b => sendByteEvents a b v m :=
  ⟨sends_sendByte v m, halts_sendByte v m, accepts_sendByte v m, fun _ _ => rfl⟩

theorem sender_command (b : Byte) : Sender (command b) 18 fun a l => commandEvents a l b := sender_sendByte b 0x00

theorem sender_clearBody : Sender clearBody 18 fun a b => homingEvents a b Config.cmdClear :=
  ⟨sends_clearBody, halts_clearBody, accepts_clearBody, fun _ _ => rfl⟩

theorem sender_homeBody : Sender homeBody 18 fun a b => homingEvents a b Config.cmdHome :=
  ⟨sends_homeBody, halts_homeBody, accepts_homeBody, fun _ _ => rfl⟩

theorem sender_loadGlyph (slot : Byte) (ps : List Byte) : Sender (steps [command (glyphByte slot), writeAll ps])
    (18 + 18 * ps.length) fun a b => loadGlyphEvents a b slot ps :=
  ⟨sends_loadGlyph slot ps, halts_loadGlyph slot ps, accepts_steps (by simp [accepts_command, accepts_writeAll]),
    fun a b => by rw [loadGlyphEvents, waitedIn_append, waitedIn_command, waitedIn_dataAll]⟩

theorem sender_printAll (cs : List Byte) : Sender (printAll cs) (18 * cs.length) fun a b => printEvents a b cs :=
  ⟨sends_printAll cs, halts_printAll cs, accepts_printAll cs, fun a b => waitedIn_print a b cs⟩

/-- From the state in which its own register is written, the flow is that of a body that only sends, here `evs`. -/
def SendsFrom (f : Flow) (s0 : State) (evs : List Event) : Prop :=
  ∃ g n ev, f = g s0 ∧ Sender g n ev ∧ ev s0.addr s0.bl = evs

theorem Sender.sendsFrom {g : State → Flow} {n : Nat} {ev : BitVec 7 → Bool → List Event} (h : Sender g n ev)
    (s0 : State) : SendsFrom (g s0) s0 (ev s0.addr s0.bl) := ⟨g, n, ev, rfl, h, rfl⟩

theorem setBacklight_sendsFrom {on : Byte} (ho : legalBool on = true) (s : State) :
    SendsFrom (setBacklight on s) (s.setBl (flagOf on)) (sendNibbleEvents s.addr (decide (on = 1)) 0x00) := by
  have ho := toNat_le_one_of_legalBool ho
  rw [setBacklight_legal ho, flagOf_eq on ho]
  exact (sender_sendNibble 0x00).sendsFrom _

theorem controlFlag_sendsFrom {on : Byte} (f : Byte) (ho : legalBool on = true) {s : State} (hp : s.phase = .ready) :
    SendsFrom (controlFlag f on s) (s.setCtrl (setFlag f (flagOf on) s.ctrl))
      (commandEvents s.addr s.bl (if on = 1 then s.ctrl ||| f else s.ctrl &&& ~~~f)) := by
  have ho := toNat_le_one_of_legalBool ho
  rw [controlFlag_legal hp ho, flagOf_eq on ho, ← setFlag_operand]
  exact (sender_command _).sendsFrom _

theorem modeFlag_sendsFrom {on : Byte} (name : String) (f : Byte) (ho : legalBool on = true) {s : State}
    (hp : s.phase = .ready) : SendsFrom (modeFlag name f on s) (s.setMode (setFlag f (flagOf on) s.mode))
      (commandEvents s.addr s.bl (if on = 1 then s.mode ||| f else s.mode &&& ~~~f)) := by
  have ho := toNat_le_one_of_legalBool ho
  rw [modeFlag_legal hp ho, flagOf_eq on ho, ← setFlag_operand]
  exact (sender_command _).sendsFrom _

/-- Past its checks every command above the BusDriver but INIT, whose register writes stand between its sends, writes
its own register and then only sends the events that its rule lists. -/
theorem bodyOf_sendsFrom {i : Instr} {s : State} (hi : isUpperCommand i = true) (hn : ∀ r c f, i ≠ .init r c f)
    (hw : i.wellFormed = true) (hp : isPhaseChecked i = true → s.phase = .ready) (ht : s.txn = false) :
    SendsFrom (bodyOf i s) (ownWrite s i) (eventsOf s i) := by
  cases i with
  | configure | start | wbyte | stop | rbyte => cases hi
  | init rows cols font => exact absurd rfl (hn rows cols font)
  | sendNibble x => exact (sender_sendNibble x).sendsFrom s
  | pulseLatch x => exact (sender_pulseLatch x).sendsFrom s
  | sendByte v m => exact (sender_sendByte v m).sendsFrom s
  | setBacklight on => exact setBacklight_sendsFrom hw s
  | clear => rw [bodyOf, clear_ready (hp rfl)]; exact sender_clearBody.sendsFrom s
  | home => rw [bodyOf, home_ready (hp rfl)]; exact sender_homeBody.sendsFrom s
  | setCursor col row => rw [bodyOf, setCursor_ready col row (hp rfl)]; exact (sender_command _).sendsFrom s
  | display on | cursor on | blink on => exact controlFlag_sendsFrom _ hw (hp rfl)
  | entryDir on | autoscroll on => exact modeFlag_sendsFrom _ _ hw (hp rfl)
  | scroll right =>
    have ho := toNat_le_one_of_legalBool hw
    rw [bodyOf, scroll_legal (hp rfl) ho, eventsOf, ← scrollByte_legal ho]
    exact (sender_command _).sendsFrom s
  | loadGlyph slot p0 p1 p2 p3 p4 p5 p6 p7 =>
    rw [bodyOf, loadGlyph_ready slot _ (hp rfl)]
    exact (sender_loadGlyph slot _).sendsFrom s
  | print cs => rw [bodyOf, print_ready cs (hp rfl) ht]; exact (sender_printAll cs).sendsFrom s
  | backlight on => rw [bodyOf, backlight_ready on (hp rfl)]; exact setBacklight_sendsFrom hw s

/-- Past its checks INIT is its register writes and its sends (R160). -/
theorem bodyOf_init {rows cols font : Byte} (hw : (Instr.init rows cols font).wellFormed = true) (s : State) :
    bodyOf (.init rows cols font) s = initSends rows cols font s := by
  obtain ⟨hr, hf⟩ := Bool.and_eq_true_iff.1 hw
  exact initialize4Bit_legal cols (by simp [badRows_eq_not_legal, hr]) (by simp [badBool_eq_not_legal, hf]) s

/-! ## Bodies that are not refused -/

/-- Nothing refuses the piece of pseudocode. -/
def NeverRefused (f : State → Flow) : Prop := ∀ s r, f s ≠ .refused r

theorem neverRefused_assign (f : State → State) : NeverRefused (assign f) := fun _ _ => nofun

theorem neverRefused_waitDone : NeverRefused waitDone := by
  intro s r
  cases he : s.busEn with
  | false => rw [waitDone_disabled he]; exact nofun
  | true =>
    cases hw : s.waits.head Config.waitEnds with
    | false => rw [waitDone_never he hw]; exact nofun
    | true => rw [waitDone_ends he hw]; exact nofun

theorem neverRefused_steps {fs : List (State → Flow)} (h : ∀ f ∈ fs, NeverRefused f) : NeverRefused (steps fs) := by
  induction fs with
  | nil => exact fun s r => nofun
  | cons f fs ih =>
    intro s r
    rw [steps_cons]
    cases hf : f s with
    | done t => exact ih (fun g hg => h g (List.mem_cons_of_mem f hg)) t r
    | stuck t => exact nofun
    | refused q => exact absurd hf (h f List.mem_cons_self s q)

/-- A check that is passed, and after it lines that nothing refuses. -/
theorem steps_require_ne_refused {ok : State → Bool} {q : Refusal} {fs : List (State → Flow)} {s : State}
    (hok : ok s = true) (h : ∀ f ∈ fs, NeverRefused f) (r : Refusal) : steps (require ok q :: fs) s ≠ .refused r := by
  rw [steps_cons, require_pos hok, Flow.done_andThen]
  exact neverRefused_steps h s r

theorem Accepts.ne_refused {f : State → Flow} {s : State} (h : Accepts f) (ht : s.txn = false) (r : Refusal) :
    f s ≠ .refused r := by
  obtain ⟨t, hd, -⟩ | ⟨t, hst⟩ := h s ht
  · rw [hd]; exact nofun
  · rw [hst]; exact nofun

/-- Past its checks a command above the BusDriver is not refused while no transaction is open (R125). -/
theorem bodyOf_upper_ne_refused {i : Instr} {s : State} (hi : isUpperCommand i = true) (hw : i.wellFormed = true)
    (hp : isPhaseChecked i = true → s.phase = .ready) (ht : s.txn = false) (r : Refusal) : bodyOf i s ≠ .refused r := by
  by_cases hinit : ∃ rows cols font, i = .init rows cols font
  · obtain ⟨rows, cols, font, rfl⟩ := hinit
    rw [bodyOf_init hw]
    exact (accepts_initSends rows cols font).ne_refused ht r
  · obtain ⟨g, n, ev, hg, hsend, -⟩ :=
      bodyOf_sendsFrom hi (fun rows cols font h => hinit ⟨rows, cols, font, h⟩) hw hp ht
    rw [hg]
    exact hsend.accepts.ne_refused ((sameBus_ownWrite s i).txn.trans ht) r

theorem Phase.eq_ready_of_ne {p : Phase} (h : p ≠ .uninitialized) : p = .ready := by
  cases p with
  | uninitialized => exact absurd rfl h
  | ready => rfl

/-- Outside the cases of R205's table no body is refused. -/
theorem bodyOf_ne_refused {i : Instr} {s : State} (h : ¬ RefusedCase i s) (r : Refusal) : bodyOf i s ≠ .refused r := by
  simp only [RefusedCase, not_or, not_and, Bool.not_eq_true, Bool.not_eq_false] at h
  obtain ⟨hw, hconf, hopen, hclosed, hp⟩ := h
  cases i with
  | configure addr speed =>
    rw [bodyOf, configure_ends ((badAddr_eq_not_legal addr).trans (congrArg (!·) hw)) (hconf ⟨addr, speed, rfl⟩)]
    exact nofun
  | start =>
    have ht := hopen (.inl rfl)
    exact steps_require_ne_refused (by simp [ht]) (by simp [neverRefused_assign, neverRefused_waitDone]) r
  | wbyte b =>
    exact steps_require_ne_refused (hclosed (.inl ⟨b, rfl⟩)) (by simp [neverRefused_assign, neverRefused_waitDone]) r
  | stop => exact steps_require_ne_refused (hclosed (.inr (.inr rfl))) (by simp [neverRefused_assign]) r
  | rbyte =>
    exact steps_require_ne_refused (hclosed (.inr (.inl rfl))) (by simp [neverRefused_assign, neverRefused_waitDone]) r
  | _ => exact bodyOf_upper_ne_refused rfl hw (fun hc => Phase.eq_ready_of_ne (hp hc)) (hopen (.inr rfl)) r

/-- A command whose body is not refused gives a next state. -/
theorem exec_next_of_ne_refused {i : Instr} {s : State} (h : ∀ r, bodyOf i (s.begin i) ≠ .refused r) :
    ∃ t, exec i s = .next t := by
  cases hb : bodyOf i (s.begin i) with
  | done u => exact ⟨u.complete, exec_of_done hb⟩
  | stuck u => exact ⟨u, (exec_eq_perform i s).trans (perform_stuck hb)⟩
  | refused r => exact absurd hb (h r)

/-! ## The refusals of R205 -/

/-- In each of the cases of R205's table the command is refused, by the first of its checks that fails (R207). -/
theorem exec_refused_of_case {i : Instr} {s : State} (he : i.encodable = true) (h : RefusedCase i s) :
    ∃ r, exec i s = .refused r := by
  by_cases hp : isPhaseChecked i = true ∧ s.phase = .uninitialized
  · obtain ⟨hc, hu⟩ := hp
    exact ⟨_, displayCommandsNeedInit i s hc hu⟩
  have hready : isPhaseChecked i = true → s.phase = .ready := fun hc => Phase.eq_ready_of_ne fun hu => hp ⟨hc, hu⟩
  cases hw : i.wellFormed with
  | false =>
    obtain ⟨name, hr⟩ := reservedOperandsAreRefused i s he hw hready
    exact ⟨_, hr⟩
  | true =>
    obtain hbad | ⟨⟨addr, speed, rfl⟩, hen⟩ | ⟨rfl | hi, ht⟩ | ⟨⟨b, rfl⟩ | rfl | rfl, ht⟩ | hu := h
    · cases hw.symm.trans hbad
    · exact ⟨_, exec_of_refused (configure_again ((badAddr_eq_not_legal addr).trans (congrArg (!·) hw)) hen)⟩
    · exact ⟨_, exec_of_refused (start_refused ht)⟩
    · exact ⟨_, openTransactionRefusesUpperCommands i s hi hw ht hready⟩
    · exact ⟨_, exec_of_refused (writeByte_refused b ht)⟩
    · exact ⟨_, exec_of_refused (readByte_refused ht)⟩
    · exact ⟨_, exec_of_refused (stop_refused ht)⟩
    · exact absurd hu hp

theorem step_inReset {s : State} (hr : s.rstN = false) : step s = .next s.holdReset := if_neg (by simp [hr])

/-- Settles O11, by what the step finds: reset, a command that waits for ever, or what has arrived at the port. -/
theorem everyStepGoesOnButForTheListedRefusals : Obligations.EveryStepGoesOnButForTheListedRefusals := by
  refine fun s => ⟨?_, fun h => ?_⟩
  · rintro ⟨hr, hu, ⟨op, hd⟩ | ⟨i, rest, hd, hc⟩⟩
    · exact ⟨_, step_reserved hr hu hd⟩
    · obtain ⟨-, he⟩ := decode_readsOwn hd
      rw [step_command hr hu hd]
      exact exec_refused_of_case he hc
  · cases hr : s.rstN with
    | false => exact ⟨_, step_inReset hr⟩
    | true =>
      cases hu : s.useq with
      | executing i k => exact ⟨_, step_executing hr hu⟩
      | idle =>
        cases hd : decode s.arrived with
        | incomplete => exact ⟨_, step_incomplete hr hu hd⟩
        | reserved op => exact absurd ⟨hr, hu, .inl ⟨op, hd⟩⟩ h
        | command i rest =>
          have hc : ¬ RefusedCase i s := fun hc => h ⟨hr, hu, .inr ⟨i, rest, hd, hc⟩⟩
          rw [step_command hr hu hd]
          exact exec_next_of_ne_refused (bodyOf_ne_refused hc)

/-! ## At the wait that never ends (R202) -/

/-- The registers that a command writes before its sends are written: `BL`, `CTRL` or `MODE` by the commands that set
them (R143, R164 to R168), while INIT has forced `BL` and left `PHASE` (R160). -/
def RegistersWritten (i : Instr) (s t : State) : Prop :=
  (∀ on, i = .setBacklight on ∨ i = .backlight on → t.bl = decide (on = 1)) ∧
  (∀ on, i = .display on → t.ctrl = if on = 1 then s.ctrl ||| 0x04 else s.ctrl &&& 0xFB) ∧
  (∀ on, i = .cursor on → t.ctrl = if on = 1 then s.ctrl ||| 0x02 else s.ctrl &&& 0xFD) ∧
  (∀ on, i = .blink on → t.ctrl = if on = 1 then s.ctrl ||| 0x01 else s.ctrl &&& 0xFE) ∧
  (∀ ltr, i = .entryDir ltr → t.mode = if ltr = 1 then s.mode ||| 0x02 else s.mode &&& 0xFD) ∧
  (∀ on, i = .autoscroll on → t.mode = if on = 1 then s.mode ||| 0x01 else s.mode &&& 0xFE) ∧
  ∀ rows cols font, i = .init rows cols font → t.bl = true ∧ t.phase = s.phase

theorem setFlag_flagOf {on : Byte} (h : legalBool on = true) (f v : Byte) :
    setFlag f (flagOf on) v = if on = 1 then v ||| f else v &&& ~~~f := by
  rw [flagOf_eq on (toNat_le_one_of_legalBool h), setFlag_operand]

theorem registersWritten_of_ownWrite {i : Instr} {s t : State} (hn : ∀ r c f, i ≠ .init r c f)
    (hw : i.wellFormed = true) (hbl : t.bl = (ownWrite s i).bl) (hd : SameDisplay (ownWrite s i) t) :
    RegistersWritten i s t := by
  refine ⟨fun on h => ?_, ?_, ?_, ?_, ?_, ?_, fun rows cols font h => absurd h (hn rows cols font)⟩
  · obtain rfl | rfl := h <;> exact hbl.trans (flagOf_eq on (toNat_le_one_of_legalBool hw))
  · rintro on rfl; exact hd.ctrl.trans (setFlag_flagOf hw _ _)
  · rintro on rfl; exact hd.ctrl.trans (setFlag_flagOf hw _ _)
  · rintro on rfl; exact hd.ctrl.trans (setFlag_flagOf hw _ _)
  · rintro on rfl; exact hd.mode.trans (setFlag_flagOf hw _ _)
  · rintro on rfl; exact hd.mode.trans (setFlag_flagOf hw _ _)

theorem registersWritten_init {rows cols font : Byte} {s t : State} (hbl : t.bl = true) (hp : t.phase = s.phase) :
    RegistersWritten (.init rows cols font) s t :=
  ⟨nofun, nofun, nofun, nofun, nofun, nofun, fun _ _ _ _ => ⟨hbl, hp⟩⟩

/-- What a command above the BusDriver comes to on an enabled bus with no transaction open: it completes where its waits
all end, and hangs at the first that never ends, the events before it recorded. -/
def EndsAtItsWaits (i : Instr) (s : State) : Prop :=
  (s.waitsEnd (waitedIn (eventsOf s i)) = true → ∃ t, Completes i s t) ∧
  ∀ k, k < waitedIn (eventsOf s i) → s.waitsEnd k = true → s.waitsEnd (k + 1) = false →
    ∃ t, Hangs i s k t ∧ t.done = false ∧ t.trace = s.trace ++ beforeWait k (eventsOf s i) ∧ RegistersWritten i s t

theorem eventsOf_begin (i : Instr) (s : State) : eventsOf (s.begin i) i = eventsOf s i := by cases i <;> rfl

/-- The commands that write their register first and then only send. -/
theorem endsAtItsWaits_of_sends {i : Instr} {s : State} (hn : ∀ r c f, i ≠ .init r c f) (hw : i.wellFormed = true)
    (hs : SendsFrom (bodyOf i (s.begin i)) (ownWrite (s.begin i) i) (eventsOf s i)) (ht : s.txn = false)
    (he : s.busEn = true) : EndsAtItsWaits i s := by
  obtain ⟨g, n, ev, hbody, hg, hev⟩ := hs
  have hwaits : waitedIn (eventsOf s i) = n := hev ▸ hg.waited _ _
  obtain ⟨hends, hstops⟩ :=
    outcomes_of_sends (exec_eq_perform i s) hbody (sameBus_ownWrite _ i) hg.sends hg.halts hev ht he
  rw [EndsAtItsWaits, hwaits]
  refine ⟨fun hend => ?_, fun k hk h1 h2 => ?_⟩
  · obtain ⟨t, hc, -⟩ := hends hend
    exact ⟨t, hc⟩
  · obtain ⟨t, hh, hdone, htrace, hbl, hd⟩ := hstops k hk h1 h2
    rw [ownWrite_begin] at hbl hd
    exact ⟨t, hh, hdone, htrace, registersWritten_of_ownWrite hn hw hbl hd⟩

/-- INIT, whose register writes stand between its sends. -/
theorem endsAtItsWaits_init {rows cols font : Byte} {s : State} (hw : (Instr.init rows cols font).wellFormed = true)
    (ht : s.txn = false) (he : s.busEn = true) : EndsAtItsWaits (.init rows cols font) s := by
  obtain ⟨-, hf⟩ := Bool.and_eq_true_iff.1 hw
  have hevents : eventsOf s (.init rows cols font) = initEvents s.addr rows (flagOf font) := by
    rw [eventsOf, flagOf_eq font (toNat_le_one_of_legalBool hf)]
  rw [EndsAtItsWaits, hevents, waitedIn_init]
  refine ⟨fun hend => ?_, fun k hk h1 h2 => ?_⟩
  · obtain ⟨u, hu, hsent⟩ := initSends_ends (rows := rows) (cols := cols) (font := font)
      (BusReady.begin (.init rows cols font) ⟨he, ht, hend⟩)
    exact ⟨_, completes_of_done ((bodyOf_init hw _).trans hu) hsent.rest.cp⟩
  · obtain ⟨s0, t, hu, hstuck, hsame, hbl, hphase⟩ := initSends_halts (rows := rows) (cols := cols) (font := font) hk
      (StopsAt.begin (.init rows cols font) ⟨ht, .inl ⟨he, h1, h2⟩⟩)
    obtain ⟨hh, htrace, hdone, hblt, hd⟩ :=
      hangs_of_stuckAfter (exec_eq_perform _ s) ((bodyOf_init hw _).trans hu) hsame hstuck
    exact ⟨t, hh, hdone, htrace, registersWritten_init (hblt.trans hbl) (hd.phase.trans hphase)⟩

/-- Settles O34: INIT by its parts, every other command by its one sending body. -/
theorem stuckSendsKeepTheEventsBefore : Obligations.StuckSendsKeepTheEventsBefore := by
  intro i s hi hw hp ht he
  have hends : EndsAtItsWaits i s := by
    by_cases hinit : ∃ rows cols font, i = .init rows cols font
    · obtain ⟨rows, cols, font, rfl⟩ := hinit
      exact endsAtItsWaits_init hw ht he
    · have hn (rows cols font) : i ≠ .init rows cols font := fun h => hinit ⟨rows, cols, font, h⟩
      have hsends := bodyOf_sendsFrom (s := s.begin i) hi hn hw hp ht
      rw [eventsOf_begin] at hsends
      exact endsAtItsWaits_of_sends hn hw hsends ht he
  obtain ⟨hcomplete, hstuck⟩ := hends
  refine ⟨fun hend => ?_, hstuck⟩
  obtain ⟨t, hc⟩ := hcomplete hend
  exact ⟨t, hc, hc.trace_eq hi⟩

end Sys2Proof.Machine
end

section
/-! PROOFS. Reset from every state (R220), and delays as lower bounds (R211, R228). -/

namespace Sys2Proof.Machine

/-! ## Reset (R220) -/

theorem cmdReady_holdReset (s : State) : s.holdReset.cmdReady = s.rstN := Bool.and_true _

theorem busy_holdReset (s : State) : s.holdReset.busy = false := rfl

/-- Reset released after it was held: the state after reset, with what reset leaves to the host and to the environment
(log entries 4, 5). -/
theorem release_holdReset (s : State) :
    s.holdReset.driveReset true = { State.reset with cmdIn := s.cmdIn, waits := s.waits, acks := s.acks,
                                                     bytes := s.bytes, stops := s.stops } := rfl

/-- Settles O7: with `rst_n` 0 the step holds reset, in whatever state the block was. -/
theorem resetWorksFromEveryState : Obligations.ResetWorksFromEveryState := fun s =>
  ⟨(s.driveReset false).holdReset, step_inReset rfl, cmdReady_holdReset _, busy_holdReset _, release_holdReset _, rfl⟩

/-! ## Delays (R211, R228) -/

theorem respectsDelays_cons {t at_ : Nat} {e : Event} {rest : TimedTrace} :
    respectsDelays t ((at_, e) :: rest) = true ↔ t ≤ at_ ∧ respectsDelays (at_ + e.minimumUs) rest = true := by
  simp [respectsDelays]

theorem leastDelayUs_cons (e : Event) (tr : List Event) : leastDelayUs (e :: tr) = e.minimumUs + leastDelayUs tr :=
  List.sum_cons

/-- Each event is issued no earlier than allowed, and puts off the earliest time of the next by its own minimum. -/
theorem leastDelayUs_le_of_respectsDelays {at_ : Nat} {e : Event} {rest : TimedTrace} (tr : TimedTrace) {t0 : Nat}
    (h : respectsDelays t0 (tr ++ (at_, e) :: rest) = true) : t0 + leastDelayUs (tr.map Prod.snd) ≤ at_ := by
  induction tr generalizing t0 with
  | nil => exact (respectsDelays_cons.1 h).1
  | cons first tr ih =>
    obtain ⟨t1, e1⟩ := first
    obtain ⟨hfirst, htail⟩ := respectsDelays_cons.1 h
    have hle := ih htail
    simp only [List.map_cons, leastDelayUs_cons]
    omega

/-- The delay unit rounds up (R211). -/
theorem le_delayCycles (n : Nat) : n * Config.clkHz ≤ delayCycles n * 1000000 := by
  rw [delayCycles]; omega

/-- Settles O55, the trace by induction on the events before the last, the delay unit by its rounding. -/
theorem delaysAreNeverShortened : Obligations.DelaysAreNeverShortened :=
  ⟨fun _ _ tr _ h => leastDelayUs_le_of_respectsDelays tr h, le_delayCycles⟩

end Sys2Proof.Machine
end
